-- ==== Sys2Proof/Word.lean ====
section
/-! DEFINITION. The words of the block: the 8-bit byte, the 16-bit halfword and the 32-bit word (00_scope.md R10), and
the two's-complement reading `signed16` (R11). -/

namespace Sys2Proof

/-- An 8-bit byte: one flash byte, one I2C data byte (R10). -/
abbrev Byte := BitVec 8

/-- A 16-bit halfword (R10). -/
abbrev Half := BitVec 16

/-- A 32-bit word: every register, every command word, every bus address (R10). -/
abbrev Word := BitVec 32

/-- `signed16(v)`: a 16-bit pattern read as two's complement (R11). -/
def signed16 (v : Half) : Int := v.toInt

end Sys2Proof
end

