-- ==== Sys2Proof/Config.lean ====
section
/-! DEFINITION. What an implementation fixes (the parameters of 00_scope.md R9), what the environment is (the host's bus
accesses, R30, and the inputs of one tick, R34, R310), and the free values: opaque constants of which nothing can be
proved. -/

namespace Sys2Proof

/-- The OPEN parameters of R9 that the block itself reads. They are data, fixed for one machine: `State.par` holds them and
no step changes them. `PAGE_SIZE` is a power of two, so its logarithm is what is kept. -/
structure Params where
  /-- `I2CM_BASE`: byte address of the I2CM register block. -/
  i2cmBase : Nat
  /-- `FLC_BASE`: byte address of the FLC register block. -/
  flcBase : Nat
  /-- `FLASH_BASE`: byte address of the first flash byte. -/
  flashBase : Nat
  /-- The base-two logarithm of `PAGE_SIZE`. -/
  pageLog : Nat
  /-- `NUM_PAGES`. -/
  numPages : Nat
  /-- `ERASED_BYTE`: what every byte is after an erase. -/
  erasedByte : Byte
  /-- `T_ERASE_PAGE`, in ticks. -/
  tErasePage : Nat
  /-- `T_ERASE_ALL`, in ticks. -/
  tEraseAll : Nat
  /-- `T_PROG_HALF`, in ticks. -/
  tProgHalf : Nat
  /-- `T_PROG_WORD`, in ticks. -/
  tProgWord : Nat
  /-- `T_UNIT`: the duration of one tick (R9: OPEN, no constraint). DESIGN CHOICE (notes/assumptions/17.md): a whole number
  of nanoseconds, zero not excluded. It scales times only; no rule of the block reads it (R336). -/
  tUnit : Nat
  deriving DecidableEq, Repr

/-- `PAGE_SIZE`: bytes per flash page, a power of two (R9). -/
def Params.pageSize (p : Params) : Nat := 2 ^ p.pageLog

/-- `FLASH_SIZE = NUM_PAGES * PAGE_SIZE` (R9). -/
def Params.flashSize (p : Params) : Nat := p.numPages * p.pageSize

/-- The OPEN constants of the sensor client (R9, R190, R193): host software's, not the block's. -/
structure SensorConfig where
  devAddr7 : BitVec 7
  regPwrMgmt1 : Byte
  cfgPwrMgmt1 : Byte
  regPwrMgmt2 : Byte
  cfgPwrMgmt2 : Byte
  regSmplrtDiv : Byte
  cfgSmplrtDiv : Byte
  regConfig : Byte
  cfgConfig : Byte
  regGyroConfig : Byte
  cfgGyroConfig : Byte
  regAccelConfig : Byte
  cfgAccelConfig : Byte
  regWhoAmI : Byte
  whoAmIValue : Byte
  /-- The high-byte and low-byte register of each axis, in the order ACCEL_X, ACCEL_Y, ACCEL_Z, GYRO_X, GYRO_Y, GYRO_Z. -/
  axisRegs : Vector (Byte × Byte) 6
  deriving DecidableEq, Repr

/-- The width of one host access (R89, R93). -/
inductive Width
  | w8
  | w16
  | w32
  deriving DecidableEq, Repr

/-- One access of the host to the bus (R30). -/
inductive Access
  | read (width : Width) (addr : Word)
  | write (width : Width) (addr : Word) (value : Word)
  deriving DecidableEq, Repr

/-- The bus faults PERIPH returns (R274). -/
inductive BusFault
  | width      -- BF_WIDTH: an 8- or 16-bit access to a register block
  | align      -- BF_ALIGN: a misaligned 32-bit register access or flash read
  | readOnly   -- BF_RO: a host write to the flash window
  deriving DecidableEq, Repr

/-- One line of a host sequence (R125): a tick without an access, one access, or `poll`: read the 32-bit register at
`addr` once a tick until the bits of `mask` are those of `want`. -/
inductive HostOp
  | idle
  | access (a : Access)
  | poll (addr mask want : Word)
  deriving DecidableEq, Repr

/-- What the environment does in one tick: whether reset is asserted (R310), and the bus peer's drives (R34), `true` for
released (R12). -/
structure EnvTick where
  reset : Bool
  sclP : Bool
  sdaP : Bool
  deriving DecidableEq, Repr

/-- `DELAY_RESET`: the reset value of I2CM_DELAY (R9, R37). -/
def Config.delayReset : BitVec 16 := 10

/-- `SENTINEL` (R9, R250). -/
def Config.sentinel : Half := 0xA5A5

/-- `NSLOTS` (R9, R250). -/
def Config.nSlots : Nat := 512

/-- `draw()` (R13): the n-th free byte that a run draws. No law holds of it. -/
opaque Config.draw : Nat → Byte

/-- The byte at address a before the first erase of its page (70_reset_and_hazards.md R315, 93_implementation_defined.md
I3): a free value per byte. No law holds of it. -/
opaque Config.flashInit : Nat → Byte

/-- The peer's SCL drive in tick n when `State.env` schedules none: a free value under no law (R34). -/
opaque Config.peerScl : Nat → Bool

/-- The peer's SDA drive in tick n when `State.env` schedules none: a free value under no law (R34). -/
opaque Config.peerSda : Nat → Bool

/-- `HOST_BUS_ERROR` (R276): what the host goes on to do after a bus fault, given what was left of its program. Open. -/
opaque Config.hostBusError : BusFault → List HostOp → List HostOp

end Sys2Proof
end

