-- ==== Sys2Proof/Syntax.lean ====
section
/-! DEFINITION. The commands of PERIPH, one constructor per row of spec/opcode_table.json (30_encoding.md R115, R116,
R117, R124): the ten I2CM commands, the six FLC commands and the three flash-window reads. -/

namespace Sys2Proof

/-- One command of PERIPH. A command word carries its operand (the byte of SEND_BYTE, the bit of SEND_ACK, WRITE_SCL and
WRITE_SDA); a flash-window read carries its bus address. The other operands are the registers FLC_ADDR and FLC_DATA
(R114). -/
inductive Instr
  | i2cInit                      -- `i2c.init`       INIT        (R161)
  | i2cStart                     -- `i2c.start`      START       (R162)
  | i2cStop                      -- `i2c.stop`       STOP        (R163)
  | i2cSendb (byte : Byte)       -- `i2c.sendb imm8` SEND_BYTE   (R164)
  | i2cRecvb                     -- `i2c.recvb`      RECV_BYTE   (R165)
  | i2cSack (a : Bool)           -- `i2c.sack imm1`  SEND_ACK    (R166)
  | i2cRack                      -- `i2c.rack`       RECV_ACK    (R167)
  | i2cWscl (b : Bool)           -- `i2c.wscl imm1`  WRITE_SCL   (R148)
  | i2cWsda (b : Bool)           -- `i2c.wsda imm1`  WRITE_SDA   (R149)
  | i2cRsda                      -- `i2c.rsda`       READ_SDA    (R150)
  | flcUnlock                    -- `flc.unlock`     UNLOCK      (R214)
  | flcLock                      -- `flc.lock`       LOCK        (R215)
  | flcErasep                    -- `flc.erasep`     ERASE_PAGE  (R216)
  | flcErasea                    -- `flc.erasea`     ERASE_ALL   (R217)
  | flcProgh                     -- `flc.progh`      PROG_HALF   (R218)
  | flcProgw                     -- `flc.progw`      PROG_WORD   (R219)
  | rdB (a : Word)               -- `rd.b a`         RD_BYTE     (R211)
  | rdH (a : Word)               -- `rd.h a`         RD_HALF     (R212)
  | rdW (a : Word)               -- `rd.w a`         RD_WORD     (R213)
  deriving DecidableEq, Repr

end Sys2Proof
end

