-- ==== Sys2Proof/Decode.lean ====
section
/-! DEFINITION. Decoding: what a bus access means (20_memory.md R80 to R93), and which command a word written to a CMD
register is (30_encoding.md R110 to R123); then the encoder, written from the same tables. Decoding is total. -/

namespace Sys2Proof

/-- The bits `hi:lo` of a word, as a number (00_scope.md R11). -/
def bits (w : Word) (hi lo : Nat) : Nat := w.toNat / 2 ^ lo % 2 ^ (hi + 1 - lo)

/-- Why a word written to a CMD register is no command (R119, R120, R121). -/
inductive DecodeError
  | reservedBits     -- a nonzero bit of RSV, RSV0 or RSV1
  | argNotTaken      -- an ARG value that the opcode does not take
  | reservedOpcode   -- a reserved opcode
  deriving DecidableEq, Repr

/-- The command of opcode `op` with argument byte `arg`, where the opcode takes no argument (R113). -/
def withoutArg (arg : Nat) (i : Instr) : Except DecodeError Instr :=
  if arg = 0 then .ok i else .error .argNotTaken

/-- The command of opcode `op` with argument byte `arg`, where the opcode takes the one bit `b = cmd[8]` (R113). -/
def withBitArg (arg : Nat) (f : Bool → Instr) : Except DecodeError Instr :=
  if arg / 2 = 0 then .ok (f (decide (arg % 2 = 1))) else .error .argNotTaken

/-- The I2CM decoder (R111, R115, R118): OP is `w[3:0]`, RSV0 `w[7:4]`, ARG `w[15:8]`, RSV1 `w[31:16]`. -/
def decodeI2cm (w : Word) : Except DecodeError Instr :=
  if bits w 31 16 ≠ 0 ∨ bits w 7 4 ≠ 0 then .error .reservedBits
  else
    match bits w 3 0 with
    | 1 => withoutArg (bits w 15 8) .i2cInit
    | 2 => withoutArg (bits w 15 8) .i2cStart
    | 3 => withoutArg (bits w 15 8) .i2cStop
    | 4 => .ok (.i2cSendb (BitVec.ofNat 8 (bits w 15 8)))
    | 5 => withoutArg (bits w 15 8) .i2cRecvb
    | 6 => withBitArg (bits w 15 8) .i2cSack
    | 7 => withoutArg (bits w 15 8) .i2cRack
    | 8 => withBitArg (bits w 15 8) .i2cWscl
    | 9 => withBitArg (bits w 15 8) .i2cWsda
    | 10 => withoutArg (bits w 15 8) .i2cRsda
    | _ => .error .reservedOpcode

/-- The FLC decoder (R112, R116, R118): OP is `w[3:0]`, RSV `w[31:4]`. -/
def decodeFlc (w : Word) : Except DecodeError Instr :=
  if bits w 31 4 ≠ 0 then .error .reservedBits
  else
    match bits w 3 0 with
    | 1 => .ok .flcUnlock
    | 2 => .ok .flcLock
    | 3 => .ok .flcErasep
    | 4 => .ok .flcErasea
    | 5 => .ok .flcProgh
    | 6 => .ok .flcProgw
    | _ => .error .reservedOpcode

/-- The registers of the two blocks (10_state.md R39, R59). -/
inductive Reg
  | i2cmCmd
  | i2cmStat
  | i2cmData
  | i2cmDelay
  | flcCmd
  | flcAddr
  | flcData
  | flcStat
  deriving DecidableEq, Repr

/-- The byte address of a register (R39, R59). -/
def Reg.addr (p : Params) : Reg → Nat
  | .i2cmCmd => p.i2cmBase
  | .i2cmStat => p.i2cmBase + 4
  | .i2cmData => p.i2cmBase + 8
  | .i2cmDelay => p.i2cmBase + 12
  | .flcCmd => p.flcBase
  | .flcAddr => p.flcBase + 4
  | .flcData => p.flcBase + 8
  | .flcStat => p.flcBase + 12

/-- The I2CM register at an offset (R39). -/
def i2cmRegAt (off : Nat) : Reg :=
  if off = 0 then .i2cmCmd else if off = 4 then .i2cmStat else if off = 8 then .i2cmData else .i2cmDelay

/-- The FLC register at an offset (R59). -/
def flcRegAt (off : Nat) : Reg :=
  if off = 0 then .flcCmd else if off = 4 then .flcAddr else if off = 8 then .flcData else .flcStat

/-- The three regions PERIPH answers, and everything else (20_memory.md R80, R84). A register block carries the offset. -/
inductive Region
  | i2cm (off : Nat)
  | flc (off : Nat)
  | flash
  | outside
  deriving DecidableEq, Repr

/-- Is the byte address in the flash window (20_memory.md R83)? -/
def inWindow (p : Params) (a : Nat) : Bool :=
  decide (p.flashBase ≤ a) && decide (a < p.flashBase + p.flashSize)

/-- The region of a byte address (20_memory.md R81, R82, R83, R84). -/
def regionOf (p : Params) (a : Nat) : Region :=
  if p.i2cmBase ≤ a ∧ a < p.i2cmBase + 16 then .i2cm (a - p.i2cmBase)
  else if p.flcBase ≤ a ∧ a < p.flcBase + 16 then .flc (a - p.flcBase)
  else if inWindow p a then .flash
  else .outside

/-- The two units. -/
inductive PeriphUnit
  | i2cm
  | flc
  deriving DecidableEq, Repr

/-- What a host access is to PERIPH. -/
inductive Decoded
  | instr (i : Instr)                           -- a command of the opcode table
  | badCommand (u : PeriphUnit) (e : DecodeError)  -- an invalid word written to the unit's CMD register (R118)
  | readReg (r : Reg)                           -- a register read
  | writeReg (r : Reg) (v : Word)               -- a write to a register other than CMD
  | fault (c : BusFault)                        -- an access that is not performed (60_exceptions.md R274)
  | outside                                     -- not PERIPH's (20_memory.md R84)
  deriving DecidableEq, Repr

/-- A word written to a CMD register (R110): the register names the unit, the word the command. -/
def decodeCommand (u : PeriphUnit) (r : Except DecodeError Instr) : Decoded :=
  match r with
  | .ok i => .instr i
  | .error e => .badCommand u e

/-- The write of `v` to register `r` (R110, 10_state.md R39, R59). -/
def decodeRegWrite (r : Reg) (v : Word) : Decoded :=
  match r with
  | .i2cmCmd => decodeCommand .i2cm (decodeI2cm v)
  | .flcCmd => decodeCommand .flc (decodeFlc v)
  | .i2cmStat => .writeReg .i2cmStat v
  | .i2cmData => .writeReg .i2cmData v
  | .i2cmDelay => .writeReg .i2cmDelay v
  | .flcAddr => .writeReg .flcAddr v
  | .flcData => .writeReg .flcData v
  | .flcStat => .writeReg .flcStat v

/-- The checks of an access to a register block at offset `off` (20_memory.md R93, 60_exceptions.md R275): BF_WIDTH
unless it is 32 bits wide, then BF_ALIGN unless the offset is a multiple of 4 (the blocks are 16-byte aligned). -/
def decodeRegAccess (width : Width) (off : Nat) (performed : Decoded) : Decoded :=
  match width with
  | .w32 => if off % 4 = 0 then performed else .fault .align
  | .w8 => .fault .width
  | .w16 => .fault .width

/-- A read of the flash window is the command its width names (R117). Alignment is the command's own check (R212, R213). -/
def flashRead (width : Width) (addr : Word) : Instr :=
  match width with
  | .w8 => .rdB addr
  | .w16 => .rdH addr
  | .w32 => .rdW addr

/-- What an access is: the region of its first byte, then its width and alignment (20_memory.md R80 to R93). -/
def decodeAccess (p : Params) : Access → Decoded
  | .read width addr =>
    match regionOf p addr.toNat with
    | .flash => .instr (flashRead width addr)
    | .i2cm off => decodeRegAccess width off (.readReg (i2cmRegAt off))
    | .flc off => decodeRegAccess width off (.readReg (flcRegAt off))
    | .outside => .outside
  | .write width addr v =>
    match regionOf p addr.toNat with
    | .flash => .fault .readOnly
    | .i2cm off => decodeRegAccess width off (decodeRegWrite (i2cmRegAt off) v)
    | .flc off => decodeRegAccess width off (decodeRegWrite (flcRegAt off) v)
    | .outside => .outside

/-! ### The encoder -/

/-- The word of a command (R111, R112, R124); of a flash-window read, its bus address (the pattern of its table row). -/
def encodeWord : Instr → Word
  | .i2cInit => 0x00000001
  | .i2cStart => 0x00000002
  | .i2cStop => 0x00000003
  | .i2cSendb byte => BitVec.ofNat 32 (4 + 256 * byte.toNat)
  | .i2cRecvb => 0x00000005
  | .i2cSack a => BitVec.ofNat 32 (6 + 256 * a.toNat)
  | .i2cRack => 0x00000007
  | .i2cWscl b => BitVec.ofNat 32 (8 + 256 * b.toNat)
  | .i2cWsda b => BitVec.ofNat 32 (9 + 256 * b.toNat)
  | .i2cRsda => 0x0000000A
  | .flcUnlock => 0x00000001
  | .flcLock => 0x00000002
  | .flcErasep => 0x00000003
  | .flcErasea => 0x00000004
  | .flcProgh => 0x00000005
  | .flcProgw => 0x00000006
  | .rdB a => a
  | .rdH a => a
  | .rdW a => a

/-- The 32-bit write of `v` to register `r` (R125). -/
def writeOf (p : Params) (r : Reg) (v : Word) : Access := .write .w32 (BitVec.ofNat 32 (r.addr p)) v

/-- The 32-bit read of register `r` (R125). -/
def readOf (p : Params) (r : Reg) : Access := .read .w32 (BitVec.ofNat 32 (r.addr p))

/-- The access that issues an instruction (R110, R117): the write of its word to its unit's CMD register, or the read of
the flash window that its width names. -/
def encode (p : Params) (i : Instr) : Access :=
  match i with
  | .rdB a => .read .w8 a
  | .rdH a => .read .w16 a
  | .rdW a => .read .w32 a
  | .flcUnlock => writeOf p .flcCmd (encodeWord .flcUnlock)
  | .flcLock => writeOf p .flcCmd (encodeWord .flcLock)
  | .flcErasep => writeOf p .flcCmd (encodeWord .flcErasep)
  | .flcErasea => writeOf p .flcCmd (encodeWord .flcErasea)
  | .flcProgh => writeOf p .flcCmd (encodeWord .flcProgh)
  | .flcProgw => writeOf p .flcCmd (encodeWord .flcProgw)
  | .i2cInit => writeOf p .i2cmCmd (encodeWord .i2cInit)
  | .i2cStart => writeOf p .i2cmCmd (encodeWord .i2cStart)
  | .i2cStop => writeOf p .i2cmCmd (encodeWord .i2cStop)
  | .i2cSendb byte => writeOf p .i2cmCmd (encodeWord (.i2cSendb byte))
  | .i2cRecvb => writeOf p .i2cmCmd (encodeWord .i2cRecvb)
  | .i2cSack a => writeOf p .i2cmCmd (encodeWord (.i2cSack a))
  | .i2cRack => writeOf p .i2cmCmd (encodeWord .i2cRack)
  | .i2cWscl b => writeOf p .i2cmCmd (encodeWord (.i2cWscl b))
  | .i2cWsda b => writeOf p .i2cmCmd (encodeWord (.i2cWsda b))
  | .i2cRsda => writeOf p .i2cmCmd (encodeWord .i2cRsda)

/-- The bus address of a flash-window read; none for a command word. -/
def Instr.readAddr? : Instr → Option Word
  | .rdB a => some a
  | .rdH a => some a
  | .rdW a => some a
  | .i2cInit => none
  | .i2cStart => none
  | .i2cStop => none
  | .i2cSendb _ => none
  | .i2cRecvb => none
  | .i2cSack _ => none
  | .i2cRack => none
  | .i2cWscl _ => none
  | .i2cWsda _ => none
  | .i2cRsda => none
  | .flcUnlock => none
  | .flcLock => none
  | .flcErasep => none
  | .flcErasea => none
  | .flcProgh => none
  | .flcProgw => none

/-- The instruction's operand address, if it has one, is in the flash window: else it is no flash read at all (R211,
20_memory.md R84). -/
def Instr.inRegion (p : Params) (i : Instr) : Bool :=
  match i.readAddr? with
  | some a => inWindow p a.toNat
  | none => true

/-! ### The table's words -/

/-- A word of the table, without the register it is written to. DESIGN CHOICE (notes/assumptions/14.md): the table numbers
the same 32 bits for a command of either unit (R110: the unit is given by the register, not by the bits), so a word that
both decoders accept is read as the FLC's. -/
def decodeTableCommand (w : Word) : Option Instr :=
  match decodeFlc w with
  | .ok i => some i
  | .error _ =>
    match decodeI2cm w with
    | .ok i => some i
    | .error _ => none

/-- The instruction of a table row's bits. A command row has 32 bits, its word. A read row has no word: the table gives
`rd.w` 2 bits (one byte), `rd.b` 9 (two bytes) and `rd.h` 17 (three bytes), and `w` is then the bus address, whose
low bits must be the pattern's. DESIGN CHOICE (notes/assumptions/14.md). -/
def decodeTableWord (nbits w : Nat) : Option Instr :=
  if nbits = 32 then decodeTableCommand (BitVec.ofNat 32 w)
  else if nbits = 8 then (if w % 4 = 0 then some (.rdW (BitVec.ofNat 32 w)) else none)
  else if nbits = 16 then some (.rdB (BitVec.ofNat 32 w))
  else if nbits = 24 then (if w % 2 = 0 then some (.rdH (BitVec.ofNat 32 w)) else none)
  else none

end Sys2Proof
end

