-- ==== Sys2Proof/Machine/State.lean ====
section
/-! DEFINITION. The state of PERIPH (10_state.md), the state right after reset (70_reset_and_hazards.md), and the reasons a
step can stop. Plain data throughout: `true` is a released drive or a high level (00_scope.md R12), or a set flag. -/

namespace Sys2Proof.Machine

/-- Where a sample goes (40_bitio.md R140). -/
inductive SampleDst
  | raw
  | bit (i : Fin 8)
  | ackbit
  deriving DecidableEq, Repr

/-- The three micro-operations of the BitIO layer (40_bitio.md R140, R144, R145, R146). -/
inductive MicroOp
  | scl (b : Bool)
  | sda (b : Bool)
  | sample (dst : SampleDst)
  deriving DecidableEq, Repr

/-- The I2CM unit (10_state.md R37, R53). -/
structure I2cm where
  /-- Master drive of SCL, `true` released. -/
  sclO : Bool
  /-- Master drive of SDA, `true` released. -/
  sdaO : Bool
  /-- A command is executing. -/
  busy : Bool
  /-- Opcode of the executing command. -/
  curOp : BitVec 4
  /-- ARG byte of the executing command. -/
  curArg : Byte
  /-- Micro-step list of the executing command. -/
  steps : List MicroOp
  /-- Index of the next micro-step. -/
  k : Nat
  /-- Settle quantum latched at acceptance. -/
  dq : BitVec 17
  /-- Ticks until the next scheduled action or completion. -/
  waitCnt : Nat
  /-- Receive accumulator of RECV_BYTE; ack latch of RECV_ACK in bit 0. -/
  acc : Byte
  /-- Bus owned. -/
  owned : Bool
  /-- Last byte received. -/
  rxdata : Byte
  /-- Last SDA level sampled. -/
  sdaIn : Bool
  /-- Last acknowledge bit received. -/
  ack : Bool
  /-- Sticky: a RECV_ACK sampled 1. -/
  nackf : Bool
  /-- Sticky: a command word was invalid. -/
  cmderr : Bool
  /-- Sticky: a command was written while busy. -/
  busyerr : Bool
  /-- Sticky: a clock-low command was accepted with the clock released. -/
  seqerr : Bool
  /-- I2CM_DELAY.DLY, the settle delay in ticks. -/
  delay : BitVec 16
  deriving DecidableEq, Repr

/-- The FLC unit (10_state.md R56), less the flash array. -/
structure Flc where
  /-- Mutating commands are refused while set. Hidden (R58). -/
  locked : Bool
  /-- An erase or program is executing. -/
  busy : Bool
  /-- Opcode of the executing command. -/
  curOp : BitVec 4
  /-- FLC_ADDR latched at acceptance. -/
  curAddr : Word
  /-- FLC_DATA latched at acceptance. -/
  curData : Word
  /-- The program target was not erased at acceptance. -/
  pgFail : Bool
  /-- Ticks until completion. -/
  remaining : Nat
  /-- FLC_ADDR. -/
  addr : Word
  /-- FLC_DATA. -/
  data : Word
  /-- Sticky: an erase or program completed without error. -/
  eop : Bool
  /-- Sticky: a program target was not erased. -/
  pgerr : Bool
  /-- Sticky: a mutating command was written while locked. -/
  lockerr : Bool
  /-- Sticky: a command's address was misaligned or outside the window. -/
  addrerr : Bool
  /-- Sticky: a command word was invalid. -/
  cmderr : Bool
  /-- Sticky: a command was written while busy. -/
  busyerr : Bool
  deriving DecidableEq, Repr

/-- What the host got from its access of the last tick (10_state.md R30, 60_exceptions.md R276). -/
inductive HostResp
  | none                                 -- it made no access in the tick
  | written                              -- a write was performed
  | data (width : Width) (value : Word)  -- a read was performed; the value is zero-extended to 32 bits
  | stalled                              -- a flash read waits for the FLC (20_memory.md R96)
  | fault (c : BusFault)                 -- an error response: the access was not performed
  deriving DecidableEq, Repr

/-- The host at PERIPH's port. The model's own. -/
structure HostPort where
  /-- The accesses it has still to make, in its program order (10_state.md R30). -/
  prog : List HostOp
  /-- The answer to its last access. -/
  resp : HostResp
  /-- What it starts on after a reset: a reset is of the whole device, and no sequence in progress is resumed
  (70_reset_and_hazards.md R310, R317, 44_persistent_store.md R258; notes/assumptions/8.md). No step changes it. -/
  boot : List HostOp
  deriving DecidableEq, Repr

/-- The flash array's contents (R57): pairs of a bus byte address and a byte, in the canonical form `Memory.wf`. An address
that is not listed reads as `unlistedByte` (notes/assumptions/4.md). -/
abbrev Memory := List Host.Cell

/-- The whole machine. -/
structure State where
  /-- The OPEN parameters (00_scope.md R9). No step changes them. -/
  par : Params
  /-- The number of the next tick. The model's own. -/
  now : Nat
  /-- What the environment does in the next ticks (R34, R310). When the list is used up no reset comes and the peer's
  drives are free values. The model's own. -/
  env : List EnvTick
  /-- The peer's drive of SCL in the last tick (R32, R34). -/
  sclP : Bool
  /-- The peer's drive of SDA in the last tick (R32, R34). -/
  sdaP : Bool
  /-- The I2CM unit. -/
  i2cm : I2cm
  /-- The FLC unit. -/
  flc : Flc
  /-- The flash array. -/
  mem : Memory
  /-- The pages of the flash array that no erase has completed on: a byte of one that is not listed in `mem` is a free
  value (70_reset_and_hazards.md R315). -/
  unerased : List Nat
  /-- How many free bytes have been drawn (00_scope.md R13). The model's own. -/
  draws : Nat
  /-- The host's port. -/
  host : HostPort
  deriving DecidableEq, Repr

/-- Why the machine stops with a fault. -/
inductive Fault
  /-- `step` raises it in a state whose parameters break 00_scope.md R9 or 92_eei_decisions.md D2: such a state is no
  PERIPH. Safe. -/
  | badParameters
  deriving DecidableEq, Repr

/-- Why the machine refuses. -/
inductive Refusal
  /-- `exec` answers it for an instruction without a meaning. Safe. No arm of this model does. -/
  | notModelled (mnemonic : String)
  /-- The step of an access whose address is outside the two register blocks and the flash window, and the meanings of
  the flash reads on such an address, answer it: "not PERIPH's ... a model of PERIPH gives it no meaning (refused)"
  (20_memory.md R84). Safe. -/
  | outsidePeriph
  deriving DecidableEq, Repr

/-- The I2CM unit after reset (10_state.md R37, R55). -/
def I2cm.reset : I2cm where
  sclO := true
  sdaO := true
  busy := false
  curOp := 0
  curArg := 0
  steps := []
  k := 0
  dq := 1
  waitCnt := 0
  acc := 0
  owned := false
  rxdata := 0
  sdaIn := false
  ack := false
  nackf := false
  cmderr := false
  busyerr := false
  seqerr := false
  delay := Config.delayReset

/-- The FLC unit after reset (10_state.md R56, R73). -/
def Flc.reset : Flc where
  locked := true
  busy := false
  curOp := 0
  curAddr := 0
  curData := 0
  pgFail := false
  remaining := 0
  addr := 0
  data := 0
  eop := false
  pgerr := false
  lockerr := false
  addrerr := false
  cmderr := false
  busyerr := false

/-- The parameters of the machine `State.reset` describes: the illustrative values of 43_flash.md and 95_test_vectors.md,
and two block bases of the model's own. DESIGN CHOICE (notes/assumptions/1.md): the spec leaves every one OPEN. -/
def exampleParams : Params where
  i2cmBase := 0x40000000
  flcBase := 0x40000010
  flashBase := 0x08000000
  pageLog := 10
  numPages := 64
  erasedByte := 0xFF
  tErasePage := 200
  tEraseAll := 1000
  tProgHalf := 5
  tProgWord := 8
  tUnit := 1000

/-- The machine right after its first reset (70_reset_and_hazards.md R310, R311, R313, R315): both units at their reset
values, every byte of the flash array free, no host program, and nothing scheduled of the environment. -/
def State.reset : State where
  par := exampleParams
  now := 0
  env := []
  sclP := true
  sdaP := true
  i2cm := I2cm.reset
  flc := Flc.reset
  mem := []
  unerased := List.range exampleParams.numPages
  draws := 0
  host := { prog := [], resp := .none, boot := [] }

end Sys2Proof.Machine
end

