-- ==== Sys2Proof/Machine/Flags.lean ====
section
/-! DEFINITION. The status registers as views of the state (10_state.md R41, R63), the data and delay registers (R52, R53),
and the write-1-to-clear rule (R51, R71). -/

namespace Sys2Proof.Machine

/-- A field of one bit at position `n` of a register. -/
def flagBit (b : Bool) (n : Nat) : Word := if b then BitVec.ofNat 32 (2 ^ n) else 0

/-- What a read of I2CM_STAT returns (R41). -/
def i2cmStat (m : I2cm) : Word :=
  flagBit m.busy 0 ||| flagBit m.sclO 1 ||| flagBit m.sdaO 2 ||| flagBit m.sdaIn 3 ||| flagBit m.ack 4
    ||| flagBit m.owned 5 ||| flagBit m.nackf 8 ||| flagBit m.cmderr 9 ||| flagBit m.busyerr 10 ||| flagBit m.seqerr 11

/-- What a read of FLC_STAT returns (R63). The lock is not in it (R58). -/
def flcStat (f : Flc) : Word :=
  flagBit f.busy 0 ||| flagBit f.eop 2 ||| flagBit f.pgerr 8 ||| flagBit f.lockerr 9 ||| flagBit f.addrerr 10
    ||| flagBit f.cmderr 11 ||| flagBit f.busyerr 12

/-- What a read of I2CM_DATA returns: RXDATA in bits 7:0 (R52). -/
def i2cmData (m : I2cm) : Word := BitVec.ofNat 32 m.rxdata.toNat

/-- What a read of I2CM_DELAY returns: DLY in bits 15:0 (R53). -/
def i2cmDelay (m : I2cm) : Word := BitVec.ofNat 32 m.delay.toNat

/-- A write to I2CM_STAT clears each W1C flag whose bit is 1 (R51). -/
def i2cmClear (v : Word) (m : I2cm) : I2cm :=
  { m with
    nackf := m.nackf && !v.getLsbD 8
    cmderr := m.cmderr && !v.getLsbD 9
    busyerr := m.busyerr && !v.getLsbD 10
    seqerr := m.seqerr && !v.getLsbD 11 }

/-- A write to FLC_STAT clears each W1C flag whose bit is 1 (R71). -/
def flcClear (v : Word) (f : Flc) : Flc :=
  { f with
    eop := f.eop && !v.getLsbD 2
    pgerr := f.pgerr && !v.getLsbD 8
    lockerr := f.lockerr && !v.getLsbD 9
    addrerr := f.addrerr && !v.getLsbD 10
    cmderr := f.cmderr && !v.getLsbD 11
    busyerr := f.busyerr && !v.getLsbD 12 }

/-- A write to I2CM_DELAY sets DLY from bits 15:0 and ignores the rest (R53). -/
def i2cmSetDelay (v : Word) (m : I2cm) : I2cm := { m with delay := BitVec.ofNat 16 v.toNat }

/-- A write to FLC_ADDR (R61). -/
def flcSetAddr (v : Word) (f : Flc) : Flc := { f with addr := v }

/-- A write to FLC_DATA (R62). -/
def flcSetData (v : Word) (f : Flc) : Flc := { f with data := v }

end Sys2Proof.Machine
end

