-- ==== Sys2Proof/Machine/Operands.lean ====
section
/-! DEFINITION. The operands of the commands: the settle quantum an I2CM command latches (40_bitio.md R141), the addresses,
values and durations an FLC command latches (30_encoding.md R114, 43_flash.md R210), and the checks made of them
(60_exceptions.md R281). -/

namespace Sys2Proof.Machine

/-- `dq = max(delay, 1)` (40_bitio.md R141). -/
def dqOf (delay : BitVec 16) : BitVec 17 := if delay = 0 then 1 else BitVec.ofNat 17 delay.toNat

/-- The page that a byte address of the window lies in (43_flash.md R216). -/
def pageOf (p : Params) (a : Nat) : Nat := (a - p.flashBase) / p.pageSize

/-- The first byte of page `n` (20_memory.md R83). -/
def pageStart (p : Params) (n : Nat) : Nat := p.flashBase + n * p.pageSize

/-- ERASE_PAGE's address check: the first byte of a page of the window (60_exceptions.md R281). -/
def erasePageAddrOk (p : Params) (a : Nat) : Bool :=
  inWindow p a && (a - p.flashBase) % p.pageSize == 0

/-- PROG_HALF's address check: even, with both bytes in the window (R281). -/
def progHalfAddrOk (p : Params) (a : Nat) : Bool :=
  a % 2 == 0 && inWindow p a && inWindow p (a + 1)

/-- PROG_WORD's address check: a multiple of 4, with all four bytes in the window (R281). -/
def progWordAddrOk (p : Params) (a : Nat) : Bool :=
  a % 4 == 0 && inWindow p a && inWindow p (a + 1) && inWindow p (a + 2) && inWindow p (a + 3)

/-- The value PROG_HALF programs: DATA[15:0]; DATA[31:16] is ignored (10_state.md R62). -/
def progHalfValue (data : Word) : Nat := data.toNat % 65536

/-- The value PROG_WORD programs: DATA[31:0] (10_state.md R62). -/
def progWordValue (data : Word) : Nat := data.toNat

/-- The opcodes of R115 and R116, as `cur_op` holds them. -/
def opInit : BitVec 4 := 0x1
def opStart : BitVec 4 := 0x2
def opStop : BitVec 4 := 0x3
def opSendByte : BitVec 4 := 0x4
def opRecvByte : BitVec 4 := 0x5
def opSendAck : BitVec 4 := 0x6
def opRecvAck : BitVec 4 := 0x7
def opWriteScl : BitVec 4 := 0x8
def opWriteSda : BitVec 4 := 0x9
def opReadSda : BitVec 4 := 0xA
def opErasePage : BitVec 4 := 0x3
def opEraseAll : BitVec 4 := 0x4
def opProgHalf : BitVec 4 := 0x5
def opProgWord : BitVec 4 := 0x6

/-- The ARG byte of a command whose argument is one bit (30_encoding.md R113). -/
def bitArg (b : Bool) : Byte := if b then 1 else 0

end Sys2Proof.Machine
end

