-- ==== Sys2Proof/Machine/Ops.lean ====
section
/-! DEFINITION. The operations every meaning is made of: the flash array (20_memory.md R86), the free draws (00_scope.md
R13), the micro-operations (40_bitio.md R144, R145, R146), issuing a command to a unit (60_exceptions.md R280, R281), the
answer to the host, and taking a bus fault (R276), PERIPH's only exception; there is no return from one (R285). -/

namespace Sys2Proof.Machine

/-! ### The flash array -/

/-- The byte at an address that is not listed (notes/assumptions/4.md): on a page of the window that no erase has reached,
a free value (70_reset_and_hazards.md R315); elsewhere `ERASED_BYTE`. -/
def unlistedByte (p : Params) (unerased : List Nat) (a : Nat) : Byte :=
  if inWindow p a && unerased.contains (pageOf p a) then Config.flashInit a else p.erasedByte

/-- The byte at an address; an address `a` not listed reads as `d a`. -/
def memGet (d : Nat → Byte) : Memory → Nat → Byte
  | [], a => d a
  | (k, v) :: rest, a => if a = k then v else memGet d rest a

/-- The array with one byte written, in canonical form: writing `d a` at `a` takes the entry out. -/
def memSet (d : Nat → Byte) : Memory → Nat → Byte → Memory
  | [], a, v => if v = d a then [] else [(a, v)]
  | (k, x) :: rest, a, v =>
    if a < k then (if v = d a then (k, x) :: rest else (a, v) :: (k, x) :: rest)
    else if a = k then (if v = d a then rest else (a, v) :: rest)
    else (k, x) :: memSet d rest a v

/-- The array with none of the `n` bytes at `lo` listed. -/
def memErase (lo n : Nat) (m : Memory) : Memory :=
  m.filter fun c => !(decide (lo ≤ c.1) && decide (c.1 < lo + n))

/-- The unerased pages, less those that begin in the `n` bytes at `lo`. -/
def pagesErase (p : Params) (lo n : Nat) (unerased : List Nat) : List Nat :=
  unerased.filter fun i => !(decide (lo ≤ pageStart p i) && decide (pageStart p i < lo + n))

/-- `MemWrite(a, n, v)`: the n bytes of `v`, little-endian (20_memory.md R86). -/
def memWrite (d : Nat → Byte) : Nat → Nat → Nat → Memory → Memory
  | 0, _, _, m => m
  | n + 1, a, v, m => memWrite d n (a + 1) (v / 256) (memSet d m a (BitVec.ofNat 8 v))

/-- `MemRead(a, n)`: n bytes, little-endian (20_memory.md R86). -/
def memRead (d : Nat → Byte) (m : Memory) : Nat → Nat → Nat
  | 0, _ => 0
  | n + 1, a => (memGet d m a).toNat + 256 * memRead d m n (a + 1)

/-- `erased(a, n)`: each of the n bytes at `a` is `e`, the `ERASED_BYTE` (43_flash.md R220). -/
def erased (e : Byte) (d : Nat → Byte) (m : Memory) : Nat → Nat → Bool
  | 0, _ => true
  | n + 1, a => memGet d m a == e && erased e d m n (a + 1)

/-- A draw into each of the `n` bytes at `a`, the first of them draw number `c` (00_scope.md R13). -/
def memDraw (d : Nat → Byte) : Nat → Nat → Nat → Memory → Memory
  | 0, _, _, m => m
  | n + 1, a, c, m => memDraw d n (a + 1) (c + 1) (memSet d m a (Config.draw c))

/-- The canonical form: addresses strictly rising, and no entry that equals what an unlisted address reads as. -/
def Memory.wf (d : Nat → Byte) (m : Memory) : Bool :=
  match m with
  | [] => true
  | (k, v) :: rest =>
    v != d k && (match rest with | [] => true | (k', _) :: _ => decide (k < k')) && Memory.wf d rest

/-- What each unlisted address of the machine's flash array reads as. -/
def State.unlisted (s : State) (a : Nat) : Byte := unlistedByte s.par s.unerased a

/-- The byte of the flash array at a bus address (10_state.md R57). -/
def State.byteAt (s : State) (a : Nat) : Byte := memGet s.unlisted s.mem a

/-- `MemRead(a, n)` of the machine's flash array (20_memory.md R86). -/
def State.readBytes (s : State) (n a : Nat) : Nat := memRead s.unlisted s.mem n a

/-- `erased(a, n)` of the machine's flash array (43_flash.md R220). -/
def State.erasedAt (s : State) (n a : Nat) : Bool := erased s.par.erasedByte s.unlisted s.mem n a

/-- The state with `ERASED_BYTE` in the `n` bytes at `lo`, which are whole pages. -/
def State.eraseRange (s : State) (lo n : Nat) : State :=
  { s with mem := memErase lo n s.mem, unerased := pagesErase s.par lo n s.unerased }

/-- The state with the n bytes of `v` at `a`. -/
def State.writeFlash (s : State) (n a v : Nat) : State := { s with mem := memWrite s.unlisted n a v s.mem }

/-- The state with a draw in each of the `n` bytes at `a`. -/
def State.drawRange (s : State) (n a : Nat) : State :=
  { s with mem := memDraw s.unlisted n a s.draws s.mem, draws := s.draws + n }

/-! ### The environment and the lines -/

/-- What the environment does in the j-th tick from now (10_state.md R34). -/
def State.envAt (s : State) (j : Nat) : EnvTick :=
  match s.env[j]? with
  | some e => e
  | none => { reset := false, sclP := Config.peerScl (s.now + j), sdaP := Config.peerSda (s.now + j) }

/-- The level of SCL: the wired-AND of the two drives (10_state.md R33). -/
def State.sclLine (s : State) : Bool := s.i2cm.sclO && s.sclP

/-- The level of SDA: the wired-AND of the two drives (10_state.md R33). -/
def State.sdaLine (s : State) : Bool := s.i2cm.sdaO && s.sdaP

/-- A START condition between two ticks: SDA falls while SCL is high at both (41_i2c_protocol.md R169). -/
def startCondition (before after : State) : Bool :=
  before.sclLine && after.sclLine && before.sdaLine && !after.sdaLine

/-- A STOP condition between two ticks: SDA rises while SCL is high at both (R169). -/
def stopCondition (before after : State) : Bool :=
  before.sclLine && after.sclLine && !before.sdaLine && after.sdaLine

/-! ### Micro-operations -/

/-- The accumulator after a sample of `s` into `dst` (40_bitio.md R146). -/
def sampleAcc (dst : SampleDst) (s : Bool) (acc : Byte) : Byte :=
  match dst with
  | .raw => acc
  | .bit i => if s then acc ||| BitVec.ofNat 8 (2 ^ i.val) else acc
  | .ackbit => (acc &&& 0xFE) ||| (if s then 1 else 0)

/-- One micro-operation, with the peer's SDA drive of the tick (40_bitio.md R144, R145, R146). -/
def perform (sdaP : Bool) (op : MicroOp) (m : I2cm) : I2cm :=
  match op with
  | .scl b => { m with sclO := b }
  | .sda b => { m with sdaO := b }
  | .sample dst => { m with sdaIn := m.sdaO && sdaP, acc := sampleAcc dst (m.sdaO && sdaP) m.acc }

/-! ### The answer to the host -/

/-- The state with the host's answer. -/
def State.respond (s : State) (r : HostResp) : State := { s with host := { s.host with resp := r } }

/-- The number of a bus fault (60_exceptions.md R274): 1 BF_WIDTH, 2 BF_ALIGN, 3 BF_RO. -/
def busFaultCode (c : BusFault) : Nat :=
  match c with
  | .width => 1
  | .align => 2
  | .readOnly => 3

/-- The bus-fault code that an answer carries to the host (R274); none for an access that was performed, or stalls. -/
def faultCodeOf (r : HostResp) : Option Nat :=
  match r with
  | .fault c => some (busFaultCode c)
  | .none => none
  | .written => none
  | .data _ _ => none
  | .stalled => none

/-- Taking a bus fault (60_exceptions.md R276): the access is not performed, no PERIPH state changes, and the host gets an
error response. What the host then does is `Config.hostBusError`. -/
def takeBusFault (c : BusFault) (s : State) : State := s.respond (.fault c)

/-- The state with another I2CM unit. -/
def State.setI2cm (s : State) (m : I2cm) : State := { s with i2cm := m }

/-- The state with another FLC unit. -/
def State.setFlc (s : State) (f : Flc) : State := { s with flc := f }

/-! ### Issuing a command -/

/-- Acceptance of an I2CM command (40_bitio.md R141). `clockLow` says that the command's precondition is a low clock. -/
def acceptI2cm (op : BitVec 4) (arg : Byte) (steps : List MicroOp) (clockLow : Bool) (m : I2cm) : I2cm :=
  { m with
    curOp := op
    curArg := arg
    steps := steps
    k := 0
    dq := dqOf m.delay
    acc := 0
    waitCnt := 1
    busy := true
    seqerr := m.seqerr || (clockLow && m.sclO) }

/-- The write of a valid word to I2CM_CMD (60_exceptions.md R280): BUSYERR while busy, else acceptance. -/
def issueI2cm (op : BitVec 4) (arg : Byte) (steps : List MicroOp) (clockLow : Bool) (s : State) : State :=
  (s.setI2cm (if s.i2cm.busy then { s.i2cm with busyerr := true } else acceptI2cm op arg steps clockLow s.i2cm)).respond
    .written

/-- The write of an invalid word to I2CM_CMD (R280): BUSYERR while busy, else CMDERR. -/
def rejectI2cm (s : State) : State :=
  (s.setI2cm (if s.i2cm.busy then { s.i2cm with busyerr := true } else { s.i2cm with cmderr := true })).respond .written

/-- Acceptance of an erase or program (43_flash.md R210). -/
def acceptFlc (op : BitVec 4) (pgFail : Bool) (t : Nat) (f : Flc) : Flc :=
  { f with curOp := op, curAddr := f.addr, curData := f.data, pgFail := pgFail, remaining := t, busy := true }

/-- The write of a mutating command to FLC_CMD (60_exceptions.md R281): BUSYERR while busy, else LOCKERR while locked, else
ADDRERR if its address is refused, else acceptance. -/
def issueFlc (op : BitVec 4) (addrOk pgFail : Bool) (t : Nat) (s : State) : State :=
  (s.setFlc
      (if s.flc.busy then { s.flc with busyerr := true }
        else if s.flc.locked then { s.flc with lockerr := true }
        else if addrOk then acceptFlc op pgFail t s.flc
        else { s.flc with addrerr := true })).respond
    .written

/-- The write of UNLOCK or LOCK to FLC_CMD (43_flash.md R214, R215): BUSYERR while busy, else at once. -/
def issueLock (lock : Bool) (s : State) : State :=
  (s.setFlc (if s.flc.busy then { s.flc with busyerr := true } else { s.flc with locked := lock })).respond .written

/-- The write of an invalid word to FLC_CMD (R281): BUSYERR while busy, else CMDERR. -/
def rejectFlc (s : State) : State :=
  (s.setFlc (if s.flc.busy then { s.flc with busyerr := true } else { s.flc with cmderr := true })).respond .written

/-- A read of the flash window of `n` bytes (43_flash.md R211, R212, R213): outside the window it is no flash read (20_memory.md
R84); misaligned it is a bus fault at once (60_exceptions.md R275); while the FLC is busy it stalls (20_memory.md R96). -/
def readFlash (w : Width) (n : Nat) (a : Word) (s : State) : Host.Outcome State Fault Refusal :=
  if inWindow s.par a.toNat then
    if a.toNat % n = 0 then
      if s.flc.busy then .next (s.respond .stalled)
      else .next (s.respond (.data w (BitVec.ofNat 32 (s.readBytes n a.toNat))))
    else .next (takeBusFault .align s)
  else .refused .outsidePeriph

end Sys2Proof.Machine
end

