-- ==== Sys2Proof/Machine/BitIo.lean ====
section
/-! DEFINITION. The raw BitIO commands WRITE_SCL, WRITE_SDA, READ_SDA (40_bitio.md R148, R149, R150). Each has its micro-step
list and its meaning; none has a completion effect. -/

namespace Sys2Proof.Machine

/-- WRITE_SCL b: `[SCL(b)]` (R148). -/
def stepsWriteScl (b : Bool) : List MicroOp := [.scl b]

/-- WRITE_SDA b: `[SDA(b)]` (R149). -/
def stepsWriteSda (b : Bool) : List MicroOp := [.sda b]

/-- READ_SDA: `[SAMPLE(RAW)]` (R150). -/
def stepsReadSda : List MicroOp := [.sample .raw]

/-- `i2c.wscl b` (R148). -/
def execI2cWscl (b : Bool) (s : State) : Host.Outcome State Fault Refusal :=
  .next (issueI2cm opWriteScl (bitArg b) (stepsWriteScl b) false s)

/-- `i2c.wsda b` (R149). -/
def execI2cWsda (b : Bool) (s : State) : Host.Outcome State Fault Refusal :=
  .next (issueI2cm opWriteSda (bitArg b) (stepsWriteSda b) false s)

/-- `i2c.rsda` (R150). -/
def execI2cRsda (s : State) : Host.Outcome State Fault Refusal :=
  .next (issueI2cm opReadSda 0 stepsReadSda false s)

end Sys2Proof.Machine
end

