-- ==== Sys2Proof/Machine/Flash.lean ====
section
/-! DEFINITION. The FLC commands UNLOCK, LOCK, ERASE_PAGE, ERASE_ALL, PROG_HALF, PROG_WORD and the flash reads RD_BYTE,
RD_HALF, RD_WORD (43_flash.md R211 to R219). A mutating command has the byte range it targets, its effect on the array at
completion, and its meaning, which is its acceptance (R210). -/

namespace Sys2Proof.Machine

/-! ### Targets and effects at completion -/

/-- The bytes ERASE_PAGE targets: the page of `cur_addr` (R216). -/
def targetErasePage (s : State) : Nat × Nat :=
  (pageStart s.par (pageOf s.par s.flc.curAddr.toNat), s.par.pageSize)

/-- The bytes ERASE_ALL targets: the flash window (R217). -/
def targetEraseAll (s : State) : Nat × Nat := (s.par.flashBase, s.par.flashSize)

/-- The bytes PROG_HALF targets (R218). -/
def targetProgHalf (s : State) : Nat × Nat := (s.flc.curAddr.toNat, 2)

/-- The bytes PROG_WORD targets (R219). -/
def targetProgWord (s : State) : Nat × Nat := (s.flc.curAddr.toNat, 4)

/-- ERASE_PAGE: every byte of the page becomes `ERASED_BYTE` (R216). -/
def effectErasePage (s : State) : State := s.eraseRange (targetErasePage s).1 (targetErasePage s).2

/-- ERASE_ALL: every byte of the window becomes `ERASED_BYTE` (R217). -/
def effectEraseAll (s : State) : State := s.eraseRange (targetEraseAll s).1 (targetEraseAll s).2

/-- PROG_HALF: the halfword if the target was erased, else a draw in each of the two bytes (R218). -/
def effectProgHalf (s : State) : State :=
  if s.flc.pgFail then s.drawRange (targetProgHalf s).2 (targetProgHalf s).1
  else s.writeFlash (targetProgHalf s).2 (targetProgHalf s).1 (progHalfValue s.flc.curData)

/-- PROG_WORD: the word if the target was erased, else a draw in each of the four bytes (R219). -/
def effectProgWord (s : State) : State :=
  if s.flc.pgFail then s.drawRange (targetProgWord s).2 (targetProgWord s).1
  else s.writeFlash (targetProgWord s).2 (targetProgWord s).1 (progWordValue s.flc.curData)

/-! ### Meanings -/

/-- `flc.unlock` (R214). -/
def execFlcUnlock (s : State) : Host.Outcome State Fault Refusal := .next (issueLock false s)

/-- `flc.lock` (R215). -/
def execFlcLock (s : State) : Host.Outcome State Fault Refusal := .next (issueLock true s)

/-- `flc.erasep` (R216). -/
def execFlcErasep (s : State) : Host.Outcome State Fault Refusal :=
  .next (issueFlc opErasePage (erasePageAddrOk s.par s.flc.addr.toNat) false s.par.tErasePage s)

/-- `flc.erasea` (R217): it has no address to refuse. -/
def execFlcErasea (s : State) : Host.Outcome State Fault Refusal :=
  .next (issueFlc opEraseAll true false s.par.tEraseAll s)

/-- `flc.progh` (R218). -/
def execFlcProgh (s : State) : Host.Outcome State Fault Refusal :=
  .next (issueFlc opProgHalf (progHalfAddrOk s.par s.flc.addr.toNat)
    (!s.erasedAt 2 s.flc.addr.toNat) s.par.tProgHalf s)

/-- `flc.progw` (R219). -/
def execFlcProgw (s : State) : Host.Outcome State Fault Refusal :=
  .next (issueFlc opProgWord (progWordAddrOk s.par s.flc.addr.toNat)
    (!s.erasedAt 4 s.flc.addr.toNat) s.par.tProgWord s)

/-- `rd.b a` (R211). -/
def execRdB (a : Word) (s : State) : Host.Outcome State Fault Refusal := readFlash .w8 1 a s

/-- `rd.h a` (R212). -/
def execRdH (a : Word) (s : State) : Host.Outcome State Fault Refusal := readFlash .w16 2 a s

/-- `rd.w a` (R213). -/
def execRdW (a : Word) (s : State) : Host.Outcome State Fault Refusal := readFlash .w32 4 a s

end Sys2Proof.Machine
end

