-- ==== Sys2Proof/Machine/I2cBus.lean ====
section
/-! DEFINITION. The protocol commands INIT, START, STOP, SEND_BYTE, RECV_BYTE, SEND_ACK, RECV_ACK (41_i2c_protocol.md R161 to
R167): each has its micro-step list, its completion effect where the rule gives one, and its meaning. -/

namespace Sys2Proof.Machine

/-- INIT: `[SCL(1), SDA(1)]` (R161). -/
def stepsInit : List MicroOp := [.scl true, .sda true]

/-- START: `[SDA(1), SCL(1), SDA(0), SCL(0)]` (R162). -/
def stepsStart : List MicroOp := [.sda true, .scl true, .sda false, .scl false]

/-- STOP: `[SDA(0), SCL(1), SDA(1)]` (R163). -/
def stepsStop : List MicroOp := [.sda false, .scl true, .sda true]

/-- SEND_BYTE: for i = 7 downto 0, `[SDA(byte[i]), SCL(1), SCL(0)]` (R164). -/
def stepsSendByte (byte : Byte) : List MicroOp :=
  [7, 6, 5, 4, 3, 2, 1, 0].flatMap fun i => [.sda (byte.getLsbD i), .scl true, .scl false]

/-- RECV_BYTE: `[SDA(1)]`, then for i = 7 downto 0, `[SCL(1), SAMPLE(BIT(i)), SCL(0)]` (R165). -/
def stepsRecvByte : List MicroOp :=
  .sda true :: ([7, 6, 5, 4, 3, 2, 1, 0] : List (Fin 8)).flatMap fun i => [.scl true, .sample (.bit i), .scl false]

/-- SEND_ACK: `[SDA(a), SCL(1), SCL(0)]` (R166). -/
def stepsSendAck (a : Bool) : List MicroOp := [.sda a, .scl true, .scl false]

/-- RECV_ACK: `[SDA(1), SCL(1), SAMPLE(ACKBIT), SCL(0)]` (R167). -/
def stepsRecvAck : List MicroOp := [.sda true, .scl true, .sample .ackbit, .scl false]

/-- INIT's completion: `owned <- 0` (R161). -/
def completeInit (m : I2cm) : I2cm := { m with owned := false }

/-- START's completion: `owned <- 1` (R162). -/
def completeStart (m : I2cm) : I2cm := { m with owned := true }

/-- STOP's completion: `owned <- 0` (R163). -/
def completeStop (m : I2cm) : I2cm := { m with owned := false }

/-- RECV_BYTE's completion: `rxdata <- acc` (R165). -/
def completeRecvByte (m : I2cm) : I2cm := { m with rxdata := m.acc }

/-- RECV_ACK's completion: `ack <- acc[0]`, and NACKF if it is 1 (R167). -/
def completeRecvAck (m : I2cm) : I2cm :=
  { m with ack := m.acc.getLsbD 0, nackf := m.nackf || m.acc.getLsbD 0 }

/-- `i2c.init` (R161). -/
def execI2cInit (s : State) : Host.Outcome State Fault Refusal :=
  .next (issueI2cm opInit 0 stepsInit false s)

/-- `i2c.start` (R162): no precondition, so SEQERR is never set. -/
def execI2cStart (s : State) : Host.Outcome State Fault Refusal :=
  .next (issueI2cm opStart 0 stepsStart false s)

/-- `i2c.stop` (R163). -/
def execI2cStop (s : State) : Host.Outcome State Fault Refusal :=
  .next (issueI2cm opStop 0 stepsStop true s)

/-- `i2c.sendb byte` (R164). -/
def execI2cSendb (byte : Byte) (s : State) : Host.Outcome State Fault Refusal :=
  .next (issueI2cm opSendByte byte (stepsSendByte byte) true s)

/-- `i2c.recvb` (R165). -/
def execI2cRecvb (s : State) : Host.Outcome State Fault Refusal :=
  .next (issueI2cm opRecvByte 0 stepsRecvByte true s)

/-- `i2c.sack a` (R166). -/
def execI2cSack (a : Bool) (s : State) : Host.Outcome State Fault Refusal :=
  .next (issueI2cm opSendAck (bitArg a) (stepsSendAck a) true s)

/-- `i2c.rack` (R167). -/
def execI2cRack (s : State) : Host.Outcome State Fault Refusal :=
  .next (issueI2cm opRecvAck 0 stepsRecvAck true s)

end Sys2Proof.Machine
end

