-- ==== Sys2Proof/Machine/Dispatch.lean ====
section
/-! DEFINITION. One arm per instruction: the host issues it in its turn of a tick (10_state.md R31 step 4). -/

namespace Sys2Proof.Machine

def exec (i : Instr) (s : State) : Host.Outcome State Fault Refusal :=
  match i with
  | .i2cInit => Sys2Proof.Machine.execI2cInit s
  | .i2cStart => Sys2Proof.Machine.execI2cStart s
  | .i2cStop => Sys2Proof.Machine.execI2cStop s
  | .i2cSendb byte => Sys2Proof.Machine.execI2cSendb byte s
  | .i2cRecvb => Sys2Proof.Machine.execI2cRecvb s
  | .i2cSack a => Sys2Proof.Machine.execI2cSack a s
  | .i2cRack => Sys2Proof.Machine.execI2cRack s
  | .i2cWscl b => Sys2Proof.Machine.execI2cWscl b s
  | .i2cWsda b => Sys2Proof.Machine.execI2cWsda b s
  | .i2cRsda => Sys2Proof.Machine.execI2cRsda s
  | .flcUnlock => Sys2Proof.Machine.execFlcUnlock s
  | .flcLock => Sys2Proof.Machine.execFlcLock s
  | .flcErasep => Sys2Proof.Machine.execFlcErasep s
  | .flcErasea => Sys2Proof.Machine.execFlcErasea s
  | .flcProgh => Sys2Proof.Machine.execFlcProgh s
  | .flcProgw => Sys2Proof.Machine.execFlcProgw s
  | .rdB a => Sys2Proof.Machine.execRdB a s
  | .rdH a => Sys2Proof.Machine.execRdH a s
  | .rdW a => Sys2Proof.Machine.execRdW a s

end Sys2Proof.Machine
end

