-- ==== Sys2Proof/Machine/Engine.lean ====
section
/-! DEFINITION. What the two units do in one tick, without the host: the I2CM sequencer (40_bitio.md R142), the FLC engine
(43_flash.md R221), and reset (70_reset_and_hazards.md R310 to R314). -/

namespace Sys2Proof.Machine

/-- `steps(op, arg)` (40_bitio.md R140): the micro-step list of each I2CM opcode; a reserved opcode is never accepted. -/
def microSteps (op : BitVec 4) (arg : Byte) : List MicroOp :=
  if op = opInit then stepsInit
  else if op = opStart then stepsStart
  else if op = opStop then stepsStop
  else if op = opSendByte then stepsSendByte arg
  else if op = opRecvByte then stepsRecvByte
  else if op = opSendAck then stepsSendAck (arg.getLsbD 0)
  else if op = opRecvAck then stepsRecvAck
  else if op = opWriteScl then stepsWriteScl (arg.getLsbD 0)
  else if op = opWriteSda then stepsWriteSda (arg.getLsbD 0)
  else if op = opReadSda then stepsReadSda
  else []

/-- `complete(cur_op)`: the completion effects of the command's own rule (R142). -/
def completeI2cm (m : I2cm) : I2cm :=
  if m.curOp = opInit then completeInit m
  else if m.curOp = opStart then completeStart m
  else if m.curOp = opStop then completeStop m
  else if m.curOp = opRecvByte then completeRecvByte m
  else if m.curOp = opRecvAck then completeRecvAck m
  else m

/-- The I2CM sequencer in one tick (R142), with the peer's SDA drive of the tick. -/
def i2cmTick (sdaP : Bool) (m : I2cm) : I2cm :=
  if m.busy then
    if m.waitCnt - 1 = 0 then
      match m.steps[m.k]? with
      | some op => { perform sdaP op m with k := m.k + 1, waitCnt := m.dq.toNat }
      | none => { completeI2cm m with busy := false, k := 0, waitCnt := 0 }
    else { m with waitCnt := m.waitCnt - 1 }
  else m

/-- The bytes the executing FLC command targets: the first and how many (R216 to R219). -/
def flcTarget (s : State) : Nat × Nat :=
  if s.flc.curOp = opErasePage then targetErasePage s
  else if s.flc.curOp = opEraseAll then targetEraseAll s
  else if s.flc.curOp = opProgHalf then targetProgHalf s
  else if s.flc.curOp = opProgWord then targetProgWord s
  else (0, 0)

/-- `effect(cur_op, cur_addr, cur_data, pg_fail)` (R221). -/
def flcEffect (s : State) : State :=
  if s.flc.curOp = opErasePage then effectErasePage s
  else if s.flc.curOp = opEraseAll then effectEraseAll s
  else if s.flc.curOp = opProgHalf then effectProgHalf s
  else if s.flc.curOp = opProgWord then effectProgWord s
  else s

/-- The FLC unit after the completion of its command (R221): PGERR if the target was not erased, else EOP. -/
def finishFlc (f : Flc) : Flc :=
  { f with busy := false, remaining := 0, pgerr := f.pgerr || f.pgFail, eop := f.eop || !f.pgFail }

/-- The FLC engine in one tick (R221). -/
def flcTick (s : State) : State :=
  if s.flc.busy then
    if s.flc.remaining - 1 = 0 then (flcEffect s).setFlc (finishFlc s.flc)
    else s.setFlc { s.flc with remaining := s.flc.remaining - 1 }
  else s

/-- Steps (2) and (3) of a tick (10_state.md R31): the peer sets its drives, then each busy unit acts. -/
def unitsTick (s : State) : State :=
  flcTick
    { s with
      now := s.now + 1
      env := s.env.tail
      sclP := (s.envAt 0).sclP
      sdaP := (s.envAt 0).sdaP
      i2cm := i2cmTick (s.envAt 0).sdaP s.i2cm }

/-- The flash array across a reset (70_reset_and_hazards.md R314): a draw in every byte that an executing command
targets. -/
def resetFlash (s : State) : State :=
  if s.flc.busy then s.drawRange (flcTarget s).2 (flcTarget s).1 else s

/-- A tick in which reset is asserted (R310): both units take their reset values, and nothing else happens in PERIPH. The
host, of the same device, makes no access in the tick (10_state.md R31) and starts again with its boot program: what it was
doing is not resumed (44_persistent_store.md R258; notes/assumptions/8.md). -/
def resetTick (s : State) : State :=
  { resetFlash s with
    now := s.now + 1
    env := s.env.tail
    i2cm := I2cm.reset
    flc := Flc.reset
    host := { s.host with prog := s.host.boot, resp := .none } }

end Sys2Proof.Machine
end

