-- ==== Sys2Proof/Machine/HostTurn.lean ====
section
/-! DEFINITION. The host's turn of a tick (10_state.md R31 step 4): at most one access, in program order (20_memory.md R99). -/

namespace Sys2Proof.Machine

/-- What a read of a register returns (10_state.md R40, R41, R52, R53, R60, R61, R62, R63). Reads have no side effect
(20_memory.md R95). -/
def regValue (r : Reg) (s : State) : Word :=
  match r with
  | .i2cmCmd => 0
  | .i2cmStat => i2cmStat s.i2cm
  | .i2cmData => i2cmData s.i2cm
  | .i2cmDelay => i2cmDelay s.i2cm
  | .flcCmd => 0
  | .flcAddr => s.flc.addr
  | .flcData => s.flc.data
  | .flcStat => flcStat s.flc

/-- A read of a register. -/
def readReg (r : Reg) (s : State) : State := s.respond (.data .w32 (regValue r s))

/-- A write to a register other than CMD (10_state.md R51, R52, R53, R61, R62, R71). I2CM_DATA ignores it. (A CMD write is
never decoded as one of these.) -/
def writeReg (r : Reg) (v : Word) (s : State) : State :=
  match r with
  | .i2cmCmd => s.respond .written
  | .i2cmStat => (s.setI2cm (i2cmClear v s.i2cm)).respond .written
  | .i2cmData => s.respond .written
  | .i2cmDelay => (s.setI2cm (i2cmSetDelay v s.i2cm)).respond .written
  | .flcCmd => s.respond .written
  | .flcAddr => (s.setFlc (flcSetAddr v s.flc)).respond .written
  | .flcData => (s.setFlc (flcSetData v s.flc)).respond .written
  | .flcStat => (s.setFlc (flcClear v s.flc)).respond .written

/-- An invalid word written to a unit's CMD register (60_exceptions.md R280, R281). -/
def rejectCommand (u : PeriphUnit) (s : State) : State :=
  match u with
  | .i2cm => rejectI2cm s
  | .flc => rejectFlc s

/-- One access, as it is decoded. -/
def performDecoded (d : Decoded) (s : State) : Host.Outcome State Fault Refusal :=
  match d with
  | .instr i => exec i s
  | .badCommand u _ => .next (rejectCommand u s)
  | .readReg r => .next (readReg r s)
  | .writeReg r v => .next (writeReg r v s)
  | .fault c => .next (takeBusFault c s)
  | .outside => .refused .outsidePeriph

/-- One access. -/
def performAccess (a : Access) (s : State) : Host.Outcome State Fault Refusal :=
  performDecoded (decodeAccess s.par a) s

/-- What the host has left to do after one line of its program (`line`, then `rest`) got its answer: a stalled access is
made again (20_memory.md R96), a poll goes on until its field matches (30_encoding.md R125), a bus fault leaves it to
HOST_BUS_ERROR (60_exceptions.md R276), and any other answer ends the line. -/
def progAfter (line : HostOp) (rest : List HostOp) (r : HostResp) : List HostOp :=
  match r with
  | .stalled => line :: rest
  | .fault c => Config.hostBusError c rest
  | .none => rest
  | .written => rest
  | .data _ v =>
    match line with
    | .poll _ mask want => if v &&& mask = want &&& mask then rest else line :: rest
    | .access _ => rest
    | .idle => rest

/-- The state with the host's program moved on by the answer it got. -/
def retire (line : HostOp) (rest : List HostOp) (s : State) : State :=
  { s with host := { s.host with prog := progAfter line rest s.host.resp } }

/-- The outcome of an access, with the host's program moved on. -/
def retireOutcome (line : HostOp) (rest : List HostOp) (o : Host.Outcome State Fault Refusal) :
    Host.Outcome State Fault Refusal :=
  match o with
  | .next s => .next (retire line rest s)
  | .fault r => .fault r
  | .refused r => .refused r

/-- The host's turn: nothing, one access, or one read of a poll. -/
def hostTurn (s : State) : Host.Outcome State Fault Refusal :=
  match s.host.prog with
  | [] => .next (s.respond .none)
  | .idle :: rest => .next (retire .idle rest (s.respond .none))
  | .access a :: rest => retireOutcome (.access a) rest (performAccess a s)
  | .poll addr mask want :: rest =>
    retireOutcome (.poll addr mask want) rest (performAccess (.read .w32 addr) s)

/-- One tick (10_state.md R31): reset and nothing else, or the units and then the host. -/
def tick (s : State) : Host.Outcome State Fault Refusal :=
  if (s.envAt 0).reset then .next (resetTick s) else hostTurn (unitsTick s)

/-- The access that issues the table word `w` (notes/assumptions/14.md): the write of a command word to its unit's CMD register, or
the flash-window read of a read row. A word that is no command goes to I2CM_CMD, where it is refused. -/
def tableAccess (p : Params) (nbits w : Nat) : Access :=
  match decodeTableWord nbits w with
  | some i => encode p i
  | none => writeOf p .i2cmCmd (BitVec.ofNat 32 w)

/-- The environment with no reset in its first tick. -/
def withoutReset (env : List EnvTick) : List EnvTick :=
  match env with
  | [] => []
  | e :: rest => { e with reset := false } :: rest

end Sys2Proof.Machine
end

