-- ==== Sys2Proof/WellFormed.lean ====
section
/-! DEFINITION. Which instructions and which parameters the spec admits. -/

namespace Sys2Proof

/-- The fixed bits of an instruction's table pattern: a 16-bit read is at an even address and a 32-bit read at a multiple
of 4 (20_memory.md R89). Every operand of a command word is in range by its type (30_encoding.md R124). A misaligned read
is still decoded and run: it raises BF_ALIGN (R90). -/
def Instr.wf : Instr → Bool
  | .rdH a => a.toNat % 2 == 0
  | .rdW a => a.toNat % 4 == 0
  | .i2cInit => true
  | .i2cStart => true
  | .i2cStop => true
  | .i2cSendb _ => true
  | .i2cRecvb => true
  | .i2cSack _ => true
  | .i2cRack => true
  | .i2cWscl _ => true
  | .i2cWsda _ => true
  | .i2cRsda => true
  | .flcUnlock => true
  | .flcLock => true
  | .flcErasep => true
  | .flcErasea => true
  | .flcProgh => true
  | .flcProgw => true
  | .rdB _ => true

/-- The constraints of 00_scope.md R9 and 92_eei_decisions.md D2, D18, D29 on the OPEN parameters: aligned bases, three
regions of the 32-bit bus (20_memory.md R80) that do not overlap, a page of a power of two and at least 1024 bytes, at
least one page, and durations of at least one tick. -/
structure Params.Ok (p : Params) : Prop where
  i2cmAligned : p.i2cmBase % 16 = 0
  flcAligned : p.flcBase % 16 = 0
  i2cmFits : p.i2cmBase + 16 ≤ 4294967296
  flcFits : p.flcBase + 16 ≤ 4294967296
  pageLower : 10 ≤ p.pageLog
  pageUpper : p.pageLog ≤ 32
  pages : 1 ≤ p.numPages
  flashAligned : p.flashBase % p.pageSize = 0
  flashFits : p.flashBase + p.flashSize ≤ 4294967296
  blocksApart : p.i2cmBase ≠ p.flcBase
  i2cmApart : p.i2cmBase + 16 ≤ p.flashBase ∨ p.flashBase + p.flashSize ≤ p.i2cmBase
  flcApart : p.flcBase + 16 ≤ p.flashBase ∨ p.flashBase + p.flashSize ≤ p.flcBase
  erasePagePos : 1 ≤ p.tErasePage
  eraseAllPos : 1 ≤ p.tEraseAll
  progHalfPos : 1 ≤ p.tProgHalf
  progWordPos : 1 ≤ p.tProgWord

/-- `Params.Ok` as a value the machine can test; `Params.ok_iff` (Laws/Params.lean) says it is `Params.Ok`. -/
def Params.ok (p : Params) : Bool :=
  p.i2cmBase % 16 == 0 && (p.flcBase % 16 == 0
    && (decide (p.i2cmBase + 16 ≤ 4294967296) && (decide (p.flcBase + 16 ≤ 4294967296)
    && (decide (10 ≤ p.pageLog) && (decide (p.pageLog ≤ 32) && (decide (1 ≤ p.numPages)
    && (p.flashBase % p.pageSize == 0 && (decide (p.flashBase + p.flashSize ≤ 4294967296)
    && (p.i2cmBase != p.flcBase
    && ((decide (p.i2cmBase + 16 ≤ p.flashBase) || decide (p.flashBase + p.flashSize ≤ p.i2cmBase))
    && ((decide (p.flcBase + 16 ≤ p.flashBase) || decide (p.flashBase + p.flashSize ≤ p.flcBase))
    && (decide (1 ≤ p.tErasePage) && (decide (1 ≤ p.tEraseAll)
    && (decide (1 ≤ p.tProgHalf) && decide (1 ≤ p.tProgWord)))))))))))))))

end Sys2Proof
end

