-- ==== Sys2Proof/Machine/Step.lean ====
section
/-! DEFINITION. The step: one tick (10_state.md R31). -/

namespace Sys2Proof.Machine

/-- One tick of a machine whose parameters are those of a PERIPH (00_scope.md R9). -/
def step (s : State) : Host.Outcome State Fault Refusal :=
  if s.par.ok then tick s else .fault .badParameters

/-- The state whose next host access issues the table word `w`, in a tick without reset. -/
def State.withFetchWord (s : State) (nbits w : Nat) : State :=
  { s with
    env := withoutReset s.env
    host := { s.host with prog := .access (tableAccess s.par nbits w) :: s.host.prog } }

end Sys2Proof.Machine
end

