-- ==== Sys2Proof/Machine/Routine.lean ====
section
/-! DEFINITION. Host routines: host software that branches on what it reads and returns a value (42_sensor_client.md,
44_persistent_store.md), run against PERIPH. A routine is the host's, no part of `State`; it makes one line of a host
program (30_encoding.md R125) at a time through `HostPort.prog`, and goes on from the answer. DESIGN CHOICE
(notes/assumptions/13.md). -/

namespace Sys2Proof.Machine

/-- A host routine that returns an `α`: it has returned, or it makes one line and goes on from the line's answer. -/
inductive Routine (α : Type)
  | done (a : α)
  | line (op : HostOp) (next : HostResp → Routine α)

/-- A host sequence, and then `r`. The sequence uses none of its answers. -/
def Routine.after {α : Type} (r : Routine α) : List HostOp → Routine α
  | [] => r
  | op :: rest => .line op fun _ => r.after rest

/-- The value of a read. An answer that is no read's has none; no read of a routine is given one (`runRoutine`). -/
def readValue (r : HostResp) : Word :=
  match r with
  | .data _ v => v
  | .none => 0
  | .written => 0
  | .stalled => 0
  | .fault _ => 0

/-- Where a run of a routine ends. -/
inductive RoutineEnd (α : Type)
  | returned (a : α) (s : State)                -- it ran to its end
  | running (s : State)                         -- the ticks given are used up
  | cut (s : State)                             -- a reset ended it; nothing resumes it (44_persistent_store.md R258)
  | busFault (c : BusFault) (s : State)         -- HOST_BUS_ERROR takes over (60_exceptions.md R276)
  | stopped                                     -- an access outside PERIPH (20_memory.md R84), or no PERIPH at all

/-- The state in which the host is about to make the line `op`. -/
def State.making (s : State) (op : HostOp) : State := { s with host := { s.host with prog := [op] } }

/-- At most `n` ticks of the host in a routine: in each the host makes the routine's present line, and the routine goes on
in the next tick if that ended the line; a stalled read and a poll that does not match are made again (20_memory.md R96,
30_encoding.md R125). -/
def runRoutine {α : Type} : Nat → Routine α → State → RoutineEnd α
  | _, .done a, s => .returned a s
  | 0, .line _ _, s => .running s
  | n + 1, .line op next, s =>
    match step (s.making op) with
    | .next t =>
      if (s.envAt 0).reset then .cut t
      else
        match t.host.resp with
        | .fault c => .busFault c t
        | .stalled => runRoutine n (.line op next) t
        | .none => runRoutine n (next .none) t
        | .written => runRoutine n (next .written) t
        | .data w v =>
          if t.host.prog = [] then runRoutine n (next (.data w v)) t else runRoutine n (.line op next) t
    | .fault _ => .stopped
    | .refused _ => .stopped

end Sys2Proof.Machine
end

