-- ==== Sys2Proof/Machine/Sensor.lean ====
section
/-! DEFINITION. The sensor register client as reference host sequences (42_sensor_client.md R190 to R198): programs for
`HostPort.prog`. They are the host's software, not the block. -/

namespace Sys2Proof.Machine

/-- `addr_byte(a7, rw) = (a7 << 1) | rw`, `rw` 0 for write and 1 for read (41_i2c_protocol.md R174). -/
def addrByte (a7 : BitVec 7) (rw : Bool) : Byte := BitVec.ofNat 8 (2 * a7.toNat + rw.toNat)

/-- `wr REG, v` (30_encoding.md R125). -/
def wrReg (p : Params) (r : Reg) (v : Word) : HostOp := .access (writeOf p r v)

/-- `rd REG` (R125). -/
def rdReg (p : Params) (r : Reg) : HostOp := .access (readOf p r)

/-- A bare command (R125). -/
def command (p : Params) (i : Instr) : HostOp := .access (encode p i)

/-- `i2c.wait`: `poll I2CM_STAT.BUSY == 0` (30_encoding.md R126). -/
def i2cWait (p : Params) : HostOp := .poll (BitVec.ofNat 32 (Reg.i2cmStat.addr p)) 1 0

/-- `i2c.do X` (R126). -/
def i2cDo (p : Params) (i : Instr) : List HostOp := [command p i, i2cWait p]

/-- `i2c.do` of each command in turn. -/
def i2cDoAll (p : Params) (is : List Instr) : List HostOp := is.flatMap (i2cDo p)

/-- The commands of WriteRegister(address, data) (42_sensor_client.md R191). -/
def writeRegisterCommands (c : SensorConfig) (address data : Byte) : List Instr :=
  [.i2cStart, .i2cSendb (addrByte c.devAddr7 false), .i2cRack, .i2cSendb address, .i2cRack, .i2cSendb data, .i2cRack,
    .i2cStop]

/-- WriteRegister(address, data) (R191). -/
def writeRegister (p : Params) (c : SensorConfig) (address data : Byte) : List HostOp :=
  i2cDoAll p (writeRegisterCommands c address data)

/-- The commands of ReadRegister(address) (R192). The second START is repeated, and SEND_ACK 1 says "no more bytes". -/
def readRegisterCommands (c : SensorConfig) (address : Byte) : List Instr :=
  [.i2cStart, .i2cSendb (addrByte c.devAddr7 false), .i2cRack, .i2cSendb address, .i2cRack, .i2cStart,
    .i2cSendb (addrByte c.devAddr7 true), .i2cRack, .i2cRecvb, .i2cSack true, .i2cStop]

/-- ReadRegister(address) (R192): its last access returns the byte in bits 7:0. -/
def readRegister (p : Params) (c : SensorConfig) (address : Byte) : List HostOp :=
  i2cDoAll p (readRegisterCommands c address) ++ [rdReg p .i2cmData]

/-- The byte that `rd I2CM_DATA` answers (10_state.md R52). -/
def byteRead (r : HostResp) : Byte := BitVec.ofNat 8 (readValue r).toNat

/-- `data <- ReadRegister(address)`, and then `next data` (R192). -/
def withRegister {α : Type} (p : Params) (c : SensorConfig) (address : Byte) (next : Byte → Routine α) : Routine α :=
  (Routine.line (rdReg p .i2cmData) fun r => next (byteRead r)).after (i2cDoAll p (readRegisterCommands c address))

/-- Initialize() (R193, 70_reset_and_hazards.md R318): the order is normative. -/
def sensorInitialize (p : Params) (c : SensorConfig) : List HostOp :=
  i2cDo p .i2cInit
    ++ writeRegister p c c.regPwrMgmt1 c.cfgPwrMgmt1
    ++ writeRegister p c c.regPwrMgmt2 c.cfgPwrMgmt2
    ++ writeRegister p c c.regSmplrtDiv c.cfgSmplrtDiv
    ++ writeRegister p c c.regConfig c.cfgConfig
    ++ writeRegister p c c.regGyroConfig c.cfgGyroConfig
    ++ writeRegister p c c.regAccelConfig c.cfgAccelConfig

/-- GetIdentity() (R194). -/
def getIdentity (p : Params) (c : SensorConfig) : List HostOp := readRegister p c c.regWhoAmI

/-- The caller's check of the identity (R194). -/
def identityOk (c : SensorConfig) (v : Byte) : Bool := v == c.whoAmIValue

/-- The twelve reads of GetMotionSample() (R195): high then low byte of each axis. -/
def getMotionSample (p : Params) (c : SensorConfig) : List HostOp :=
  c.axisRegs.toList.flatMap fun r => readRegister p c r.1 ++ readRegister p c r.2

/-- `axis_value(hi, lo) = signed16((hi << 8) | lo)` (R196). -/
def axisValue (hi lo : Byte) : Int := signed16 (BitVec.ofNat 16 (256 * hi.toNat + lo.toNat))

/-- The six values of GetMotionSample() from its six pairs of bytes (R195). -/
def motionSample (pairs : Vector (Byte × Byte) 6) : Vector Int 6 := pairs.map fun r => axisValue r.1 r.2

/-- GetMotionSample() as a routine (R195): each axis from its high and its low byte, in order. -/
def readAxes (p : Params) (c : SensorConfig) : List (Byte × Byte) → List Int → Routine (List Int)
  | [], values => .done values
  | r :: rest, values =>
    withRegister p c r.1 fun hi => withRegister p c r.2 fun lo => readAxes p c rest (values ++ [axisValue hi lo])

/-- GetMotionSample() (R195): the six values, in the order of `SensorConfig.axisRegs`. -/
def getMotionSampleValues (p : Params) (c : SensorConfig) : Routine (List Int) := readAxes p c c.axisRegs.toList []

/-- The micro-steps of a list of I2CM commands: its busy time is this many `dq` (R191, R192). -/
def totalSteps (is : List Instr) : Nat :=
  (is.map fun i =>
    match i with
    | .i2cInit => stepsInit.length
    | .i2cStart => stepsStart.length
    | .i2cStop => stepsStop.length
    | .i2cSendb b => (stepsSendByte b).length
    | .i2cRecvb => stepsRecvByte.length
    | .i2cSack a => (stepsSendAck a).length
    | .i2cRack => stepsRecvAck.length
    | .i2cWscl b => (stepsWriteScl b).length
    | .i2cWsda b => (stepsWriteSda b).length
    | .i2cRsda => stepsReadSda.length
    | .flcUnlock => 0
    | .flcLock => 0
    | .flcErasep => 0
    | .flcErasea => 0
    | .flcProgh => 0
    | .flcProgw => 0
    | .rdB _ => 0
    | .rdH _ => 0
    | .rdW _ => 0).sum

end Sys2Proof.Machine
end

