-- ==== Sys2Proof/Machine/Store.lean ====
section
/-! DEFINITION. The Flash Access Layer and the persistent store as reference host sequences (43_flash.md R222, R224;
44_persistent_store.md R250 to R259): lists of host operations, and host routines over the store's mirror, which is host
memory, a buffer that each operation takes and returns (R251). -/

namespace Sys2Proof.Machine

/-- `flc.wait`: `poll FLC_STAT.BUSY == 0` (30_encoding.md R126). -/
def flcWait (p : Params) : HostOp := .poll (BitVec.ofNat 32 (Reg.flcStat.addr p)) 1 0

/-- `flc.guarded X` (30_encoding.md R126, 43_flash.md R222): unlock, X with its operand writes, wait, lock. -/
def flcGuarded (p : Params) (x : List HostOp) : List HostOp :=
  [command p .flcUnlock] ++ x ++ [flcWait p, command p .flcLock]

/-- `flc.erasep a` (R126). -/
def flcErasePageAt (p : Params) (a : Word) : List HostOp := [wrReg p .flcAddr a, command p .flcErasep]

/-- `flc.progh a, v` (R126). -/
def flcProgHalfAt (p : Params) (a : Word) (v : Half) : List HostOp :=
  [wrReg p .flcAddr a, wrReg p .flcData (BitVec.ofNat 32 v.toNat), command p .flcProgh]

/-- `flc.progw a, v` (R126). -/
def flcProgWordAt (p : Params) (a v : Word) : List HostOp :=
  [wrReg p .flcAddr a, wrReg p .flcData v, command p .flcProgw]

/-- ErasePage(p) (43_flash.md R224). -/
def erasePage (p : Params) (a : Word) : List HostOp := flcGuarded p (flcErasePageAt p a)

/-- EraseAllPages() (R224). -/
def eraseAllPages (p : Params) : List HostOp := flcGuarded p [command p .flcErasea]

/-- ProgramHalfWord(a, v) (R224). -/
def programHalfWord (p : Params) (a : Word) (v : Half) : List HostOp := flcGuarded p (flcProgHalfAt p a v)

/-- ProgramWord(a, v) (R224). -/
def programWord (p : Params) (a v : Word) : List HostOp := flcGuarded p (flcProgWordAt p a v)

/-- ReadByte(a) (R224). -/
def readByte (p : Params) (a : Word) : List HostOp := [command p (.rdB a)]

/-- ReadHalfWord(a) (R224). -/
def readHalfWord (p : Params) (a : Word) : List HostOp := [command p (.rdH a)]

/-- ReadWord(a) (R224). -/
def readWord (p : Params) (a : Word) : List HostOp := [command p (.rdW a)]

/-- The halfword that ReadHalfWord answers. -/
def halfRead (r : HostResp) : Half := BitVec.ofNat 16 (readValue r).toNat

/-- `STORE_BASE` is the start of a page of the flash window (44_persistent_store.md R250). -/
def storeBaseOk (p : Params) (base : Nat) : Bool := erasePageAddrOk p base

/-- Slot k is the halfword at `STORE_BASE + 2k` (R250). -/
def slotAddr (base k : Nat) : Word := BitVec.ofNat 32 (base + 2 * k)

/-- The mirror: 512 halfwords of host memory (R251). Its contents before Initialize are any. -/
abbrev Mirror := Vector Half 512

/-- SlotRead(k); an index outside 0..511 has no meaning (R256). -/
def slotRead (m : Mirror) (k : Nat) : Option Half := if h : k < 512 then some m[k] else none

/-- SlotWrite(k, v); an index outside 0..511 has no meaning (R256). -/
def slotWrite (m : Mirror) (k : Nat) (v : Half) : Option Mirror := if h : k < 512 then some (m.set k v) else none

/-- The page reads as initialised (R252). -/
def pageInitialized (slot0 : Half) : Bool := slot0 == Config.sentinel

/-- ProgramHalfWord of each listed value, from slot `k` on. -/
def programSlots (p : Params) (base : Nat) : Nat → List Half → List HostOp
  | _, [] => []
  | k, v :: rest => programHalfWord p (slotAddr base k) v ++ programSlots p base (k + 1) rest

/-- `mirror[k] <- rd.h (STORE_BASE + 2k)` for the `n` slots from `k` on (R253). The value read is copied whatever it is
(R259). -/
def storeLoad (p : Params) (base : Nat) : Nat → Nat → Mirror → Routine Mirror
  | _, 0, m => .done m
  | k, n + 1, m =>
    .line (command p (.rdH (slotAddr base k))) fun r => storeLoad p base (k + 1) n (m.setIfInBounds k (halfRead r))

/-- The first part of Initialize on a page without the sentinel (R253): erase, the sentinel, 511 zeros. -/
def storeFormat (p : Params) (base : Nat) : List HostOp :=
  erasePage p (slotAddr base 0) ++ programSlots p base 0 (Config.sentinel :: List.replicate (Config.nSlots - 1) 0)

/-- Initialize(mirror) (R253): it reads slot 0, formats the page if that is not the sentinel, and loads the mirror. No error
is reported (R259). -/
def storeInitialize (p : Params) (base : Nat) (m : Mirror) : Routine Mirror :=
  .line (command p (.rdH (slotAddr base 0))) fun r =>
    (storeLoad p base 0 Config.nSlots m).after (if pageInitialized (halfRead r) then [] else storeFormat p base)

/-- The accesses of Save (R254): erase, then the 512 slots from the mirror in rising order. -/
def storeWriteBack (p : Params) (base : Nat) (m : Mirror) : List HostOp :=
  erasePage p (slotAddr base 0) ++ programSlots p base 0 m.toList

/-- Save(mirror) (R254): the mirror is as it was. No error is reported (R259). -/
def storeSave (p : Params) (base : Nat) (m : Mirror) : Routine Mirror := (Routine.done m).after (storeWriteBack p base m)

/-- The mirror after Clear() (R255): slots 1..511 are zero, slot 0 is kept. -/
def clearedMirror (m : Mirror) : Mirror := Vector.ofFn fun k => if k.val = 0 then m[0] else 0

/-- Clear(mirror) (R255): zero the mirror's slots 1..511, then Save. -/
def storeClear (p : Params) (base : Nat) (m : Mirror) : Routine Mirror := storeSave p base (clearedMirror m)

/-- How many ticks a guarded command keeps the host, on an idle FLC: UNLOCK, its operand writes and itself (`n` accesses
together), its duration, LOCK (43_flash.md R222, 95_test_vectors.md P5). -/
def guardedTicks (n duration : Nat) : Nat := n + duration + 1

/-- The ticks of Save from an idle FLC: one guarded ERASE_PAGE and 512 guarded PROG_HALF (R260, 95_test_vectors.md P5). -/
def saveTicks (p : Params) : Nat := guardedTicks 3 p.tErasePage + Config.nSlots * guardedTicks 4 p.tProgHalf

end Sys2Proof.Machine
end

