-- ==== Sys2Proof/Machine/Timing.lean ====
section
/-! DEFINITION. The times of the commands (41_i2c_protocol.md R171, 43_flash.md R226, 70_reset_and_hazards.md R333, R334), in
ticks. -/

namespace Sys2Proof.Machine

/-- The tick in which a command of `n` micro-steps accepted in tick `t0` with quantum `dq` completes (40_bitio.md R142). -/
def completionTick (t0 n dq : Nat) : Nat := t0 + 1 + n * dq

/-- The tick in which its micro-step `k` is performed (R142). -/
def microStepTick (t0 k dq : Nat) : Nat := t0 + 1 + k * dq

/-- How many ticks BUSY reads 1 (40_bitio.md R143). -/
def i2cmBusyTicks (n dq : Nat) : Nat := n * dq

/-- The period of SCL inside SEND_BYTE and RECV_BYTE, in the unit of T_UNIT (R171). -/
def sclPeriod (p : Params) (dq : Nat) : Nat := 3 * dq * p.tUnit

/-- `T(cur_op)`: how long an FLC command keeps the unit busy (43_flash.md R210). -/
def flcDuration (p : Params) (op : BitVec 4) : Nat :=
  if op = opErasePage then p.tErasePage
  else if op = opEraseAll then p.tEraseAll
  else if op = opProgHalf then p.tProgHalf
  else if op = opProgWord then p.tProgWord
  else 0

end Sys2Proof.Machine
end

