-- ==== Sys2Proof/Safety.lean ====
section
/-! DEFINITION. What a good state is, and the terms the claims use: the invariants of the two units and of the flash
array, and runs of many ticks. -/

namespace Sys2Proof.Machine

/-- The opcodes that I2CM accepts (30_encoding.md R115). -/
def i2cmOpcode (op : BitVec 4) : Prop := 1 ≤ op.toNat ∧ op.toNat ≤ 10

/-- A good I2CM unit. While busy, the sequencer is inside the micro-step list of an accepted command, its countdown is
between 1 and the latched quantum (40_bitio.md R141, R142); while idle its position is 0. -/
structure I2cm.Good (m : I2cm) : Prop where
  opcode : m.busy = true → i2cmOpcode m.curOp
  steps : m.busy = true → m.steps = microSteps m.curOp m.curArg
  position : m.busy = true → m.k ≤ m.steps.length
  quantum : m.busy = true → 1 ≤ m.dq.toNat ∧ m.dq.toNat ≤ 65535
  countdown : m.busy = true → 1 ≤ m.waitCnt ∧ m.waitCnt ≤ m.dq.toNat
  idle : m.busy = false → m.k = 0 ∧ m.waitCnt = 0

/-- The address that an executing FLC command latched passed its command's check (60_exceptions.md R281). -/
def flcAddrOk (p : Params) (op : BitVec 4) (a : Nat) : Prop :=
  (op = opErasePage ∧ erasePageAddrOk p a = true) ∨ op = opEraseAll
    ∨ (op = opProgHalf ∧ progHalfAddrOk p a = true) ∨ (op = opProgWord ∧ progWordAddrOk p a = true)

/-- A good FLC unit. While busy it is unlocked (a LOCK is discarded then, 43_flash.md R215), its latched address passed the
check, its countdown is between 1 and the command's duration (R210, R221), and only a program can have found its target
not erased. -/
structure Flc.Good (p : Params) (f : Flc) : Prop where
  unlocked : f.busy = true → f.locked = false
  address : f.busy = true → flcAddrOk p f.curOp f.curAddr.toNat
  countdown : f.busy = true → 1 ≤ f.remaining ∧ f.remaining ≤ flcDuration p f.curOp
  failure : f.busy = true → f.pgFail = true → f.curOp = opProgHalf ∨ f.curOp = opProgWord
  idle : f.busy = false → f.remaining = 0

/-- Every listed address is in the flash window (20_memory.md R83). -/
def memInWindow (p : Params) (m : Memory) : Prop := ∀ c ∈ m, inWindow p c.1 = true

/-- The invariant of the machine. -/
structure State.Good (s : State) : Prop where
  params : s.par.ok = true
  i2cm : I2cm.Good s.i2cm
  flc : Flc.Good s.par s.flc
  memCanonical : Memory.wf s.unlisted s.mem = true
  memInside : memInWindow s.par s.mem
  unerasedSorted : s.unerased.Pairwise (· < ·)
  unerasedInside : ∀ i ∈ s.unerased, i < s.par.numPages

/-! ### Runs -/

/-- No reset in the next `n` ticks. -/
def State.noResetFor (s : State) (n : Nat) : Prop := ∀ j, j < n → (s.envAt j).reset = false

/-- `n` ticks lead from `s` to `t`. -/
def Runs (n : Nat) (s t : State) : Prop := Host.Core.run Sys2Proof.core n s = .next t

/-- The drives (SCL, SDA) after a list of micro-operations, from the drives before it. -/
def linesAfter : List MicroOp → Bool × Bool → Bool × Bool
  | [], l => l
  | .scl b :: rest, (_, sda) => linesAfter rest (b, sda)
  | .sda b :: rest, (scl, _) => linesAfter rest (scl, b)
  | .sample _ :: rest, l => linesAfter rest l

/-- An I2CM unit right after acceptance (40_bitio.md R141): busy, before its first micro-step, with a positive quantum. -/
structure I2cm.Fresh (m : I2cm) : Prop where
  busy : m.busy = true
  first : m.k = 0
  due : m.waitCnt = 1
  quantum : 1 ≤ m.dq.toNat

/-- "Whenever an idle I2CM accepts `i` and `n` quanta then pass without reset, the next action of the unit completes the
command, and `post q s t m` holds": `q` is the quantum it latched, `s` the machine after the acceptance, `t` the machine
after the `n * q` ticks, `m` the unit right after it completes (10_state.md R31 step 3). What the host does meanwhile is any. -/
def CompletesWith (i : Instr) (n : Nat) (post : Nat → State → State → I2cm → Prop) : Prop :=
  ∀ s₀ s₁ s t : State, s₀.i2cm.busy = false → exec i s₀ = .next s₁ → s.i2cm = s₁.i2cm →
    s.noResetFor (n * max s₀.i2cm.delay.toNat 1) → Runs (n * max s₀.i2cm.delay.toNat 1) s t →
    (unitsTick t).i2cm.busy = false ∧ post (max s₀.i2cm.delay.toNat 1) s t (unitsTick t).i2cm

/-- "Whenever an idle, unlocked FLC accepts `i`, whose address check is `ok` and whose duration is `dur`, and all but one
of its ticks then pass without reset, the next action of the unit completes the command, and `post s t u` holds": `s` is
the machine after the acceptance, `t` the machine one tick before the completion, `u` the machine right after it
(43_flash.md R221). What the host does meanwhile is any. -/
def FlcCompletesWith (i : Instr) (ok : State → Prop) (dur : Params → Nat) (post : State → State → State → Prop) : Prop :=
  ∀ s₀ s₁ s t : State, s₀.par.ok = true → s₀.flc.busy = false → s₀.flc.locked = false → ok s₀ →
    exec i s₀ = .next s₁ → s.par = s₁.par → s.flc = s₁.flc → s.mem = s₁.mem → s.unerased = s₁.unerased →
    Memory.wf s.unlisted s.mem = true → s.noResetFor (dur s.par - 1) → Runs (dur s.par - 1) s t →
    (unitsTick t).flc.busy = false ∧ post s t (unitsTick t)

/-- The sticky flags and the delay of `m`, an I2CM unit that has just completed a command other than RECV_ACK accepted in
machine `s`, one tick after machine `t`: the completion set no flag, and neither NACKF, CMDERR nor SEQERR was set while the
command ran (the host can then clear a flag, set BUSYERR and write the delay; 60_exceptions.md R280, R282). -/
structure FlagsKept (s t : State) (m : I2cm) : Prop where
  completion : m.nackf = t.i2cm.nackf ∧ m.cmderr = t.i2cm.cmderr ∧ m.busyerr = t.i2cm.busyerr ∧ m.seqerr = t.i2cm.seqerr
    ∧ m.delay = t.i2cm.delay
  nackf : m.nackf = true → s.i2cm.nackf = true
  cmderr : m.cmderr = true → s.i2cm.cmderr = true
  seqerr : m.seqerr = true → s.i2cm.seqerr = true

/-- What the host's next access is to PERIPH; none in a tick without an access. -/
def State.nextAccess (s : State) : Option Decoded :=
  match s.host.prog with
  | [] => none
  | .idle :: _ => none
  | .access a :: _ => some (decodeAccess s.par a)
  | .poll addr _ _ :: _ => some (decodeAccess s.par (.read .w32 addr))

/-- The halfword at an address of the flash array, little-endian (20_memory.md R86). -/
def State.halfAt (s : State) (a : Nat) : Half := s.byteAt (a + 1) ++ s.byteAt a

/-! ### The words of 30_encoding.md -/

/-- `valid_i2cm(w)` (R118). -/
def validI2cm (w : Word) : Prop :=
  w.extractLsb' 16 16 = 0 ∧ w.extractLsb' 4 4 = 0 ∧
    ((w.extractLsb' 0 4 ∈ [0x1#4, 0x2#4, 0x3#4, 0x5#4, 0x7#4, 0xA#4] ∧ w.extractLsb' 8 8 = 0)
      ∨ w.extractLsb' 0 4 = 0x4#4
      ∨ (w.extractLsb' 0 4 ∈ [0x6#4, 0x8#4, 0x9#4] ∧ w.extractLsb' 9 7 = 0))

/-- `valid_flc(w)` (R118). -/
def validFlc (w : Word) : Prop :=
  w.extractLsb' 4 28 = 0 ∧ w.extractLsb' 0 4 ∈ [0x1#4, 0x2#4, 0x3#4, 0x4#4, 0x5#4, 0x6#4]

/-- What a write of I2CM_CMD that is accepted leaves (40_bitio.md R141): opcode, argument and micro-step list latched, `dq =
max(delay, 1)`, and SEQERR as `seq` says. -/
def acceptedI2cm (op : BitVec 4) (arg : Byte) (steps : List MicroOp) (seq : Bool) (s : State) : State :=
  { s with
    i2cm := { s.i2cm with
      curOp := op, curArg := arg, steps := steps, k := 0, dq := BitVec.ofNat 17 (max s.i2cm.delay.toNat 1)
      acc := 0, waitCnt := 1, busy := true, seqerr := seq }
    host := { s.host with resp := .written } }

/-- What a write of FLC_CMD that is accepted leaves (43_flash.md R210): operands latched and the countdown started. -/
def acceptedFlc (op : BitVec 4) (pgFail : Bool) (t : Nat) (s : State) : State :=
  { s with
    flc := { s.flc with
      curOp := op, curAddr := s.flc.addr, curData := s.flc.data, pgFail := pgFail, remaining := t, busy := true }
    host := { s.host with resp := .written } }

/-- The bytes of an access (20_memory.md R89). -/
def widthBytes : Width → Nat
  | .w8 => 1
  | .w16 => 2
  | .w32 => 4

/-! ### Independence -/

/-- Two machines that differ at most in what the peer does, did and will do to SCL. -/
structure SameButScl (s s' : State) : Prop where
  par : s'.par = s.par
  now : s'.now = s.now
  env : s'.env.map (fun e => (e.reset, e.sdaP)) = s.env.map (fun e => (e.reset, e.sdaP))
  sdaP : s'.sdaP = s.sdaP
  i2cm : s'.i2cm = s.i2cm
  flc : s'.flc = s.flc
  mem : s'.mem = s.mem
  unerased : s'.unerased = s.unerased
  draws : s'.draws = s.draws
  host : s'.host = s.host

end Sys2Proof.Machine
end

