-- ==== Sys2Proof/Certificates/Slice0/Obligations.lean ====
section
/-! DEFINITION. The statements for the provers. Each docstring names the rules of spec/ it formalises. -/

open Sys2Proof Sys2Proof.Machine

/-! ### Encoding -/

/-- The access that issues an instruction decodes to that instruction, for every operand and every placement of the three
regions (R110 to R117). A misaligned flash read is included: it is decoded and raises BF_ALIGN. -/
def Obligations.DecodeOfEncodeIsTheInstruction : Prop :=
  ∀ (p : Params) (i : Instr), p.ok = true → i.inRegion p = true → decodeAccess p (encode p i) = .instr i

/-- A word that either unit's decoder accepts is the one word of the command it accepts it as (R111 to R116). -/
def Obligations.AcceptedWordIsTheWordOfItsCommand : Prop :=
  ∀ (w : Word) (i : Instr),
    (decodeI2cm w = .ok i → encodeWord i = w) ∧ (decodeFlc w = .ok i → encodeWord i = w)

/-- The words each unit accepts are exactly the valid words of R118. -/
def Obligations.DecodersAcceptExactlyTheValidWords : Prop :=
  ∀ w : Word,
    ((∃ i, decodeI2cm w = .ok i) ↔ validI2cm w) ∧ ((∃ i, decodeFlc w = .ok i) ↔ validFlc w)

/-- The examples of R127, both ways. -/
def Obligations.EncodingExamplesDecode : Prop :=
  encodeWord (.i2cSendb 0xD0) = 0x0000D004 ∧ decodeI2cm 0x0000D004 = .ok (.i2cSendb 0xD0)
    ∧ encodeWord (.i2cSack true) = 0x00000106 ∧ decodeI2cm 0x00000106 = .ok (.i2cSack true)
    ∧ encodeWord (.i2cWscl true) = 0x00000108 ∧ decodeI2cm 0x00000108 = .ok (.i2cWscl true)
    ∧ encodeWord (.i2cWsda false) = 0x00000009 ∧ decodeI2cm 0x00000009 = .ok (.i2cWsda false)
    ∧ decodeI2cm 0x00000204 = .ok (.i2cSendb 0x02)
    ∧ decodeI2cm 0x00000206 = .error .argNotTaken
    ∧ decodeI2cm 0x00010002 = .error .reservedBits
    ∧ decodeFlc 0x00000013 = .error .reservedBits

/-- A write of an invalid word to the CMD register of an idle unit sets CMDERR and changes nothing else of PERIPH (R48, R69).
That the host's write is acknowledged all the same is the model's choice (notes/assumptions/11.md). -/
def Obligations.InvalidWordSetsCmderrAndNothingElse : Prop :=
  ∀ (s : State) (w : Word), s.par.ok = true →
    (s.i2cm.busy = false → ¬ validI2cm w →
      performAccess (writeOf s.par .i2cmCmd w) s
        = .next { s with i2cm := { s.i2cm with cmderr := true }, host := { s.host with resp := .written } })
    ∧ (s.flc.busy = false → ¬ validFlc w →
      performAccess (writeOf s.par .flcCmd w) s
        = .next { s with flc := { s.flc with cmderr := true }, host := { s.host with resp := .written } })

/-- Any word written to the CMD register of a busy unit, valid or not, LOCK and UNLOCK included, sets BUSYERR and changes
nothing else of PERIPH (R49, R70). That the host's write is acknowledged all the same is the model's choice
(notes/assumptions/11.md). -/
def Obligations.BusyUnitDiscardsAnyWord : Prop :=
  ∀ (s : State) (w : Word), s.par.ok = true →
    (s.i2cm.busy = true →
      performAccess (writeOf s.par .i2cmCmd w) s
        = .next { s with i2cm := { s.i2cm with busyerr := true }, host := { s.host with resp := .written } })
    ∧ (s.flc.busy = true →
      performAccess (writeOf s.par .flcCmd w) s
        = .next { s with flc := { s.flc with busyerr := true }, host := { s.host with resp := .written } })

/-! ### I2CM: acceptance -/

/-- An idle I2CM accepts INIT, START, WRITE_SCL, WRITE_SDA and READ_SDA, with the micro-steps of their rules and SEQERR as
it was (R141, R148, R149, R150, R161, R162). Nothing else of the machine changes. -/
def Obligations.CommandsWithoutPreconditionAreAccepted : Prop :=
  ∀ s : State, s.i2cm.busy = false →
    exec .i2cInit s = .next (acceptedI2cm 0x1 0 [.scl true, .sda true] s.i2cm.seqerr s)
    ∧ exec .i2cStart s
        = .next (acceptedI2cm 0x2 0 [.sda true, .scl true, .sda false, .scl false] s.i2cm.seqerr s)
    ∧ (∀ b, exec (.i2cWscl b) s = .next (acceptedI2cm 0x8 (bitArg b) [.scl b] s.i2cm.seqerr s))
    ∧ (∀ b, exec (.i2cWsda b) s = .next (acceptedI2cm 0x9 (bitArg b) [.sda b] s.i2cm.seqerr s))
    ∧ exec .i2cRsda s = .next (acceptedI2cm 0xA 0 [.sample .raw] s.i2cm.seqerr s)

/-- An idle I2CM accepts STOP, SEND_BYTE, RECV_BYTE, SEND_ACK and RECV_ACK, with the micro-steps of their rules, and sets
SEQERR exactly if the clock is released (R50, R141, R163 to R167). Nothing else of the machine changes. -/
def Obligations.ClockLowCommandsAreAccepted : Prop :=
  ∀ s : State, s.i2cm.busy = false →
    exec .i2cStop s
        = .next (acceptedI2cm 0x3 0 [.sda false, .scl true, .sda true] (s.i2cm.seqerr || s.i2cm.sclO) s)
    ∧ (∀ b : Byte, exec (.i2cSendb b) s
        = .next (acceptedI2cm 0x4 b
          [.sda (b.getLsbD 7), .scl true, .scl false, .sda (b.getLsbD 6), .scl true, .scl false,
            .sda (b.getLsbD 5), .scl true, .scl false, .sda (b.getLsbD 4), .scl true, .scl false,
            .sda (b.getLsbD 3), .scl true, .scl false, .sda (b.getLsbD 2), .scl true, .scl false,
            .sda (b.getLsbD 1), .scl true, .scl false, .sda (b.getLsbD 0), .scl true, .scl false]
          (s.i2cm.seqerr || s.i2cm.sclO) s))
    ∧ exec .i2cRecvb s
        = .next (acceptedI2cm 0x5 0
          [.sda true, .scl true, .sample (.bit 7), .scl false, .scl true, .sample (.bit 6), .scl false,
            .scl true, .sample (.bit 5), .scl false, .scl true, .sample (.bit 4), .scl false,
            .scl true, .sample (.bit 3), .scl false, .scl true, .sample (.bit 2), .scl false,
            .scl true, .sample (.bit 1), .scl false, .scl true, .sample (.bit 0), .scl false]
          (s.i2cm.seqerr || s.i2cm.sclO) s)
    ∧ (∀ a, exec (.i2cSack a) s
        = .next (acceptedI2cm 0x6 (bitArg a) [.sda a, .scl true, .scl false] (s.i2cm.seqerr || s.i2cm.sclO) s))
    ∧ exec .i2cRack s
        = .next (acceptedI2cm 0x7 0 [.sda true, .scl true, .sample .ackbit, .scl false]
          (s.i2cm.seqerr || s.i2cm.sclO) s)

/-! ### I2CM: execution -/

/-- Micro-step j of an accepted command is performed `1 + j * dq` ticks after acceptance, and no other action falls before
micro-step j + 1: in the `dq` ticks from there the drives are what the first j + 1 micro-steps leave, whatever the host
does (R142, R147). -/
def Obligations.MicroStepsFallOneQuantumApart : Prop :=
  ∀ (s t : State) (j m : Nat), I2cm.Fresh s.i2cm → j < s.i2cm.steps.length →
    j * s.i2cm.dq.toNat ≤ m → m < (j + 1) * s.i2cm.dq.toNat → s.noResetFor (m + 1) → Runs (m + 1) s t →
    t.i2cm.busy = true ∧ t.i2cm.k = j + 1 ∧ t.i2cm.steps = s.i2cm.steps ∧ t.i2cm.dq = s.i2cm.dq
      ∧ (t.i2cm.sclO, t.i2cm.sdaO) = linesAfter (s.i2cm.steps.take (j + 1)) (s.i2cm.sclO, s.i2cm.sdaO)

/-- A command of N micro-steps keeps BUSY for exactly `N * dq` ticks: a host access `m + 1` ticks after acceptance sees
BUSY = 1 while `m < N * dq`, and 0 at `m = N * dq`, whatever the host did in between (R143). -/
def Obligations.BusyLastsNQuanta : Prop :=
  ∀ (s t : State) (m : Nat), I2cm.Fresh s.i2cm → m ≤ s.i2cm.steps.length * s.i2cm.dq.toNat →
    s.noResetFor m → Runs m s t →
    (unitsTick t).i2cm.busy = decide (m < s.i2cm.steps.length * s.i2cm.dq.toNat)

/-- INIT, START and STOP complete after 2, 4 and 3 quanta with the drives and OWNED of their rules; RXDATA, ACK and SDA_IN
are what they were at the acceptance, and the command set no flag (R161, R162, R163). -/
def Obligations.InitStartStopComplete : Prop :=
  CompletesWith .i2cInit 2 (fun _ s t m => m.sclO = true ∧ m.sdaO = true ∧ m.owned = false
    ∧ m.rxdata = s.i2cm.rxdata ∧ m.ack = s.i2cm.ack ∧ m.sdaIn = s.i2cm.sdaIn ∧ FlagsKept s t m)
  ∧ CompletesWith .i2cStart 4 (fun _ s t m => m.sclO = false ∧ m.sdaO = false ∧ m.owned = true
    ∧ m.rxdata = s.i2cm.rxdata ∧ m.ack = s.i2cm.ack ∧ m.sdaIn = s.i2cm.sdaIn ∧ FlagsKept s t m)
  ∧ CompletesWith .i2cStop 3 (fun _ s t m => m.sclO = true ∧ m.sdaO = true ∧ m.owned = false
    ∧ m.rxdata = s.i2cm.rxdata ∧ m.ack = s.i2cm.ack ∧ m.sdaIn = s.i2cm.sdaIn ∧ FlagsKept s t m)

/-- SEND_BYTE and SEND_ACK complete after 24 and 3 quanta with the clock low and SDA at the last bit; OWNED, RXDATA, ACK and
SDA_IN are what they were at the acceptance, and the command set no flag (R164, R166). -/
def Obligations.SendByteAndSendAckComplete : Prop :=
  (∀ b : Byte, CompletesWith (.i2cSendb b) 24 (fun _ s t m => m.sclO = false ∧ m.sdaO = b.getLsbD 0
    ∧ m.owned = s.i2cm.owned ∧ m.rxdata = s.i2cm.rxdata ∧ m.ack = s.i2cm.ack ∧ m.sdaIn = s.i2cm.sdaIn
    ∧ FlagsKept s t m))
  ∧ ∀ a : Bool, CompletesWith (.i2cSack a) 3 (fun _ s t m => m.sclO = false ∧ m.sdaO = a
    ∧ m.owned = s.i2cm.owned ∧ m.rxdata = s.i2cm.rxdata ∧ m.ack = s.i2cm.ack ∧ m.sdaIn = s.i2cm.sdaIn
    ∧ FlagsKept s t m)

/-- RECV_BYTE completes after 25 quanta: bit 7 - j of RXDATA is the peer's SDA drive in the tick of sample j, `1 + (3j + 2) *
dq` ticks after acceptance, for j = 0 to 7; SDA_IN is the last sample; the clock is low, SDA released, OWNED and ACK are
what they were at the acceptance, and the command set no flag (R165, R173). -/
def Obligations.RecvByteReturnsTheSampledByte : Prop :=
  CompletesWith .i2cRecvb 25 (fun q s t m =>
    (∀ j, j < 8 → m.rxdata.getLsbD (7 - j) = (s.envAt ((3 * j + 2) * q)).sdaP)
      ∧ m.sdaIn = (s.envAt (23 * q)).sdaP ∧ m.sclO = false ∧ m.sdaO = true
      ∧ m.owned = s.i2cm.owned ∧ m.ack = s.i2cm.ack ∧ FlagsKept s t m)

/-- RECV_ACK completes after 4 quanta: ACK is the peer's SDA drive in the tick of the sample, and NACKF is set if that is 1
and only then; the clock is low, SDA released, OWNED and RXDATA are what they were at the acceptance, and no other flag was
set (R45, R47, R167). -/
def Obligations.RecvAckRecordsTheAcknowledge : Prop :=
  CompletesWith .i2cRack 4 (fun q s t m =>
    m.ack = (s.envAt (2 * q)).sdaP ∧ m.nackf = (t.i2cm.nackf || (s.envAt (2 * q)).sdaP)
      ∧ m.sdaIn = (s.envAt (2 * q)).sdaP ∧ m.sclO = false ∧ m.sdaO = true
      ∧ m.owned = s.i2cm.owned ∧ m.rxdata = s.i2cm.rxdata ∧ FlagsKept s t { m with nackf := t.i2cm.nackf })

/-- The raw commands complete after one quantum: WRITE_SCL and WRITE_SDA set one drive, READ_SDA sets SDA_IN to the level of
SDA in the first tick, which is low if the master drives it low; the other drive, OWNED, RXDATA and ACK (and SDA_IN, under
the two writes) are what they were at the acceptance, and the command set no flag (R148, R149, R150). -/
def Obligations.RawCommandsComplete : Prop :=
  (∀ b : Bool, CompletesWith (.i2cWscl b) 1 (fun _ s t m => m.sclO = b ∧ m.sdaO = s.i2cm.sdaO
    ∧ m.owned = s.i2cm.owned ∧ m.rxdata = s.i2cm.rxdata ∧ m.ack = s.i2cm.ack ∧ m.sdaIn = s.i2cm.sdaIn
    ∧ FlagsKept s t m))
  ∧ (∀ b : Bool, CompletesWith (.i2cWsda b) 1 (fun _ s t m => m.sclO = s.i2cm.sclO ∧ m.sdaO = b
    ∧ m.owned = s.i2cm.owned ∧ m.rxdata = s.i2cm.rxdata ∧ m.ack = s.i2cm.ack ∧ m.sdaIn = s.i2cm.sdaIn
    ∧ FlagsKept s t m))
  ∧ CompletesWith .i2cRsda 1 (fun _ s t m => m.sdaIn = (s.i2cm.sdaO && (s.envAt 0).sdaP)
    ∧ m.sclO = s.i2cm.sclO ∧ m.sdaO = s.i2cm.sdaO ∧ m.owned = s.i2cm.owned ∧ m.rxdata = s.i2cm.rxdata
    ∧ m.ack = s.i2cm.ack ∧ FlagsKept s t m)

/-- The clock-low invariant: START, SEND_BYTE, RECV_BYTE, SEND_ACK and RECV_ACK leave the clock low when they complete,
whatever the state at acceptance, and STOP leaves both lines released (R168). -/
def Obligations.EveryOperationButStopLeavesTheClockLow : Prop :=
  CompletesWith .i2cStart 4 (fun _ _ _ m => m.sclO = false)
  ∧ (∀ b, CompletesWith (.i2cSendb b) 24 (fun _ _ _ m => m.sclO = false))
  ∧ CompletesWith .i2cRecvb 25 (fun _ _ _ m => m.sclO = false)
  ∧ (∀ a, CompletesWith (.i2cSack a) 3 (fun _ _ _ m => m.sclO = false))
  ∧ CompletesWith .i2cRack 4 (fun _ _ _ m => m.sclO = false)
  ∧ CompletesWith .i2cStop 3 (fun _ _ _ m => m.sclO = true ∧ m.sdaO = true)

/-- While SEND_BYTE holds the clock released for its j-th bit, SDA is bit 7 - j of the byte, for all `dq` ticks (R164, R170,
R171). -/
def Obligations.SendByteHoldsEachBitWhileTheClockIsReleased : Prop :=
  ∀ (b : Byte) (s₀ s₁ s t : State) (j m : Nat), s₀.i2cm.busy = false → exec (.i2cSendb b) s₀ = .next s₁ →
    s.i2cm = s₁.i2cm → j < 8 →
    (3 * j + 1) * max s₀.i2cm.delay.toNat 1 ≤ m → m < (3 * j + 2) * max s₀.i2cm.delay.toNat 1 →
    s.noResetFor (m + 1) → Runs (m + 1) s t →
    t.i2cm.sclO = true ∧ t.i2cm.sdaO = b.getLsbD (7 - j)

/-- The round trip of a byte over the wire: a RECV_BYTE whose peer shows, in the tick of each sample j, the SDA drive that a
SEND_BYTE b has in some tick of its j-th clock pulse, receives b, for every b and every pair of settle delays (R173). -/
def Obligations.ReceivedByteIsTheSentByte : Prop :=
  ∀ (b : Byte) (x₀ x₁ x : State) (y : Nat → State) (m : Nat → Nat),
    x₀.i2cm.busy = false → exec (.i2cSendb b) x₀ = .next x₁ → x.i2cm = x₁.i2cm →
    (∀ j, j < 8 → (3 * j + 1) * max x₀.i2cm.delay.toNat 1 ≤ m j ∧ m j < (3 * j + 2) * max x₀.i2cm.delay.toNat 1
      ∧ x.noResetFor (m j + 1) ∧ Runs (m j + 1) x (y j)) →
    CompletesWith .i2cRecvb 25 (fun q s _ r =>
      (∀ j, j < 8 → (s.envAt ((3 * j + 2) * q)).sdaP = (y j).i2cm.sdaO) → r.rxdata = b)

/-- SEND_BYTE, RECV_BYTE, SEND_ACK and RECV_ACK entered with the clock low make no START and no STOP condition in any tick up
to their completion, when the peer does not drive SDA low (R169 (c)). -/
def Obligations.ClockLowCommandsMakeNoBusCondition : Prop :=
  ∀ (i : Instr) (s₀ s₁ s t u : State) (m : Nat),
    ((∃ b, i = .i2cSendb b) ∨ i = .i2cRecvb ∨ (∃ a, i = .i2cSack a) ∨ i = .i2cRack) →
    s₀.i2cm.busy = false → s₀.i2cm.sclO = false → exec i s₀ = .next s₁ → s.i2cm = s₁.i2cm →
    m ≤ s.i2cm.steps.length * s.i2cm.dq.toNat → s.noResetFor (m + 1) →
    (∀ j, j ≤ m → (s.envAt j).sdaP = true) → Runs m s t → step t = .next u →
    startCondition t u = false ∧ stopCondition t u = false

/-- I2CM never reads SCL: two machines that differ only in what the peer does to SCL run alike for ever, in both units, the
flash array and the host's answers (R35). -/
def Obligations.PeerClockStretchingChangesNothing : Prop :=
  ∀ (n : Nat) (s s' t : State), SameButScl s s' → Runs n s t → ∃ t', Runs n s' t' ∧ SameButScl t t'

/-- The units share no state: in a tick each acts on its own state alone, and an instruction of one leaves the other (and an
I2CM command also the flash array) as it was (R105). -/
def Obligations.UnitsShareNoState : Prop :=
  (∀ s s' : State, s'.i2cm = s.i2cm → (s'.envAt 0).sdaP = (s.envAt 0).sdaP →
    (unitsTick s').i2cm = (unitsTick s).i2cm)
  ∧ (∀ s s' : State, s'.flc = s.flc → s'.par = s.par → s'.mem = s.mem → s'.unerased = s.unerased →
    s'.draws = s.draws →
    (unitsTick s').flc = (unitsTick s).flc ∧ (unitsTick s').mem = (unitsTick s).mem
      ∧ (unitsTick s').unerased = (unitsTick s).unerased
      ∧ (unitsTick s').draws = (unitsTick s).draws)
  ∧ ∀ (i : Instr) (s t : State), exec i s = .next t →
      t.mem = s.mem ∧ t.unerased = s.unerased ∧ t.draws = s.draws ∧ t.par = s.par
        ∧ (t.i2cm = s.i2cm ∨ t.flc = s.flc)
        ∧ (i ∈ [.flcUnlock, .flcLock, .flcErasep, .flcErasea, .flcProgh, .flcProgw] → t.i2cm = s.i2cm)
        ∧ (i ∉ [.flcUnlock, .flcLock, .flcErasep, .flcErasea, .flcProgh, .flcProgw] → t.flc = s.flc)

/-! ### FLC -/

/-- UNLOCK and LOCK take effect in the tick of the write and touch nothing but `locked` (R214, R215). -/
def Obligations.UnlockAndLockActAtOnce : Prop :=
  ∀ s : State, s.flc.busy = false →
    exec .flcUnlock s
        = .next { s with flc := { s.flc with locked := false }, host := { s.host with resp := .written } }
    ∧ exec .flcLock s
        = .next { s with flc := { s.flc with locked := true }, host := { s.host with resp := .written } }

/-- An idle, unlocked FLC accepts ERASE_PAGE at the first byte of a page of the window, and ERASE_ALL at any FLC_ADDR
(R210, R216, R217). Nothing else of the machine changes. -/
def Obligations.ErasesAreAccepted : Prop :=
  ∀ s : State, s.flc.busy = false → s.flc.locked = false →
    (s.par.flashBase ≤ s.flc.addr.toNat → s.flc.addr.toNat < s.par.flashBase + s.par.flashSize →
      (s.flc.addr.toNat - s.par.flashBase) % s.par.pageSize = 0 →
      exec .flcErasep s = .next (acceptedFlc 0x3 false s.par.tErasePage s))
    ∧ exec .flcErasea s = .next (acceptedFlc 0x4 false s.par.tEraseAll s)

/-- An idle, unlocked FLC accepts PROG_HALF at an even and PROG_WORD at a 4-aligned address whose bytes are all in the
window, and latches whether a target byte is not erased (R210, R218, R219, R220). Nothing else of the machine changes. -/
def Obligations.ProgramsAreAccepted : Prop :=
  ∀ s : State, s.flc.busy = false → s.flc.locked = false → s.par.flashBase ≤ s.flc.addr.toNat →
    (s.flc.addr.toNat % 2 = 0 → s.flc.addr.toNat + 2 ≤ s.par.flashBase + s.par.flashSize →
      exec .flcProgh s = .next (acceptedFlc 0x5
        (decide (s.byteAt s.flc.addr.toNat ≠ s.par.erasedByte ∨ s.byteAt (s.flc.addr.toNat + 1) ≠ s.par.erasedByte))
        s.par.tProgHalf s))
    ∧ (s.flc.addr.toNat % 4 = 0 → s.flc.addr.toNat + 4 ≤ s.par.flashBase + s.par.flashSize →
      exec .flcProgw s = .next (acceptedFlc 0x6
        (decide (s.byteAt s.flc.addr.toNat ≠ s.par.erasedByte ∨ s.byteAt (s.flc.addr.toNat + 1) ≠ s.par.erasedByte
          ∨ s.byteAt (s.flc.addr.toNat + 2) ≠ s.par.erasedByte ∨ s.byteAt (s.flc.addr.toNat + 3) ≠ s.par.erasedByte))
        s.par.tProgWord s))

/-- The order of the FLC's refusals (R281): a mutating command on an idle but locked unit sets LOCKERR whatever its address;
on an idle, unlocked unit an address outside the window, or misaligned for the command, sets ADDRERR; nothing else
of PERIPH changes (R67, R68). That the host's write is acknowledged all the same is the model's choice
(notes/assumptions/11.md). -/
def Obligations.MutatingCommandsAreRefusedInOrder : Prop :=
  ∀ s : State, s.flc.busy = false →
    (s.flc.locked = true → ∀ i, i ∈ [Instr.flcErasep, .flcErasea, .flcProgh, .flcProgw] →
      exec i s = .next { s with flc := { s.flc with lockerr := true }, host := { s.host with resp := .written } })
    ∧ (s.flc.locked = false →
      (¬ (s.par.flashBase ≤ s.flc.addr.toNat ∧ s.flc.addr.toNat < s.par.flashBase + s.par.flashSize
          ∧ (s.flc.addr.toNat - s.par.flashBase) % s.par.pageSize = 0) →
        exec .flcErasep s
          = .next { s with flc := { s.flc with addrerr := true }, host := { s.host with resp := .written } })
      ∧ (¬ (s.flc.addr.toNat % 2 = 0 ∧ s.par.flashBase ≤ s.flc.addr.toNat
          ∧ s.flc.addr.toNat + 2 ≤ s.par.flashBase + s.par.flashSize) →
        exec .flcProgh s
          = .next { s with flc := { s.flc with addrerr := true }, host := { s.host with resp := .written } })
      ∧ (¬ (s.flc.addr.toNat % 4 = 0 ∧ s.par.flashBase ≤ s.flc.addr.toNat
          ∧ s.flc.addr.toNat + 4 ≤ s.par.flashBase + s.par.flashSize) →
        exec .flcProgw s
          = .next { s with flc := { s.flc with addrerr := true }, host := { s.host with resp := .written } }))

/-- ERASE_PAGE completes after T_ERASE_PAGE ticks: every byte of the page at FLC_ADDR (latched) reads ERASED_BYTE, every
other byte reads as before, EOP is set and PGERR is as it was (R216, R221). -/
def Obligations.ErasePageErasesThatPageOnly : Prop :=
  FlcCompletesWith .flcErasep (fun s => erasePageAddrOk s.par s.flc.addr.toNat = true) Params.tErasePage
    (fun s t u => u.flc.eop = true ∧ u.flc.pgerr = t.flc.pgerr
      ∧ (∀ a, s.flc.curAddr.toNat ≤ a → a < s.flc.curAddr.toNat + s.par.pageSize → u.byteAt a = s.par.erasedByte)
      ∧ ∀ a, (a < s.flc.curAddr.toNat ∨ s.flc.curAddr.toNat + s.par.pageSize ≤ a) → u.byteAt a = s.byteAt a)

/-- ERASE_ALL completes after T_ERASE_ALL ticks: every byte of the window reads ERASED_BYTE, EOP is set and PGERR is as it
was (R217, R221). -/
def Obligations.EraseAllErasesTheWindow : Prop :=
  FlcCompletesWith .flcErasea (fun _ => True) Params.tEraseAll
    (fun s t u => u.flc.eop = true ∧ u.flc.pgerr = t.flc.pgerr
      ∧ (∀ a, inWindow s.par a = true → u.byteAt a = s.par.erasedByte)
      ∧ ∀ a, inWindow s.par a = false → u.byteAt a = s.byteAt a)

/-- PROG_HALF on an erased target completes after T_PROG_HALF ticks: the two bytes hold FLC_DATA[15:0], little-endian, every
other byte reads as before, and EOP is set, PGERR as it was (R86, R218, R221). -/
def Obligations.ProgHalfWritesTheHalfword : Prop :=
  FlcCompletesWith .flcProgh
    (fun s => progHalfAddrOk s.par s.flc.addr.toNat = true ∧ s.erasedAt 2 s.flc.addr.toNat = true)
    Params.tProgHalf
    (fun s t u => u.flc.eop = true ∧ u.flc.pgerr = t.flc.pgerr
      ∧ u.byteAt s.flc.curAddr.toNat = s.flc.curData.extractLsb' 0 8
      ∧ u.byteAt (s.flc.curAddr.toNat + 1) = s.flc.curData.extractLsb' 8 8
      ∧ ∀ a, (a < s.flc.curAddr.toNat ∨ s.flc.curAddr.toNat + 2 ≤ a) → u.byteAt a = s.byteAt a)

/-- PROG_WORD on an erased target completes after T_PROG_WORD ticks: the four bytes hold FLC_DATA, little-endian, every other
byte reads as before, and EOP is set, PGERR as it was (R86, R219, R221). -/
def Obligations.ProgWordWritesTheWord : Prop :=
  FlcCompletesWith .flcProgw
    (fun s => progWordAddrOk s.par s.flc.addr.toNat = true ∧ s.erasedAt 4 s.flc.addr.toNat = true)
    Params.tProgWord
    (fun s t u => u.flc.eop = true ∧ u.flc.pgerr = t.flc.pgerr
      ∧ u.byteAt s.flc.curAddr.toNat = s.flc.curData.extractLsb' 0 8
      ∧ u.byteAt (s.flc.curAddr.toNat + 1) = s.flc.curData.extractLsb' 8 8
      ∧ u.byteAt (s.flc.curAddr.toNat + 2) = s.flc.curData.extractLsb' 16 8
      ∧ u.byteAt (s.flc.curAddr.toNat + 3) = s.flc.curData.extractLsb' 24 8
      ∧ ∀ a, (a < s.flc.curAddr.toNat ∨ s.flc.curAddr.toNat + 4 ≤ a) → u.byteAt a = s.byteAt a)

/-- PROG_HALF and PROG_WORD on a target that is not erased complete with PGERR and without setting EOP; no byte outside the
target changes, and nothing is said of the target's bytes, which are draws (R66, R218, R219, R324). -/
def Obligations.ProgramOfAnUnerasedTargetSetsPgerr : Prop :=
  FlcCompletesWith .flcProgh
    (fun s => progHalfAddrOk s.par s.flc.addr.toNat = true ∧ s.erasedAt 2 s.flc.addr.toNat = false)
    Params.tProgHalf
    (fun s t u => u.flc.pgerr = true ∧ u.flc.eop = t.flc.eop
      ∧ ∀ a, (a < s.flc.curAddr.toNat ∨ s.flc.curAddr.toNat + 2 ≤ a) → u.byteAt a = s.byteAt a)
  ∧ FlcCompletesWith .flcProgw
    (fun s => progWordAddrOk s.par s.flc.addr.toNat = true ∧ s.erasedAt 4 s.flc.addr.toNat = false)
    Params.tProgWord
    (fun s t u => u.flc.pgerr = true ∧ u.flc.eop = t.flc.eop
      ∧ ∀ a, (a < s.flc.curAddr.toNat ∨ s.flc.curAddr.toNat + 4 ≤ a) → u.byteAt a = s.byteAt a)

/-- An accepted erase or program keeps BUSY for exactly its duration: a host access `m + 1` ticks after acceptance sees
BUSY = 1 while `m + 1` is less than the duration, and until then the array is as it was (R221, R226). -/
def Obligations.FlcBusyLastsItsDuration : Prop :=
  ∀ (s t : State) (m : Nat), s.flc.busy = true → m < s.flc.remaining → s.noResetFor m → Runs m s t →
    t.mem = s.mem ∧ t.unerased = s.unerased ∧ (unitsTick t).flc.busy = decide (m + 1 < s.flc.remaining)

/-- The flash array changes only in the tick in which an erase or program completes, or is in flight at a reset: no host
access of any kind changes it (R57, R92). -/
def Obligations.FlashChangesOnlyAtACompletion : Prop :=
  ∀ s t : State, step s = .next t →
    (s.flc.busy = false ∨ (2 ≤ s.flc.remaining ∧ (s.envAt 0).reset = false)) →
    t.mem = s.mem ∧ t.unerased = s.unerased

/-- The FLC lock protects: while the unit is idle and locked, a step starts no erase and no program and changes no byte of
the array, whatever the host writes (R58, R67). -/
def Obligations.LockedIdleUnitKeepsTheArray : Prop :=
  ∀ s t : State, s.flc.busy = false → s.flc.locked = true → step s = .next t →
    t.flc.busy = false ∧ t.mem = s.mem ∧ t.unerased = s.unerased ∧ ∀ a : Nat, t.byteAt a = s.byteAt a

/-- `locked` changes only by UNLOCK (to 0), LOCK (to 1) and reset (to 1): a step that changes it is a reset, or its host
access is UNLOCK or LOCK (R58). -/
def Obligations.LockChangesOnlyByUnlockLockAndReset : Prop :=
  ∀ s t : State, step s = .next t → t.flc.locked ≠ s.flc.locked →
    ((s.envAt 0).reset = true ∧ t.flc.locked = true)
    ∨ (∃ a rest, s.host.prog = .access a :: rest ∧ decodeAccess s.par a = .instr .flcUnlock ∧ t.flc.locked = false)
    ∨ (∃ a rest, s.host.prog = .access a :: rest ∧ decodeAccess s.par a = .instr .flcLock ∧ t.flc.locked = true)

/-! ### Host accesses -/

/-- RD_BYTE, RD_HALF and RD_WORD at an aligned address of the window return its bytes, little-endian, while the FLC is idle,
locked or not, and change nothing but the answer to the host (R86, R211, R212, R213). -/
def Obligations.FlashReadsReturnLittleEndianBytes : Prop :=
  ∀ (s : State) (a : Word), s.flc.busy = false → inWindow s.par a.toNat = true →
    exec (.rdB a) s = .next (s.respond (.data .w8 ((s.byteAt a.toNat).zeroExtend 32)))
    ∧ (a.toNat % 2 = 0 → exec (.rdH a) s
      = .next (s.respond (.data .w16 ((s.byteAt (a.toNat + 1) ++ s.byteAt a.toNat).zeroExtend 32))))
    ∧ (a.toNat % 4 = 0 → exec (.rdW a) s
      = .next (s.respond (.data .w32
        (s.byteAt (a.toNat + 3) ++ s.byteAt (a.toNat + 2) ++ s.byteAt (a.toNat + 1) ++ s.byteAt a.toNat))))

/-- A misaligned flash read is a bus fault at once, busy or not; an aligned one while the FLC is busy stalls; neither changes
anything but the answer to the host; and at an address outside the window the three reads are refused (R84, R90, R96,
R275). -/
def Obligations.FlashReadsFaultStallOrAreRefused : Prop :=
  ∀ (s : State) (a : Word),
    (inWindow s.par a.toNat = true →
      (a.toNat % 2 ≠ 0 → exec (.rdH a) s = .next { s with host := { s.host with resp := .fault .align } })
      ∧ (a.toNat % 4 ≠ 0 → exec (.rdW a) s = .next { s with host := { s.host with resp := .fault .align } })
      ∧ (s.flc.busy = true →
        exec (.rdB a) s = .next { s with host := { s.host with resp := .stalled } }
        ∧ (a.toNat % 2 = 0 → exec (.rdH a) s = .next { s with host := { s.host with resp := .stalled } })
        ∧ (a.toNat % 4 = 0 → exec (.rdW a) s = .next { s with host := { s.host with resp := .stalled } })))
    ∧ (inWindow s.par a.toNat = false →
      exec (.rdB a) s = .refused .outsidePeriph ∧ exec (.rdH a) s = .refused .outsidePeriph
        ∧ exec (.rdW a) s = .refused .outsidePeriph)

/-- An aligned flash read that the host makes while the FLC is busy stalls, and the host makes no progress, in every tick
before the completion; in the completion tick it is performed and returns the array's new contents, and the host's program
moves on. A register read of either block never stalls (R96). That the host's accesses are a queue in the state, in which a
stalled access stays, is the model's choice (notes/assumptions/7.md, 8.md). -/
def Obligations.BusyFlashReadsStallUntilTheCompletionTick : Prop :=
  (∀ (s : State) (w : Width) (a : Word) (rest : List HostOp), s.flc.busy = true → 1 ≤ s.flc.remaining →
    inWindow s.par a.toNat = true → a.toNat % widthBytes w = 0 → s.host.prog = .access (.read w a) :: rest →
    (∀ (m : Nat) (t : State), 1 ≤ m → m < s.flc.remaining → s.noResetFor m → Runs m s t →
      t.host.prog = .access (.read w a) :: rest ∧ t.host.resp = .stalled)
    ∧ ∀ t : State, s.noResetFor s.flc.remaining → Runs s.flc.remaining s t →
      t.flc.busy = false ∧ t.host.prog = rest
        ∧ t.host.resp = .data w (BitVec.ofNat 32 (t.readBytes (widthBytes w) a.toNat)))
  ∧ ∀ (s : State) (r : Reg), s.par.ok = true → ∃ v, performAccess (readOf s.par r) s = .next (s.respond (.data .w32 v))

/-- A host write of any width and alignment to the flash window is not performed and is answered BF_RO (R92, R275). The
region of an access is that of its first byte (DEDUCED, notes/assumptions/6.md). -/
def Obligations.WritesToTheFlashWindowAreReadOnlyFaults : Prop :=
  ∀ (s : State) (w : Width) (a v : Word), s.par.ok = true → inWindow s.par a.toNat = true →
    performAccess (.write w a v) s = .next { s with host := { s.host with resp := .fault .readOnly } }

/-- An 8- or 16-bit access to a register block is answered BF_WIDTH whatever its address; a 32-bit one at an address that is
not a multiple of 4 is answered BF_ALIGN; neither is performed (R93). That an access which starts in a block and reaches
past its end is the block's is the model's choice (DEDUCED, notes/assumptions/6.md). -/
def Obligations.RegisterAccessesOfTheWrongWidthOrAlignmentFault : Prop :=
  ∀ (s : State) (a v : Word), s.par.ok = true →
    ((s.par.i2cmBase ≤ a.toNat ∧ a.toNat < s.par.i2cmBase + 16)
      ∨ (s.par.flcBase ≤ a.toNat ∧ a.toNat < s.par.flcBase + 16)) →
    (∀ w, w ≠ .w32 →
      performAccess (.read w a) s = .next { s with host := { s.host with resp := .fault .width } }
      ∧ performAccess (.write w a v) s = .next { s with host := { s.host with resp := .fault .width } })
    ∧ (a.toNat % 4 ≠ 0 →
      performAccess (.read .w32 a) s = .next { s with host := { s.host with resp := .fault .align } }
      ∧ performAccess (.write .w32 a v) s = .next { s with host := { s.host with resp := .fault .align } })

/-- The code of the error response, for every access that is not refused: in a register block 1 for a width other than 32
bits, else 2 for a misaligned address; in the flash window 2 for a misaligned read and 3 for any write; none otherwise. An
access with an error response changes nothing of PERIPH (R274, R275, R276). The region of an access is that of its first byte
(DEDUCED, notes/assumptions/6.md). -/
def Obligations.BusFaultsCarryTheirCodes : Prop :=
  ∀ (s : State) (w : Width) (a v : Word), s.par.ok = true →
    (∀ t, performAccess (.read w a) s = .next t →
      faultCodeOf t.host.resp =
          (if inWindow s.par a.toNat = true then (if a.toNat % widthBytes w ≠ 0 then some 2 else none)
            else if w ≠ .w32 then some 1 else if a.toNat % 4 ≠ 0 then some 2 else none)
        ∧ (faultCodeOf t.host.resp ≠ none → t = s.respond t.host.resp))
    ∧ ∀ t, performAccess (.write w a v) s = .next t →
      faultCodeOf t.host.resp =
          (if inWindow s.par a.toNat = true then some 3
            else if w ≠ .w32 then some 1 else if a.toNat % 4 ≠ 0 then some 2 else none)
        ∧ (faultCodeOf t.host.resp ≠ none → t = s.respond t.host.resp)

/-- The bits of I2CM_STAT and FLC_STAT: each field at its position, every reserved bit 0 (R41, R63). -/
def Obligations.StatusRegistersHaveTheirFields : Prop :=
  ∀ (m : I2cm) (f : Flc) (n : Nat),
    (i2cmStat m).getLsbD n = (match n with
      | 0 => m.busy | 1 => m.sclO | 2 => m.sdaO | 3 => m.sdaIn | 4 => m.ack | 5 => m.owned
      | 8 => m.nackf | 9 => m.cmderr | 10 => m.busyerr | 11 => m.seqerr
      | _ => false)
    ∧ (flcStat f).getLsbD n = (match n with
      | 0 => f.busy | 2 => f.eop | 8 => f.pgerr | 9 => f.lockerr | 10 => f.addrerr | 11 => f.cmderr | 12 => f.busyerr
      | _ => false)

/-- Reading a register returns its value and has no side effect: the CMD registers read 0, the rest their fields (R40, R52,
R53, R60, R61, R62, R95). -/
def Obligations.RegisterReadsHaveNoSideEffect : Prop :=
  ∀ s : State, s.par.ok = true → ∀ r : Reg,
    performAccess (readOf s.par r) s = .next (s.respond (.data .w32 (match r with
      | .i2cmCmd => 0
      | .i2cmStat => i2cmStat s.i2cm
      | .i2cmData => s.i2cm.rxdata.zeroExtend 32
      | .i2cmDelay => s.i2cm.delay.zeroExtend 32
      | .flcCmd => 0
      | .flcAddr => s.flc.addr
      | .flcData => s.flc.data
      | .flcStat => flcStat s.flc)))

/-- A write to a STAT register clears each W1C flag whose bit is 1 and leaves every other bit (R51, R71). -/
def Obligations.StatusWritesClearTheFlagsWrittenOne : Prop :=
  ∀ (s : State) (v : Word), s.par.ok = true →
    performAccess (writeOf s.par .i2cmStat v) s = .next { s with
      i2cm := { s.i2cm with
        nackf := if v.getLsbD 8 then false else s.i2cm.nackf
        cmderr := if v.getLsbD 9 then false else s.i2cm.cmderr
        busyerr := if v.getLsbD 10 then false else s.i2cm.busyerr
        seqerr := if v.getLsbD 11 then false else s.i2cm.seqerr }
      host := { s.host with resp := .written } }
    ∧ performAccess (writeOf s.par .flcStat v) s = .next { s with
      flc := { s.flc with
        eop := if v.getLsbD 2 then false else s.flc.eop
        pgerr := if v.getLsbD 8 then false else s.flc.pgerr
        lockerr := if v.getLsbD 9 then false else s.flc.lockerr
        addrerr := if v.getLsbD 10 then false else s.flc.addrerr
        cmderr := if v.getLsbD 11 then false else s.flc.cmderr
        busyerr := if v.getLsbD 12 then false else s.flc.busyerr }
      host := { s.host with resp := .written } }

/-- Writes to the other registers, busy or not: I2CM_DELAY takes bits 15:0 and leaves the latched quantum, FLC_ADDR and
FLC_DATA take the word and leave the latched operands, I2CM_DATA ignores the write (R52, R53, R61, R62). -/
def Obligations.OtherRegisterWritesStoreTheirValue : Prop :=
  ∀ (s : State) (v : Word), s.par.ok = true →
    performAccess (writeOf s.par .i2cmDelay v) s = .next { s with
      i2cm := { s.i2cm with delay := v.extractLsb' 0 16 }, host := { s.host with resp := .written } }
    ∧ performAccess (writeOf s.par .i2cmData v) s = .next { s with host := { s.host with resp := .written } }
    ∧ performAccess (writeOf s.par .flcAddr v) s = .next { s with
      flc := { s.flc with addr := v }, host := { s.host with resp := .written } }
    ∧ performAccess (writeOf s.par .flcData v) s = .next { s with
      flc := { s.flc with data := v }, host := { s.host with resp := .written } }

/-- Flags are sticky: a step that clears a flag of a STAT register is a reset, or the host's access in it is a write to that
register with a 1 in the flag's bit (R279). -/
def Obligations.FlagsAreClearedOnlyByWritingOneOrReset : Prop :=
  ∀ s t : State, step s = .next t → (s.envAt 0).reset = false → ∀ n : Nat,
    (8 ≤ n → (i2cmStat s.i2cm).getLsbD n = true → (i2cmStat t.i2cm).getLsbD n = false →
      ∃ a rest v, s.host.prog = .access a :: rest ∧ decodeAccess s.par a = .writeReg .i2cmStat v
        ∧ v.getLsbD n = true)
    ∧ ((n = 2 ∨ 8 ≤ n) → (flcStat s.flc).getLsbD n = true → (flcStat t.flc).getLsbD n = false →
      ∃ a rest v, s.host.prog = .access a :: rest ∧ decodeAccess s.par a = .writeReg .flcStat v
        ∧ v.getLsbD n = true)

/-! ### The whole machine -/

/-- What a step without reset changes, it changes at its own event: RXDATA at a completion of RECV_BYTE, ACK of RECV_ACK,
OWNED of START, STOP and INIT; the drives and SDA_IN at a micro-step; I2CM_DELAY, FLC_ADDR and FLC_DATA by the host's write to
the register (R43 to R46, R52, R53, R61, R62). -/
def Obligations.ResultsChangeOnlyAtTheirEvents : Prop :=
  ∀ s t : State, step s = .next t → (s.envAt 0).reset = false →
    (t.i2cm.rxdata ≠ s.i2cm.rxdata →
      s.i2cm.busy = true ∧ s.i2cm.waitCnt ≤ 1 ∧ s.i2cm.steps.length ≤ s.i2cm.k ∧ s.i2cm.curOp = 0x5
        ∧ t.i2cm.rxdata = s.i2cm.acc)
    ∧ (t.i2cm.ack ≠ s.i2cm.ack →
      s.i2cm.busy = true ∧ s.i2cm.waitCnt ≤ 1 ∧ s.i2cm.steps.length ≤ s.i2cm.k ∧ s.i2cm.curOp = 0x7
        ∧ t.i2cm.ack = s.i2cm.acc.getLsbD 0)
    ∧ (t.i2cm.owned ≠ s.i2cm.owned →
      s.i2cm.busy = true ∧ s.i2cm.waitCnt ≤ 1 ∧ s.i2cm.steps.length ≤ s.i2cm.k
        ∧ ((s.i2cm.curOp = 0x2 ∧ t.i2cm.owned = true)
          ∨ ((s.i2cm.curOp = 0x3 ∨ s.i2cm.curOp = 0x1) ∧ t.i2cm.owned = false)))
    ∧ (t.i2cm.sclO ≠ s.i2cm.sclO →
      s.i2cm.busy = true ∧ s.i2cm.waitCnt ≤ 1 ∧ s.i2cm.steps[s.i2cm.k]? = some (.scl t.i2cm.sclO))
    ∧ (t.i2cm.sdaO ≠ s.i2cm.sdaO →
      s.i2cm.busy = true ∧ s.i2cm.waitCnt ≤ 1 ∧ s.i2cm.steps[s.i2cm.k]? = some (.sda t.i2cm.sdaO))
    ∧ (t.i2cm.sdaIn ≠ s.i2cm.sdaIn →
      s.i2cm.busy = true ∧ s.i2cm.waitCnt ≤ 1 ∧ ∃ dst, s.i2cm.steps[s.i2cm.k]? = some (.sample dst))
    ∧ (t.i2cm.delay ≠ s.i2cm.delay →
      ∃ v, s.nextAccess = some (.writeReg .i2cmDelay v) ∧ t.i2cm.delay = v.extractLsb' 0 16)
    ∧ (t.flc.addr ≠ s.flc.addr → ∃ v, s.nextAccess = some (.writeReg .flcAddr v) ∧ t.flc.addr = v)
    ∧ (t.flc.data ≠ s.flc.data → ∃ v, s.nextAccess = some (.writeReg .flcData v) ∧ t.flc.data = v)

/-- What sets a sticky flag of the I2CM in a step without reset: NACKF the completion of a RECV_ACK that sampled 1; CMDERR an
invalid word written while the unit is idle; BUSYERR any word written while it is busy; SEQERR the acceptance of one of the
five clock-low commands with the clock released. Nothing else does (R47 to R50, R74, R280, R282). -/
def Obligations.I2cmFlagsAreSetOnlyByTheirEvents : Prop :=
  ∀ s t : State, step s = .next t → (s.envAt 0).reset = false →
    (s.i2cm.nackf = false → t.i2cm.nackf = true →
      s.i2cm.busy = true ∧ s.i2cm.waitCnt ≤ 1 ∧ s.i2cm.steps.length ≤ s.i2cm.k ∧ s.i2cm.curOp = 0x7
        ∧ s.i2cm.acc.getLsbD 0 = true)
    ∧ (s.i2cm.cmderr = false → t.i2cm.cmderr = true →
      (unitsTick s).i2cm.busy = false ∧ ∃ e, s.nextAccess = some (.badCommand .i2cm e))
    ∧ (s.i2cm.busyerr = false → t.i2cm.busyerr = true →
      (unitsTick s).i2cm.busy = true
        ∧ ((∃ e, s.nextAccess = some (.badCommand .i2cm e))
          ∨ ∃ i, s.nextAccess = some (.instr i) ∧ i.readAddr? = none
            ∧ i ∉ [.flcUnlock, .flcLock, .flcErasep, .flcErasea, .flcProgh, .flcProgw]))
    ∧ (s.i2cm.seqerr = false → t.i2cm.seqerr = true →
      (unitsTick s).i2cm.busy = false ∧ (unitsTick s).i2cm.sclO = true
        ∧ ∃ i, s.nextAccess = some (.instr i)
          ∧ (i = .i2cStop ∨ (∃ b, i = .i2cSendb b) ∨ i = .i2cRecvb ∨ (∃ a, i = .i2cSack a) ∨ i = .i2cRack))

/-- What sets a sticky flag of the FLC in a step without reset: EOP and PGERR the completion of an erase or program, by
whether its target was erased; LOCKERR a mutating command on an idle, locked unit; ADDRERR one on an idle, unlocked unit whose
address its check refuses; CMDERR an invalid word on an idle unit; BUSYERR any word on a busy one. Nothing else does (R65 to
R70, R74, R281, R282). -/
def Obligations.FlcFlagsAreSetOnlyByTheirEvents : Prop :=
  ∀ s t : State, step s = .next t → (s.envAt 0).reset = false →
    (s.flc.eop = false → t.flc.eop = true → s.flc.busy = true ∧ s.flc.remaining ≤ 1 ∧ s.flc.pgFail = false)
    ∧ (s.flc.pgerr = false → t.flc.pgerr = true → s.flc.busy = true ∧ s.flc.remaining ≤ 1 ∧ s.flc.pgFail = true)
    ∧ (s.flc.lockerr = false → t.flc.lockerr = true →
      (unitsTick s).flc.busy = false ∧ s.flc.locked = true
        ∧ ∃ i, s.nextAccess = some (.instr i) ∧ i ∈ [Instr.flcErasep, .flcErasea, .flcProgh, .flcProgw])
    ∧ (s.flc.addrerr = false → t.flc.addrerr = true →
      (unitsTick s).flc.busy = false ∧ s.flc.locked = false
        ∧ ((s.nextAccess = some (.instr .flcErasep) ∧ erasePageAddrOk s.par s.flc.addr.toNat = false)
          ∨ (s.nextAccess = some (.instr .flcProgh) ∧ progHalfAddrOk s.par s.flc.addr.toNat = false)
          ∨ (s.nextAccess = some (.instr .flcProgw) ∧ progWordAddrOk s.par s.flc.addr.toNat = false)))
    ∧ (s.flc.cmderr = false → t.flc.cmderr = true →
      (unitsTick s).flc.busy = false ∧ ∃ e, s.nextAccess = some (.badCommand .flc e))
    ∧ (s.flc.busyerr = false → t.flc.busyerr = true →
      (unitsTick s).flc.busy = true
        ∧ ((∃ e, s.nextAccess = some (.badCommand .flc e))
          ∨ ∃ i, s.nextAccess = some (.instr i)
            ∧ i ∈ [.flcUnlock, .flcLock, .flcErasep, .flcErasea, .flcProgh, .flcProgw]))

/-- A tick in which reset is asserted leaves both units at their reset values, abandons what they were doing, changes nothing
of the array if the FLC is idle, and does not touch the parameters (R310). That the host starts again with its boot program
is the model's choice (notes/assumptions/8.md). -/
def Obligations.ResetTickLeavesTheResetValues : Prop :=
  ∀ s : State, s.par.ok = true → (s.envAt 0).reset = true →
    ∃ t, step s = .next t ∧ t.par = s.par ∧ t.host = { prog := s.host.boot, resp := .none, boot := s.host.boot }
      ∧ t.i2cm = { sclO := true, sdaO := true, busy := false, curOp := 0, curArg := 0, steps := [], k := 0, dq := 1
                   waitCnt := 0, acc := 0, owned := false, rxdata := 0, sdaIn := false, ack := false, nackf := false
                   cmderr := false, busyerr := false, seqerr := false, delay := 10 }
      ∧ t.flc = { locked := true, busy := false, curOp := 0, curAddr := 0, curData := 0, pgFail := false
                  remaining := 0, addr := 0, data := 0, eop := false, pgerr := false, lockerr := false
                  addrerr := false, cmderr := false, busyerr := false }
      ∧ t.unerased = s.unerased ∧ (s.flc.busy = false → t.mem = s.mem ∧ t.draws = s.draws)

/-- A reset during an erase or program leaves every byte outside the command's target as it was; nothing is said of the
target's bytes, which are draws (R314). -/
def Obligations.ResetKeepsEveryByteOutsideTheTarget : Prop :=
  ∀ s t : State, State.Good s → (s.envAt 0).reset = true → step s = .next t → s.flc.busy = true → ∀ a : Nat,
    (s.flc.curOp = 0x3 → (a < s.flc.curAddr.toNat ∨ s.flc.curAddr.toNat + s.par.pageSize ≤ a) →
      t.byteAt a = s.byteAt a)
    ∧ (s.flc.curOp = 0x4 → inWindow s.par a = false → t.byteAt a = s.byteAt a)
    ∧ (s.flc.curOp = 0x5 → (a < s.flc.curAddr.toNat ∨ s.flc.curAddr.toNat + 2 ≤ a) → t.byteAt a = s.byteAt a)
    ∧ (s.flc.curOp = 0x6 → (a < s.flc.curAddr.toNat ∨ s.flc.curAddr.toNat + 4 ≤ a) → t.byteAt a = s.byteAt a)

/-- The I2CM right after reset, field by field, what the registers of both units read then, and that the FLC is locked (R37,
R55, R73). That `cur_op`, `cur_arg`, `steps` and `dq`, which R55 leaves out, are those of R37's table is DEDUCED
(notes/assumptions/15.md). -/
def Obligations.ResetRegistersReadTheirResetValues : Prop :=
  State.reset.i2cm = { sclO := true, sdaO := true, busy := false, curOp := 0, curArg := 0, steps := [], k := 0, dq := 1
                       waitCnt := 0, acc := 0, owned := false, rxdata := 0, sdaIn := false, ack := false, nackf := false
                       cmderr := false, busyerr := false, seqerr := false, delay := 10 }
    ∧ i2cmStat State.reset.i2cm = 0x00000006 ∧ i2cmData State.reset.i2cm = 0 ∧ i2cmDelay State.reset.i2cm = 0x0000000A
    ∧ flcStat State.reset.flc = 0 ∧ State.reset.flc.addr = 0 ∧ State.reset.flc.data = 0
    ∧ State.reset.flc.locked = true ∧ regValue .i2cmCmd State.reset = 0 ∧ regValue .flcCmd State.reset = 0

/-- A step runs the decoded instruction: in a tick without reset, after the units acted, the host's access that decodes to
`i` is `exec i`, which goes on, and the step answers its state with the host's program moved on by the answer: a stalled
access is made again, a bus fault hands over to HOST_BUS_ERROR, anything else ends the line (R31, R96, R276). That the
host's accesses are a queue in the state is the model's choice (notes/assumptions/5.md, 7.md, 8.md). -/
def Obligations.StepRunsTheDecodedInstruction : Prop :=
  ∀ (s : State) (a : Access) (rest : List HostOp) (i : Instr), s.par.ok = true → (s.envAt 0).reset = false →
    s.host.prog = .access a :: rest → decodeAccess s.par a = .instr i →
    ∃ t, exec i (unitsTick s) = .next t ∧ step s = .next { t with host := { t.host with
      prog := match t.host.resp with
        | .stalled => .access a :: rest
        | .fault c => Config.hostBusError c rest
        | _ => rest } }

/-- With good parameters a step answers a next state or is refused; and it is refused exactly if, in a tick without reset,
the host's access lies outside the three regions (R84, 93_implementation_defined.md part 1). The region of an access is that
of its first byte (DEDUCED, notes/assumptions/6.md). -/
def Obligations.EveryStepGoesOnUnlessTheAccessIsOutside : Prop :=
  ∀ s : State, s.par.ok = true →
    ((∃ t, step s = .next t) ∨ step s = .refused .outsidePeriph)
    ∧ (step s = .refused .outsidePeriph ↔ (s.envAt 0).reset = false ∧ s.nextAccess = some .outside)

/-- The invariant is kept by every step: legal parameters; a busy I2CM is inside the micro-step list of an accepted command
with a countdown between 1 and its quantum; a busy FLC is unlocked, has a checked address and a countdown between 1 and its
duration; the array keeps its canonical form (the model's own, notes/assumptions/4.md) and lists addresses of the window
only (R141, R142, R210, R221, R281). -/
def Obligations.GoodStatesStayGood : Prop :=
  ∀ s t : State, State.Good s → step s = .next t → State.Good t

/-- The invariant holds right after reset. The parameters there are the model's choice (notes/assumptions/1.md). -/
def Obligations.ResetStateIsGood : Prop := State.Good State.reset

/-- The axis composition: a 16-bit two's-complement value of the high and the low byte (R196). -/
def Obligations.AxisValueIsTwosComplement : Prop :=
  (∀ hi lo : Byte, axisValue hi lo
    = if hi.toNat < 128 then (256 * hi.toNat + lo.toNat : Int) else (256 * hi.toNat + lo.toNat : Int) - 65536)
  ∧ axisValue 0x80 0x00 = -32768 ∧ axisValue 0x7F 0xFF = 32767 ∧ axisValue 0x00 0x01 = 1

/-! ### The persistent store -/

/-- Save, from an idle FLC and without a reset, returns after the ticks of one guarded ERASE_PAGE and 512 guarded PROG_HALF:
flash slot k holds mirror[k], the rest of the page is erased, no other byte changed, no PGERR was set and the unit is locked;
Clear is Save of the mirror with slots 1..511 zero (R223, R254, R255, R257, R260). That a store operation is a host routine
over a mirror it takes and returns is the model's choice (notes/assumptions/13.md). -/
def Obligations.SaveAndClearLeaveTheMirrorInFlash : Prop :=
  ∀ (s : State) (base : Nat) (m : Mirror), s.par.ok = true → storeBaseOk s.par base = true → s.flc.busy = false →
    Memory.wf s.unlisted s.mem = true → s.noResetFor (saveTicks s.par) →
    (∃ t, runRoutine (saveTicks s.par) (storeSave s.par base m) s = .returned m t
      ∧ t.flc.busy = false ∧ t.flc.locked = true ∧ t.flc.pgerr = s.flc.pgerr
      ∧ (∀ k (h : k < 512), t.halfAt (base + 2 * k) = m[k])
      ∧ (∀ a, base + 1024 ≤ a → a < base + s.par.pageSize → t.byteAt a = s.par.erasedByte)
      ∧ ∀ a, (a < base ∨ base + s.par.pageSize ≤ a) → t.byteAt a = s.byteAt a)
    ∧ ∃ t, runRoutine (saveTicks s.par) (storeClear s.par base m) s = .returned (clearedMirror m) t
      ∧ ∀ k, k < 512 → t.halfAt (base + 2 * k) = if k = 0 then m[0] else 0

/-- Initialize fills the mirror from flash, however the run went before the load (a busy FLC, a PGERR): when it returns,
mirror[k] is the halfword of flash slot k. From an idle FLC and without a reset it returns: on a page with the sentinel after
513 reads, with the array as it was; on any other after the format and the load, with the sentinel in slot 0, zeros in slots 1
to 511 and no byte outside the page changed (R252, R253, R257, R259, R260). That a store operation is a host routine over a
mirror it takes and returns is the model's choice (notes/assumptions/13.md). -/
def Obligations.InitializeLoadsTheMirrorFromFlash : Prop :=
  ∀ (s : State) (base : Nat) (m : Mirror), s.par.ok = true → storeBaseOk s.par base = true →
    (∀ n m' t, runRoutine n (storeInitialize s.par base m) s = .returned m' t →
      ∀ k (h : k < 512), m'[k] = t.halfAt (base + 2 * k))
    ∧ (s.flc.busy = false → Memory.wf s.unlisted s.mem = true →
      (s.halfAt base = 0xA5A5 → s.noResetFor 513 →
        ∃ m' t, runRoutine 513 (storeInitialize s.par base m) s = .returned m' t
          ∧ t.mem = s.mem ∧ t.unerased = s.unerased ∧ t.flc = s.flc)
      ∧ (s.halfAt base ≠ 0xA5A5 → s.noResetFor (1 + saveTicks s.par + 512) →
        ∃ m' t, runRoutine (1 + saveTicks s.par + 512) (storeInitialize s.par base m) s = .returned m' t
          ∧ t.flc.locked = true
          ∧ (∀ k (h : k < 512), m'[k] = if k = 0 then 0xA5A5 else 0)
          ∧ ∀ a, (a < base ∨ base + s.par.pageSize ≤ a) → t.byteAt a = s.byteAt a))

/-- A reset ends a Save, and nothing resumes it: the host starts on its boot program. One while the erase is guarded leaves
every byte outside the page as it was, and nothing is said of the page; one while slot k is programmed leaves slots 0 to
k - 1 with the mirror's values and slots k + 1 to 511 erased, and nothing is said of slot k (R258, R314, R325). That a store
operation is a host routine, and that the host starts again after a reset, are the model's choice (notes/assumptions/8.md,
13.md). -/
def Obligations.ResetDuringSaveTearsThePage : Prop :=
  ∀ (s : State) (base : Nat) (m : Mirror) (r : Nat), s.par.ok = true → storeBaseOk s.par base = true →
    s.flc.busy = false → Memory.wf s.unlisted s.mem = true → s.noResetFor r → (s.envAt r).reset = true →
    r < saveTicks s.par →
    ∃ t, runRoutine (saveTicks s.par) (storeSave s.par base m) s = .cut t ∧ t.host.prog = s.host.boot
      ∧ (∀ a, (a < base ∨ base + s.par.pageSize ≤ a) → t.byteAt a = s.byteAt a)
      ∧ ∀ k, guardedTicks 3 s.par.tErasePage + k * guardedTicks 4 s.par.tProgHalf ≤ r →
        r < guardedTicks 3 s.par.tErasePage + (k + 1) * guardedTicks 4 s.par.tProgHalf →
        (∀ j (_ : j < 512), j < k → t.halfAt (base + 2 * j) = m[j])
          ∧ ∀ j, k < j → j < 512 →
            t.byteAt (base + 2 * j) = s.par.erasedByte ∧ t.byteAt (base + 2 * j + 1) = s.par.erasedByte
end

