-- ==== Sys2Proof/Laws/Memory.lean ====
section
/-! SUPPORT. The flash array: what a read after a write or an erase gives, and that every operation keeps the canonical
form. -/

namespace Sys2Proof.Machine

variable {d : Nat → Byte}

/-! ### The canonical form -/

/-- Every listed address is above `n`. -/
def memAbove (n : Nat) (m : Memory) : Prop := ∀ c ∈ m, n < c.1

theorem Memory.wf_cons (k : Nat) (v : Byte) (rest : Memory) :
    Memory.wf d ((k, v) :: rest) = true ↔ v ≠ d k ∧ memAbove k rest ∧ Memory.wf d rest = true := by
  induction rest generalizing k v with
  | nil => simp [Memory.wf, memAbove]
  | cons c rest ih =>
    obtain ⟨k', v'⟩ := c
    rw [Memory.wf]
    simp only [Bool.and_eq_true, bne_iff_ne, decide_eq_true_eq]
    constructor
    · rintro ⟨⟨hv, hk⟩, hr⟩
      refine ⟨hv, ?_, hr⟩
      have hab := ((ih k' v').1 hr).2.1
      intro c hc
      rcases List.mem_cons.1 hc with rfl | hc
      · exact hk
      · exact Nat.lt_trans hk (hab c hc)
    · rintro ⟨hv, hab, hr⟩
      exact ⟨⟨hv, hab (k', v') (List.mem_cons_self ..)⟩, hr⟩

theorem Memory.wf_tail {c : Host.Cell} {rest : Memory} (h : Memory.wf d (c :: rest) = true) :
    Memory.wf d rest = true := ((Memory.wf_cons c.1 c.2 rest).1 h).2.2

/-- An address below every listed one is not listed. -/
theorem memGet_above (m : Memory) (a : Nat) (h : memAbove a m) : memGet d m a = d a := by
  induction m with
  | nil => rfl
  | cons c rest ih =>
    have hc := h c (List.mem_cons_self ..)
    rw [memGet, if_neg (by omega)]
    exact ih fun c hc => h c (List.mem_cons_of_mem _ hc)

/-! ### One byte -/

/-- Reading after writing one byte. -/
theorem memGet_memSet (m : Memory) (hm : Memory.wf d m = true) (a : Nat) (v : Byte) (b : Nat) :
    memGet d (memSet d m a v) b = if b = a then v else memGet d m b := by
  induction m with
  | nil => by_cases hv : v = d a <;> by_cases hb : b = a <;> simp [memSet, memGet, hv, hb]
  | cons c rest ih =>
    obtain ⟨k, x⟩ := c
    obtain ⟨hx, hab, hr⟩ := (Memory.wf_cons k x rest).1 hm
    rw [memSet]
    by_cases h1 : a < k
    · rw [if_pos h1]
      by_cases hv : v = d a
      · rw [if_pos hv]
        by_cases hb : b = a
        · rw [if_pos hb, hb, memGet, if_neg (by omega), memGet_above rest a (fun c hc => Nat.lt_trans h1 (hab c hc)), hv]
        · rw [if_neg hb]
      · rw [if_neg hv, memGet]
    · rw [if_neg h1]
      by_cases h2 : a = k
      · rw [if_pos h2]
        by_cases hv : v = d a
        · rw [if_pos hv]
          by_cases hb : b = a
          · rw [if_pos hb, hb, hv, h2, memGet_above rest k hab]
          · rw [if_neg hb, memGet, if_neg (by omega)]
        · rw [if_neg hv, memGet]
          by_cases hb : b = a
          · rw [if_pos hb, if_pos hb]
          · rw [if_neg hb, if_neg hb, memGet, if_neg (by omega)]
      · rw [if_neg h2, memGet, ih hr, memGet]
        by_cases hb : b = k
        · rw [if_pos hb, if_neg (by omega), if_pos hb]
        · rw [if_neg hb, if_neg hb]

/-- Writing one byte lists no new address but the one written. -/
theorem memSet_addr (m : Memory) (a : Nat) (v : Byte) (c : Host.Cell) (hc : c ∈ memSet d m a v) : c.1 = a ∨ c ∈ m := by
  induction m with
  | nil =>
    rw [memSet] at hc
    split at hc
    · cases hc
    · exact .inl (by rw [List.mem_singleton.1 hc])
  | cons e rest ih =>
    obtain ⟨k, x⟩ := e
    rw [memSet] at hc
    split at hc
    · split at hc
      · exact .inr hc
      · rcases List.mem_cons.1 hc with rfl | hc
        · exact .inl rfl
        · exact .inr hc
    · split at hc
      · split at hc
        · exact .inr (List.mem_cons_of_mem _ hc)
        · rcases List.mem_cons.1 hc with rfl | hc
          · exact .inl rfl
          · exact .inr (List.mem_cons_of_mem _ hc)
      · rcases List.mem_cons.1 hc with rfl | hc
        · exact .inr (List.mem_cons_self ..)
        · exact (ih hc).imp id (List.mem_cons_of_mem _)

/-- Writing one byte keeps the canonical form. -/
theorem Memory.wf_memSet (m : Memory) (hm : Memory.wf d m = true) (a : Nat) (v : Byte) :
    Memory.wf d (memSet d m a v) = true := by
  induction m with
  | nil => by_cases hv : v = d a <;> simp [memSet, Memory.wf, hv]
  | cons c rest ih =>
    obtain ⟨k, x⟩ := c
    obtain ⟨hx, hab, hr⟩ := (Memory.wf_cons k x rest).1 hm
    rw [memSet]
    by_cases h1 : a < k
    · rw [if_pos h1]
      by_cases hv : v = d a
      · rw [if_pos hv]; exact hm
      · rw [if_neg hv]
        refine (Memory.wf_cons ..).2 ⟨hv, ?_, hm⟩
        intro c hc
        rcases List.mem_cons.1 hc with rfl | hc
        · exact h1
        · exact Nat.lt_trans h1 (hab c hc)
    · rw [if_neg h1]
      by_cases h2 : a = k
      · rw [if_pos h2]
        by_cases hv : v = d a
        · rw [if_pos hv]; exact hr
        · rw [if_neg hv]
          exact (Memory.wf_cons ..).2 ⟨hv, by rw [h2]; exact hab, hr⟩
      · rw [if_neg h2]
        refine (Memory.wf_cons ..).2 ⟨hx, ?_, ih hr⟩
        intro c hc
        rcases memSet_addr rest a v c hc with h | h
        · omega
        · exact hab c h

/-! ### A range of bytes -/

/-- Reading after a range was taken off the list. -/
theorem memGet_memErase (m : Memory) (lo n b : Nat) :
    memGet d (memErase lo n m) b = if lo ≤ b ∧ b < lo + n then d b else memGet d m b := by
  induction m with
  | nil => simp [memErase, memGet]
  | cons c rest ih =>
    obtain ⟨k, x⟩ := c
    unfold memErase at ih ⊢
    rw [List.filter_cons]
    by_cases hk : lo ≤ k ∧ k < lo + n
    · rw [if_neg (by simp [hk.1, hk.2]), ih, memGet]
      by_cases hb : lo ≤ b ∧ b < lo + n
      · rw [if_pos hb, if_pos hb]
      · rw [if_neg hb, if_neg hb, if_neg (by omega)]
    · rw [if_pos (by simp; omega), memGet, ih, memGet]
      by_cases hb : b = k
      · rw [if_pos hb, if_pos hb, if_neg (by omega)]
      · rw [if_neg hb, if_neg hb]

theorem memErase_subset (m : Memory) (lo n : Nat) (c : Host.Cell) (hc : c ∈ memErase lo n m) : c ∈ m :=
  (List.mem_filter.1 hc).1

/-- Taking a range off the list keeps the canonical form. -/
theorem Memory.wf_memErase (m : Memory) (hm : Memory.wf d m = true) (lo n : Nat) :
    Memory.wf d (memErase lo n m) = true := by
  induction m with
  | nil => rfl
  | cons c rest ih =>
    obtain ⟨k, x⟩ := c
    obtain ⟨hx, hab, hr⟩ := (Memory.wf_cons k x rest).1 hm
    have := ih hr
    unfold memErase at this ⊢
    rw [List.filter_cons]
    split
    · exact (Memory.wf_cons ..).2 ⟨hx, fun c hc => hab c (List.mem_filter.1 hc).1, this⟩
    · exact this

/-- A write of `n` bytes keeps the canonical form. -/
theorem Memory.wf_memWrite (n a v : Nat) (m : Memory) (hm : Memory.wf d m = true) :
    Memory.wf d (memWrite d n a v m) = true := by
  induction n generalizing a v m with
  | zero => exact hm
  | succ n ih => exact ih _ _ _ (Memory.wf_memSet m hm _ _)

/-- Draws keep the canonical form. -/
theorem Memory.wf_memDraw (n a c : Nat) (m : Memory) (hm : Memory.wf d m = true) :
    Memory.wf d (memDraw d n a c m) = true := by
  induction n generalizing a c m with
  | zero => exact hm
  | succ n ih => exact ih _ _ _ (Memory.wf_memSet m hm _ _)

theorem memWrite_addr (n a v : Nat) (m : Memory) (c : Host.Cell) (hc : c ∈ memWrite d n a v m) :
    (a ≤ c.1 ∧ c.1 < a + n) ∨ c ∈ m := by
  induction n generalizing a v m with
  | zero => exact .inr hc
  | succ n ih =>
    rcases ih _ _ _ hc with h | h
    · exact .inl (by omega)
    · rcases memSet_addr _ _ _ _ h with h | h
      · exact .inl (by omega)
      · exact .inr h

theorem memDraw_addr (n a c' : Nat) (m : Memory) (c : Host.Cell) (hc : c ∈ memDraw d n a c' m) :
    (a ≤ c.1 ∧ c.1 < a + n) ∨ c ∈ m := by
  induction n generalizing a c' m with
  | zero => exact .inr hc
  | succ n ih =>
    rcases ih _ _ _ hc with h | h
    · exact .inl (by omega)
    · rcases memSet_addr _ _ _ _ h with h | h
      · exact .inl (by omega)
      · exact .inr h

/-- Reading after a write of `n` bytes: byte i of the value at `a + i`, everything else as before (20_memory.md R86). -/
theorem memGet_memWrite (n a v : Nat) (m : Memory) (hm : Memory.wf d m = true) (b : Nat) :
    memGet d (memWrite d n a v m) b
      = if a ≤ b ∧ b < a + n then BitVec.ofNat 8 (v / 256 ^ (b - a)) else memGet d m b := by
  induction n generalizing a v m with
  | zero => rw [memWrite, if_neg (by omega)]
  | succ n ih =>
    rw [memWrite, ih _ _ _ (Memory.wf_memSet m hm _ _), memGet_memSet m hm]
    by_cases h : a + 1 ≤ b ∧ b < a + 1 + n
    · rw [if_pos h, if_pos (by omega), Nat.div_div_eq_div_mul, ← Nat.pow_succ']
      congr 3
      omega
    · rw [if_neg h]
      by_cases hb : b = a
      · subst hb; simp
      · rw [if_neg hb, if_neg (by omega)]

/-- Draws leave every byte outside their range as it was. -/
theorem memGet_memDraw (n a c : Nat) (m : Memory) (hm : Memory.wf d m = true) (b : Nat) (hb : b < a ∨ a + n ≤ b) :
    memGet d (memDraw d n a c m) b = memGet d m b := by
  induction n generalizing a c m with
  | zero => rfl
  | succ n ih =>
    rw [memDraw, ih _ _ _ (Memory.wf_memSet m hm _ _) (by omega), memGet_memSet m hm, if_neg (by omega)]

/-- A read of `n` bytes depends on those bytes alone. -/
theorem memRead_congr (m m' : Memory) (n a : Nat) (h : ∀ b, a ≤ b → b < a + n → memGet d m b = memGet d m' b) :
    memRead d m n a = memRead d m' n a := by
  induction n generalizing a with
  | zero => rfl
  | succ n ih =>
    rw [memRead, memRead, h a (by omega) (by omega), ih (a + 1) fun b h1 h2 => h b (by omega) (by omega)]

/-- A read of the `n` bytes just written gives the value, cut to them. -/
theorem memRead_memWrite (n a v : Nat) (m : Memory) (hm : Memory.wf d m = true) :
    memRead d (memWrite d n a v m) n a = v % 256 ^ n := by
  induction n generalizing a v m with
  | zero => simp [memRead, Nat.mod_one]
  | succ n ih =>
    have h0 : memGet d (memWrite d (n + 1) a v m) a = BitVec.ofNat 8 v := by
      rw [memGet_memWrite _ _ _ _ hm, if_pos (by omega)]; simp
    rw [memRead, h0, memWrite, ih _ _ _ (Memory.wf_memSet m hm _ _), BitVec.toNat_ofNat,
      Nat.pow_succ' (n := n) (m := 256), Nat.mod_mul (x := v) (a := 256) (b := 256 ^ n)]

/-- `erased` says that each byte reads as `ERASED_BYTE` (43_flash.md R220). -/
theorem erased_iff (e : Byte) (m : Memory) (n a : Nat) :
    erased e d m n a = true ↔ ∀ b, a ≤ b → b < a + n → memGet d m b = e := by
  induction n generalizing a with
  | zero => simp only [erased, true_iff]; intro b h1 h2; omega
  | succ n ih =>
    rw [erased, Bool.and_eq_true, beq_iff_eq, ih]
    constructor
    · rintro ⟨h0, h1⟩ b hb hb'
      by_cases hba : b = a
      · rw [hba, h0]
      · exact h1 b (by omega) (by omega)
    · intro h
      exact ⟨h a (by omega) (by omega), fun b h1 h2 => h b (by omega) (by omega)⟩

/-! ### An erase of whole pages -/

/-- What a read of an address gives depends on what an unlisted byte reads as at that address alone. -/
theorem memGet_congr {d' : Nat → Byte} (m : Memory) (a : Nat) (h : d' a = d a) : memGet d' m a = memGet d m a := by
  induction m with
  | nil => exact h
  | cons c rest ih => rw [memGet, memGet, ih]

/-- The canonical form depends on what an unlisted byte reads as at the listed addresses alone. -/
theorem Memory.wf_congr {d' : Nat → Byte} (m : Memory) (h : ∀ c ∈ m, d' c.1 = d c.1) (hm : Memory.wf d m = true) :
    Memory.wf d' m = true := by
  induction m with
  | nil => rfl
  | cons c rest ih =>
    obtain ⟨k, x⟩ := c
    obtain ⟨hx, hab, hr⟩ := (Memory.wf_cons k x rest).1 hm
    have hk : d' k = d k := h (k, x) (List.mem_cons_self ..)
    exact (Memory.wf_cons ..).2 ⟨by rw [hk]; exact hx, hab, ih (fun c hc => h c (List.mem_cons_of_mem _ hc)) hr⟩

/-- The `n` bytes at `lo` are whole pages. -/
def WholePages (p : Params) (lo n : Nat) : Prop := ∃ i j, lo = pageStart p i ∧ n = j * p.pageSize

theorem pageSize_pos (p : Params) : 0 < p.pageSize := Nat.two_pow_pos _

/-- A byte lies in a range of whole pages exactly if the first byte of its page does. -/
theorem pageStart_pageOf_iff (p : Params) {lo n a : Nat} (h : WholePages p lo n) (ha : p.flashBase ≤ a) :
    (lo ≤ pageStart p (pageOf p a) ∧ pageStart p (pageOf p a) < lo + n) ↔ (lo ≤ a ∧ a < lo + n) := by
  obtain ⟨i, j, rfl, rfl⟩ := h
  have hp := pageSize_pos p
  obtain ⟨x, rfl⟩ := Nat.exists_eq_add_of_le ha
  have h1 : i * p.pageSize ≤ x / p.pageSize * p.pageSize ↔ i * p.pageSize ≤ x := by
    rw [Nat.mul_le_mul_right_iff hp, Nat.le_div_iff_mul_le hp]
  have h2 : x / p.pageSize * p.pageSize < (i + j) * p.pageSize ↔ x < (i + j) * p.pageSize := by
    rw [Nat.mul_lt_mul_right hp, Nat.div_lt_iff_lt_mul hp]
  unfold pageStart pageOf
  rw [Nat.add_sub_cancel_left]
  rw [Nat.add_mul] at h2
  omega

/-- What an unlisted byte reads as after an erase of whole pages. -/
theorem unlistedByte_pagesErase (p : Params) (u : List Nat) {lo n : Nat} (h : WholePages p lo n) (a : Nat) :
    unlistedByte p (pagesErase p lo n u) a
      = if lo ≤ a ∧ a < lo + n then p.erasedByte else unlistedByte p u a := by
  unfold unlistedByte
  by_cases hw : inWindow p a = true
  · have hb : p.flashBase ≤ a := by
      simp only [inWindow, Bool.and_eq_true, decide_eq_true_eq] at hw
      exact hw.1
    have hi := pageStart_pageOf_iff p h hb
    by_cases hr : lo ≤ a ∧ a < lo + n
    · rw [if_pos hr, if_neg]
      have := hi.2 hr
      simp [pagesErase, this.1, this.2]
    · rw [if_neg hr]
      have hc : (pagesErase p lo n u).contains (pageOf p a) = u.contains (pageOf p a) := by
        rw [Bool.eq_iff_iff, List.contains_iff_mem, List.contains_iff_mem, pagesErase, List.mem_filter]
        have : ¬(lo ≤ pageStart p (pageOf p a) ∧ pageStart p (pageOf p a) < lo + n) := fun h => hr (hi.1 h)
        simp only [Bool.not_eq_true', Bool.and_eq_false_iff, decide_eq_false_iff_not]
        tauto
      rw [hc]
  · rw [Bool.not_eq_true] at hw
    simp [hw]

/-- Reading after an erase of whole pages (43_flash.md R216, R217). -/
theorem State.byteAt_eraseRange (s : State) {lo n : Nat} (h : WholePages s.par lo n) (a : Nat) :
    (s.eraseRange lo n).byteAt a = if lo ≤ a ∧ a < lo + n then s.par.erasedByte else s.byteAt a := by
  have hu := unlistedByte_pagesErase s.par s.unerased h a
  unfold State.byteAt
  rw [State.eraseRange, memGet_memErase]
  by_cases hr : lo ≤ a ∧ a < lo + n
  · rw [if_pos hr, if_pos hr]
    rw [if_pos hr] at hu
    exact hu
  · rw [if_neg hr, if_neg hr]
    rw [if_neg hr] at hu
    exact memGet_congr _ _ hu

/-- An erase of whole pages keeps the canonical form. -/
theorem State.wf_eraseRange (s : State) {lo n : Nat} (h : WholePages s.par lo n) (hm : Memory.wf s.unlisted s.mem = true) :
    Memory.wf (s.eraseRange lo n).unlisted (s.eraseRange lo n).mem = true := by
  refine Memory.wf_congr (d := s.unlisted) _ ?_ (Memory.wf_memErase _ hm lo n)
  intro c hc
  have hr : ¬(lo ≤ c.1 ∧ c.1 < lo + n) := by
    have := (List.mem_filter.1 hc).2
    simp at this
    omega
  exact (unlistedByte_pagesErase s.par s.unerased h c.1).trans (if_neg hr)

/-- Reading after a write of the flash array (20_memory.md R86). -/
theorem State.byteAt_writeFlash (s : State) (n a v : Nat) (hm : Memory.wf s.unlisted s.mem = true) (b : Nat) :
    (s.writeFlash n a v).byteAt b
      = if a ≤ b ∧ b < a + n then BitVec.ofNat 8 (v / 256 ^ (b - a)) else s.byteAt b :=
  memGet_memWrite n a v s.mem hm b

/-- Draws leave every byte outside their range as it was. -/
theorem State.byteAt_drawRange (s : State) (n a : Nat) (hm : Memory.wf s.unlisted s.mem = true) (b : Nat)
    (hb : b < a ∨ a + n ≤ b) : (s.drawRange n a).byteAt b = s.byteAt b :=
  memGet_memDraw n a s.draws s.mem hm b hb

/-- `erased` of the machine says that each byte reads as `ERASED_BYTE` (43_flash.md R220). -/
theorem State.erasedAt_iff (s : State) (n a : Nat) :
    s.erasedAt n a = true ↔ ∀ b, a ≤ b → b < a + n → s.byteAt b = s.par.erasedByte := erased_iff _ _ _ _

theorem page_whole (p : Params) (i : Nat) : WholePages p (pageStart p i) p.pageSize :=
  ⟨i, 1, rfl, (Nat.one_mul _).symm⟩

theorem window_whole (p : Params) : WholePages p p.flashBase p.flashSize :=
  ⟨0, p.numPages, by simp [pageStart], rfl⟩

end Sys2Proof.Machine
end

