-- ==== Sys2Proof/Laws/Params.lean ====
section
/-! SUPPORT. The parameters and the regions of the bus (00_scope.md R9, 20_memory.md R80 to R84). -/

namespace Sys2Proof

theorem Params.ok_iff (p : Params) : p.ok = true ↔ p.Ok := by
  constructor
  · intro h
    simp only [Params.ok, Bool.and_eq_true, Bool.or_eq_true, decide_eq_true_eq, beq_iff_eq, bne_iff_ne] at h
    obtain ⟨h1, h2, h3, h4, h5, h6, h7, h8, h9, h10, h11, h12, h13, h14, h15, h16⟩ := h
    exact ⟨h1, h2, h3, h4, h5, h6, h7, h8, h9, h10, h11, h12, h13, h14, h15, h16⟩
  · rintro ⟨h1, h2, h3, h4, h5, h6, h7, h8, h9, h10, h11, h12, h13, h14, h15, h16⟩
    simp only [Params.ok, Bool.and_eq_true, Bool.or_eq_true, decide_eq_true_eq, beq_iff_eq, bne_iff_ne]
    exact ⟨h1, h2, h3, h4, h5, h6, h7, h8, h9, h10, h11, h12, h13, h14, h15, h16⟩

theorem inWindow_iff (p : Params) (a : Nat) :
    inWindow p a = true ↔ p.flashBase ≤ a ∧ a < p.flashBase + p.flashSize := by
  simp [inWindow]

/-- An address of the flash window is in no register block (20_memory.md R80). -/
theorem regionOf_flash (p : Params) (h : p.Ok) (a : Nat) (ha : inWindow p a = true) : regionOf p a = .flash := by
  have hw := (inWindow_iff p a).1 ha
  have h1 := h.i2cmApart
  have h2 := h.flcApart
  rw [regionOf, if_neg (by omega), if_neg (by omega), if_pos ha]

/-- The two register blocks do not overlap (92_eei_decisions.md D2). -/
theorem blocks_disjoint (p : Params) (h : p.Ok) : p.i2cmBase + 16 ≤ p.flcBase ∨ p.flcBase + 16 ≤ p.i2cmBase := by
  have h1 := h.i2cmAligned
  have h2 := h.flcAligned
  have h3 := h.blocksApart
  omega

theorem regionOf_i2cm (p : Params) (off : Nat) (ho : off < 16) : regionOf p (p.i2cmBase + off) = .i2cm off := by
  rw [regionOf, if_pos (by omega), Nat.add_sub_cancel_left]

theorem regionOf_flc (p : Params) (h : p.Ok) (off : Nat) (ho : off < 16) : regionOf p (p.flcBase + off) = .flc off := by
  have hd := blocks_disjoint p h
  rw [regionOf, if_neg (by omega), if_pos (by omega), Nat.add_sub_cancel_left]

/-- Which region answers, from the address alone. -/
theorem regionOf_cases (p : Params) (a : Nat) :
    (∃ off, off < 16 ∧ a = p.i2cmBase + off ∧ regionOf p a = .i2cm off)
      ∨ (∃ off, off < 16 ∧ a = p.flcBase + off ∧ regionOf p a = .flc off)
      ∨ (inWindow p a = true ∧ regionOf p a = .flash)
      ∨ (inWindow p a = false ∧ regionOf p a = .outside) := by
  unfold regionOf
  split
  · next h => exact .inl ⟨a - p.i2cmBase, by omega, by omega, rfl⟩
  · split
    · next h => exact .inr (.inl ⟨a - p.flcBase, by omega, by omega, rfl⟩)
    · split
      · next h => exact .inr (.inr (.inl ⟨h, rfl⟩))
      · next h => exact .inr (.inr (.inr ⟨by simpa using h, rfl⟩))

/-- The address of a register fits the bus, and its block and offset are what the decoder finds. -/
theorem regionOf_addr (p : Params) (h : p.Ok) (r : Reg) :
    (BitVec.ofNat 32 (r.addr p)).toNat = r.addr p := by
  have h1 := h.i2cmFits
  have h2 := h.flcFits
  cases r <;> simp only [Reg.addr, BitVec.toNat_ofNat] <;> omega

/-- The region of a register. -/
def regRegion : Reg → Region
  | .i2cmCmd => .i2cm 0
  | .i2cmStat => .i2cm 4
  | .i2cmData => .i2cm 8
  | .i2cmDelay => .i2cm 12
  | .flcCmd => .flc 0
  | .flcAddr => .flc 4
  | .flcData => .flc 8
  | .flcStat => .flc 12

theorem regionOf_reg (p : Params) (h : p.Ok) (r : Reg) :
    regionOf p (BitVec.ofNat 32 (r.addr p)).toNat = regRegion r := by
  rw [regionOf_addr p h r]
  cases r
  · exact regionOf_i2cm p 0 (by omega)
  · exact regionOf_i2cm p 4 (by omega)
  · exact regionOf_i2cm p 8 (by omega)
  · exact regionOf_i2cm p 12 (by omega)
  · exact regionOf_flc p h 0 (by omega)
  · exact regionOf_flc p h 4 (by omega)
  · exact regionOf_flc p h 8 (by omega)
  · exact regionOf_flc p h 12 (by omega)

/-- The 32-bit write of a register is the write of that register. -/
theorem decodeAccess_writeOf (p : Params) (h : p.Ok) (r : Reg) (v : Word) :
    decodeAccess p (writeOf p r v) = decodeRegWrite r v := by
  rw [writeOf, decodeAccess, regionOf_reg p h r]
  cases r <;> rfl

/-- The 32-bit read of a register is the read of that register. -/
theorem decodeAccess_readOf (p : Params) (h : p.Ok) (r : Reg) : decodeAccess p (readOf p r) = .readReg r := by
  rw [readOf, decodeAccess, regionOf_reg p h r]
  cases r <;> rfl

end Sys2Proof
end

