-- ==== Sys2Proof/Laws/State.lean ====
section
/-! SUPPORT. One lemma per field per update of the state, each true by `rfl`: no later proof unfolds a record update. -/

namespace Sys2Proof.Machine

@[simp] theorem State.setI2cm_par (s : State) (m : I2cm) : (s.setI2cm m).par = s.par := rfl
@[simp] theorem State.setI2cm_now (s : State) (m : I2cm) : (s.setI2cm m).now = s.now := rfl
@[simp] theorem State.setI2cm_env (s : State) (m : I2cm) : (s.setI2cm m).env = s.env := rfl
@[simp] theorem State.setI2cm_sclP (s : State) (m : I2cm) : (s.setI2cm m).sclP = s.sclP := rfl
@[simp] theorem State.setI2cm_sdaP (s : State) (m : I2cm) : (s.setI2cm m).sdaP = s.sdaP := rfl
@[simp] theorem State.setI2cm_i2cm (s : State) (m : I2cm) : (s.setI2cm m).i2cm = m := rfl
@[simp] theorem State.setI2cm_flc (s : State) (m : I2cm) : (s.setI2cm m).flc = s.flc := rfl
@[simp] theorem State.setI2cm_mem (s : State) (m : I2cm) : (s.setI2cm m).mem = s.mem := rfl
@[simp] theorem State.setI2cm_unerased (s : State) (m : I2cm) : (s.setI2cm m).unerased = s.unerased := rfl
@[simp] theorem State.setI2cm_draws (s : State) (m : I2cm) : (s.setI2cm m).draws = s.draws := rfl
@[simp] theorem State.setI2cm_host (s : State) (m : I2cm) : (s.setI2cm m).host = s.host := rfl

@[simp] theorem State.setFlc_par (s : State) (f : Flc) : (s.setFlc f).par = s.par := rfl
@[simp] theorem State.setFlc_now (s : State) (f : Flc) : (s.setFlc f).now = s.now := rfl
@[simp] theorem State.setFlc_env (s : State) (f : Flc) : (s.setFlc f).env = s.env := rfl
@[simp] theorem State.setFlc_sclP (s : State) (f : Flc) : (s.setFlc f).sclP = s.sclP := rfl
@[simp] theorem State.setFlc_sdaP (s : State) (f : Flc) : (s.setFlc f).sdaP = s.sdaP := rfl
@[simp] theorem State.setFlc_i2cm (s : State) (f : Flc) : (s.setFlc f).i2cm = s.i2cm := rfl
@[simp] theorem State.setFlc_flc (s : State) (f : Flc) : (s.setFlc f).flc = f := rfl
@[simp] theorem State.setFlc_mem (s : State) (f : Flc) : (s.setFlc f).mem = s.mem := rfl
@[simp] theorem State.setFlc_unerased (s : State) (f : Flc) : (s.setFlc f).unerased = s.unerased := rfl
@[simp] theorem State.setFlc_draws (s : State) (f : Flc) : (s.setFlc f).draws = s.draws := rfl
@[simp] theorem State.setFlc_host (s : State) (f : Flc) : (s.setFlc f).host = s.host := rfl

@[simp] theorem State.respond_par (s : State) (r : HostResp) : (s.respond r).par = s.par := rfl
@[simp] theorem State.respond_now (s : State) (r : HostResp) : (s.respond r).now = s.now := rfl
@[simp] theorem State.respond_env (s : State) (r : HostResp) : (s.respond r).env = s.env := rfl
@[simp] theorem State.respond_sclP (s : State) (r : HostResp) : (s.respond r).sclP = s.sclP := rfl
@[simp] theorem State.respond_sdaP (s : State) (r : HostResp) : (s.respond r).sdaP = s.sdaP := rfl
@[simp] theorem State.respond_i2cm (s : State) (r : HostResp) : (s.respond r).i2cm = s.i2cm := rfl
@[simp] theorem State.respond_flc (s : State) (r : HostResp) : (s.respond r).flc = s.flc := rfl
@[simp] theorem State.respond_mem (s : State) (r : HostResp) : (s.respond r).mem = s.mem := rfl
@[simp] theorem State.respond_unerased (s : State) (r : HostResp) : (s.respond r).unerased = s.unerased := rfl
@[simp] theorem State.respond_draws (s : State) (r : HostResp) : (s.respond r).draws = s.draws := rfl
@[simp] theorem State.respond_host (s : State) (r : HostResp) : (s.respond r).host = { s.host with resp := r } := rfl

@[simp] theorem State.eraseRange_par (s : State) (lo n : Nat) : (s.eraseRange lo n).par = s.par := rfl
@[simp] theorem State.eraseRange_now (s : State) (lo n : Nat) : (s.eraseRange lo n).now = s.now := rfl
@[simp] theorem State.eraseRange_env (s : State) (lo n : Nat) : (s.eraseRange lo n).env = s.env := rfl
@[simp] theorem State.eraseRange_sclP (s : State) (lo n : Nat) : (s.eraseRange lo n).sclP = s.sclP := rfl
@[simp] theorem State.eraseRange_sdaP (s : State) (lo n : Nat) : (s.eraseRange lo n).sdaP = s.sdaP := rfl
@[simp] theorem State.eraseRange_i2cm (s : State) (lo n : Nat) : (s.eraseRange lo n).i2cm = s.i2cm := rfl
@[simp] theorem State.eraseRange_flc (s : State) (lo n : Nat) : (s.eraseRange lo n).flc = s.flc := rfl
@[simp] theorem State.eraseRange_mem (s : State) (lo n : Nat) : (s.eraseRange lo n).mem = memErase lo n s.mem := rfl
@[simp] theorem State.eraseRange_unerased (s : State) (lo n : Nat) : (s.eraseRange lo n).unerased = pagesErase s.par lo n s.unerased := rfl
@[simp] theorem State.eraseRange_draws (s : State) (lo n : Nat) : (s.eraseRange lo n).draws = s.draws := rfl
@[simp] theorem State.eraseRange_host (s : State) (lo n : Nat) : (s.eraseRange lo n).host = s.host := rfl

@[simp] theorem State.writeFlash_par (s : State) (n a v : Nat) : (s.writeFlash n a v).par = s.par := rfl
@[simp] theorem State.writeFlash_now (s : State) (n a v : Nat) : (s.writeFlash n a v).now = s.now := rfl
@[simp] theorem State.writeFlash_env (s : State) (n a v : Nat) : (s.writeFlash n a v).env = s.env := rfl
@[simp] theorem State.writeFlash_sclP (s : State) (n a v : Nat) : (s.writeFlash n a v).sclP = s.sclP := rfl
@[simp] theorem State.writeFlash_sdaP (s : State) (n a v : Nat) : (s.writeFlash n a v).sdaP = s.sdaP := rfl
@[simp] theorem State.writeFlash_i2cm (s : State) (n a v : Nat) : (s.writeFlash n a v).i2cm = s.i2cm := rfl
@[simp] theorem State.writeFlash_flc (s : State) (n a v : Nat) : (s.writeFlash n a v).flc = s.flc := rfl
@[simp] theorem State.writeFlash_mem (s : State) (n a v : Nat) : (s.writeFlash n a v).mem = memWrite s.unlisted n a v s.mem := rfl
@[simp] theorem State.writeFlash_unerased (s : State) (n a v : Nat) : (s.writeFlash n a v).unerased = s.unerased := rfl
@[simp] theorem State.writeFlash_draws (s : State) (n a v : Nat) : (s.writeFlash n a v).draws = s.draws := rfl
@[simp] theorem State.writeFlash_host (s : State) (n a v : Nat) : (s.writeFlash n a v).host = s.host := rfl

@[simp] theorem State.drawRange_par (s : State) (n a : Nat) : (s.drawRange n a).par = s.par := rfl
@[simp] theorem State.drawRange_now (s : State) (n a : Nat) : (s.drawRange n a).now = s.now := rfl
@[simp] theorem State.drawRange_env (s : State) (n a : Nat) : (s.drawRange n a).env = s.env := rfl
@[simp] theorem State.drawRange_sclP (s : State) (n a : Nat) : (s.drawRange n a).sclP = s.sclP := rfl
@[simp] theorem State.drawRange_sdaP (s : State) (n a : Nat) : (s.drawRange n a).sdaP = s.sdaP := rfl
@[simp] theorem State.drawRange_i2cm (s : State) (n a : Nat) : (s.drawRange n a).i2cm = s.i2cm := rfl
@[simp] theorem State.drawRange_flc (s : State) (n a : Nat) : (s.drawRange n a).flc = s.flc := rfl
@[simp] theorem State.drawRange_mem (s : State) (n a : Nat) : (s.drawRange n a).mem = memDraw s.unlisted n a s.draws s.mem := rfl
@[simp] theorem State.drawRange_unerased (s : State) (n a : Nat) : (s.drawRange n a).unerased = s.unerased := rfl
@[simp] theorem State.drawRange_draws (s : State) (n a : Nat) : (s.drawRange n a).draws = s.draws + n := rfl
@[simp] theorem State.drawRange_host (s : State) (n a : Nat) : (s.drawRange n a).host = s.host := rfl

@[simp] theorem takeBusFault_par (c : BusFault) (s : State) : (takeBusFault c s).par = s.par := rfl
@[simp] theorem takeBusFault_now (c : BusFault) (s : State) : (takeBusFault c s).now = s.now := rfl
@[simp] theorem takeBusFault_env (c : BusFault) (s : State) : (takeBusFault c s).env = s.env := rfl
@[simp] theorem takeBusFault_sclP (c : BusFault) (s : State) : (takeBusFault c s).sclP = s.sclP := rfl
@[simp] theorem takeBusFault_sdaP (c : BusFault) (s : State) : (takeBusFault c s).sdaP = s.sdaP := rfl
@[simp] theorem takeBusFault_i2cm (c : BusFault) (s : State) : (takeBusFault c s).i2cm = s.i2cm := rfl
@[simp] theorem takeBusFault_flc (c : BusFault) (s : State) : (takeBusFault c s).flc = s.flc := rfl
@[simp] theorem takeBusFault_mem (c : BusFault) (s : State) : (takeBusFault c s).mem = s.mem := rfl
@[simp] theorem takeBusFault_unerased (c : BusFault) (s : State) : (takeBusFault c s).unerased = s.unerased := rfl
@[simp] theorem takeBusFault_draws (c : BusFault) (s : State) : (takeBusFault c s).draws = s.draws := rfl
@[simp] theorem takeBusFault_host (c : BusFault) (s : State) : (takeBusFault c s).host = { s.host with resp := .fault c } := rfl

@[simp] theorem retire_par (l : HostOp) (rest : List HostOp) (s : State) : (retire l rest s).par = s.par := rfl
@[simp] theorem retire_now (l : HostOp) (rest : List HostOp) (s : State) : (retire l rest s).now = s.now := rfl
@[simp] theorem retire_env (l : HostOp) (rest : List HostOp) (s : State) : (retire l rest s).env = s.env := rfl
@[simp] theorem retire_sclP (l : HostOp) (rest : List HostOp) (s : State) : (retire l rest s).sclP = s.sclP := rfl
@[simp] theorem retire_sdaP (l : HostOp) (rest : List HostOp) (s : State) : (retire l rest s).sdaP = s.sdaP := rfl
@[simp] theorem retire_i2cm (l : HostOp) (rest : List HostOp) (s : State) : (retire l rest s).i2cm = s.i2cm := rfl
@[simp] theorem retire_flc (l : HostOp) (rest : List HostOp) (s : State) : (retire l rest s).flc = s.flc := rfl
@[simp] theorem retire_mem (l : HostOp) (rest : List HostOp) (s : State) : (retire l rest s).mem = s.mem := rfl
@[simp] theorem retire_unerased (l : HostOp) (rest : List HostOp) (s : State) : (retire l rest s).unerased = s.unerased := rfl
@[simp] theorem retire_draws (l : HostOp) (rest : List HostOp) (s : State) : (retire l rest s).draws = s.draws := rfl
@[simp] theorem retire_host (l : HostOp) (rest : List HostOp) (s : State) : (retire l rest s).host = { s.host with prog := progAfter l rest s.host.resp } := rfl

@[simp] theorem perform_scl_fields (d b : Bool) (m : I2cm) : perform d (.scl b) m = { m with sclO := b } := rfl
@[simp] theorem perform_sda_fields (d b : Bool) (m : I2cm) : perform d (.sda b) m = { m with sdaO := b } := rfl

/-- A micro-operation touches the drives, `sda_in` and the accumulator only (40_bitio.md R144, R145, R146). -/
theorem perform_frame (d : Bool) (op : MicroOp) (m : I2cm) :
    (perform d op m).busy = m.busy ∧ (perform d op m).curOp = m.curOp ∧ (perform d op m).curArg = m.curArg
      ∧ (perform d op m).steps = m.steps ∧ (perform d op m).k = m.k ∧ (perform d op m).dq = m.dq
      ∧ (perform d op m).waitCnt = m.waitCnt ∧ (perform d op m).owned = m.owned ∧ (perform d op m).rxdata = m.rxdata
      ∧ (perform d op m).ack = m.ack ∧ (perform d op m).nackf = m.nackf ∧ (perform d op m).cmderr = m.cmderr
      ∧ (perform d op m).busyerr = m.busyerr ∧ (perform d op m).seqerr = m.seqerr ∧ (perform d op m).delay = m.delay := by
  cases op <;> simp [perform]

end Sys2Proof.Machine
end

