-- ==== Sys2Proof/Laws/Ops.lean ====
section
/-! SUPPORT. What each shared operation can do, said once: issuing a command, one tick of a unit, reset, the host's turn and
the step. -/

namespace Sys2Proof.Machine

/-! ### Issuing -/

/-- What issuing an I2CM command does to the unit (60_exceptions.md R280). -/
theorem issueI2cm_i2cm (op : BitVec 4) (arg : Byte) (steps : List MicroOp) (cl : Bool) (s : State) :
    (issueI2cm op arg steps cl s).i2cm
      = if s.i2cm.busy then { s.i2cm with busyerr := true } else acceptI2cm op arg steps cl s.i2cm := rfl

/-- Issuing an I2CM command touches the unit and the answer only. -/
theorem issueI2cm_frame (op : BitVec 4) (arg : Byte) (steps : List MicroOp) (cl : Bool) (s : State) :
    (issueI2cm op arg steps cl s).par = s.par ∧ (issueI2cm op arg steps cl s).now = s.now
      ∧ (issueI2cm op arg steps cl s).env = s.env ∧ (issueI2cm op arg steps cl s).sclP = s.sclP
      ∧ (issueI2cm op arg steps cl s).sdaP = s.sdaP ∧ (issueI2cm op arg steps cl s).flc = s.flc
      ∧ (issueI2cm op arg steps cl s).mem = s.mem
      ∧ (issueI2cm op arg steps cl s).unerased = s.unerased ∧ (issueI2cm op arg steps cl s).draws = s.draws
      ∧ (issueI2cm op arg steps cl s).host = { s.host with resp := .written } :=
  ⟨rfl, rfl, rfl, rfl, rfl, rfl, rfl, rfl, rfl, rfl⟩

/-- What issuing a mutating FLC command does to the unit (R281). -/
theorem issueFlc_flc (op : BitVec 4) (ok pf : Bool) (t : Nat) (s : State) :
    (issueFlc op ok pf t s).flc
      = if s.flc.busy then { s.flc with busyerr := true }
        else if s.flc.locked then { s.flc with lockerr := true }
        else if ok then acceptFlc op pf t s.flc else { s.flc with addrerr := true } := rfl

/-- Issuing a mutating FLC command touches the unit and the answer only. -/
theorem issueFlc_frame (op : BitVec 4) (ok pf : Bool) (t : Nat) (s : State) :
    (issueFlc op ok pf t s).par = s.par ∧ (issueFlc op ok pf t s).now = s.now
      ∧ (issueFlc op ok pf t s).env = s.env ∧ (issueFlc op ok pf t s).sclP = s.sclP
      ∧ (issueFlc op ok pf t s).sdaP = s.sdaP ∧ (issueFlc op ok pf t s).i2cm = s.i2cm
      ∧ (issueFlc op ok pf t s).mem = s.mem
      ∧ (issueFlc op ok pf t s).unerased = s.unerased ∧ (issueFlc op ok pf t s).draws = s.draws
      ∧ (issueFlc op ok pf t s).host = { s.host with resp := .written } :=
  ⟨rfl, rfl, rfl, rfl, rfl, rfl, rfl, rfl, rfl, rfl⟩

/-- What UNLOCK and LOCK do to the unit (43_flash.md R214, R215). -/
theorem issueLock_flc (lock : Bool) (s : State) :
    (issueLock lock s).flc = if s.flc.busy then { s.flc with busyerr := true } else { s.flc with locked := lock } := rfl

/-- A flash read answers one of four things, by the window, the alignment and BUSY, and changes the answer to the host
only (43_flash.md R211, R212, R213). -/
theorem readFlash_next {w : Width} {n : Nat} {a : Word} {s t : State} (h : readFlash w n a s = .next t) :
    inWindow s.par a.toNat = true ∧
      ((a.toNat % n ≠ 0 ∧ t = takeBusFault .align s)
        ∨ (a.toNat % n = 0 ∧ s.flc.busy = true ∧ t = s.respond .stalled)
        ∨ (a.toNat % n = 0 ∧ s.flc.busy = false
            ∧ t = s.respond (.data w (BitVec.ofNat 32 (s.readBytes n a.toNat))))) := by
  unfold readFlash at h
  split at h
  · next hw =>
    refine ⟨hw, ?_⟩
    split at h
    · next hn =>
      split at h
      · next hb => exact .inr (.inl ⟨hn, hb, by injection h with h; exact h.symm⟩)
      · next hb => exact .inr (.inr ⟨hn, by simpa using hb, by injection h with h; exact h.symm⟩)
    · next hn => exact .inl ⟨hn, by injection h with h; exact h.symm⟩
  · cases h

/-! ### The I2CM sequencer -/

/-- One tick of the sequencer is one of four things (40_bitio.md R142): nothing, a tick of the countdown, a micro-step, a
completion. -/
theorem i2cmTick_cases (d : Bool) (m : I2cm) :
    (m.busy = false ∧ i2cmTick d m = m)
      ∨ (m.busy = true ∧ 2 ≤ m.waitCnt ∧ i2cmTick d m = { m with waitCnt := m.waitCnt - 1 })
      ∨ (m.busy = true ∧ m.waitCnt ≤ 1 ∧ ∃ op, m.steps[m.k]? = some op
          ∧ i2cmTick d m = { perform d op m with k := m.k + 1, waitCnt := m.dq.toNat })
      ∨ (m.busy = true ∧ m.waitCnt ≤ 1 ∧ m.steps[m.k]? = none
          ∧ i2cmTick d m = { completeI2cm m with busy := false, k := 0, waitCnt := 0 }) := by
  unfold i2cmTick
  by_cases hb : m.busy = true
  · rw [if_pos hb]
    by_cases hw : m.waitCnt - 1 = 0
    · rw [if_pos hw]
      cases hs : m.steps[m.k]? with
      | none => exact .inr (.inr (.inr ⟨hb, by omega, rfl, rfl⟩))
      | some op => exact .inr (.inr (.inl ⟨hb, by omega, op, rfl, rfl⟩))
    · rw [if_neg hw]
      exact .inr (.inl ⟨hb, by omega, rfl⟩)
  · rw [if_neg hb]
    exact .inl ⟨by simpa using hb, rfl⟩

/-- A completion touches OWNED, RXDATA, ACK and NACKF only (R142, 41_i2c_protocol.md R161, R162, R163, R165, R167). -/
theorem completeI2cm_frame (m : I2cm) :
    completeI2cm m = { m with
      owned := (completeI2cm m).owned, rxdata := (completeI2cm m).rxdata
      ack := (completeI2cm m).ack, nackf := (completeI2cm m).nackf } := by
  unfold completeI2cm
  split
  · rfl
  · split
    · rfl
    · split
      · rfl
      · split
        · rfl
        · split <;> rfl

/-- What the sequencer never touches in a tick. -/
theorem i2cmTick_frame (d : Bool) (m : I2cm) :
    (i2cmTick d m).cmderr = m.cmderr ∧ (i2cmTick d m).busyerr = m.busyerr ∧ (i2cmTick d m).seqerr = m.seqerr
      ∧ (i2cmTick d m).delay = m.delay ∧ (i2cmTick d m).curOp = m.curOp ∧ (i2cmTick d m).curArg = m.curArg
      ∧ (i2cmTick d m).steps = m.steps ∧ (i2cmTick d m).dq = m.dq := by
  rcases i2cmTick_cases d m with ⟨-, h⟩ | ⟨-, -, h⟩ | ⟨-, -, op, -, h⟩ | ⟨-, -, -, h⟩
  · rw [h]; simp
  · rw [h]; simp
  · rw [h]
    obtain ⟨-, h2, h3, h4, -, h6, -, -, -, -, -, h12, h13, h14, h15⟩ := perform_frame d op m
    exact ⟨h12, h13, h14, h15, h2, h3, h4, h6⟩
  · rw [h, completeI2cm_frame]; simp

/-! ### The FLC engine -/

/-- One tick of the FLC is one of three things (43_flash.md R221): nothing, a tick of the countdown, a completion. -/
theorem flcTick_cases (s : State) :
    (s.flc.busy = false ∧ flcTick s = s)
      ∨ (s.flc.busy = true ∧ 2 ≤ s.flc.remaining
          ∧ flcTick s = s.setFlc { s.flc with remaining := s.flc.remaining - 1 })
      ∨ (s.flc.busy = true ∧ s.flc.remaining ≤ 1 ∧ flcTick s = (flcEffect s).setFlc (finishFlc s.flc)) := by
  unfold flcTick
  by_cases hb : s.flc.busy = true
  · rw [if_pos hb]
    by_cases hr : s.flc.remaining - 1 = 0
    · rw [if_pos hr]; exact .inr (.inr ⟨hb, by omega, rfl⟩)
    · rw [if_neg hr]; exact .inr (.inl ⟨hb, by omega, rfl⟩)
  · rw [if_neg hb]; exact .inl ⟨by simpa using hb, rfl⟩

/-- An FLC effect touches the flash array and the count of draws only. -/
theorem flcEffect_frame (s : State) :
    flcEffect s = { s with
      mem := (flcEffect s).mem, unerased := (flcEffect s).unerased, draws := (flcEffect s).draws } := by
  unfold flcEffect
  split
  · rfl
  · split
    · rfl
    · split
      · unfold effectProgHalf; split <;> rfl
      · split
        · unfold effectProgWord; split <;> rfl
        · rfl

/-- What the FLC never touches in a tick. -/
theorem flcTick_frame (s : State) :
    (flcTick s).par = s.par ∧ (flcTick s).now = s.now ∧ (flcTick s).env = s.env ∧ (flcTick s).sclP = s.sclP
      ∧ (flcTick s).sdaP = s.sdaP ∧ (flcTick s).i2cm = s.i2cm ∧ (flcTick s).host = s.host := by
  rcases flcTick_cases s with ⟨-, h⟩ | ⟨-, -, h⟩ | ⟨-, -, h⟩
  · rw [h]; simp
  · rw [h]; simp
  · rw [h, flcEffect_frame]; simp

/-- The parts of a tick before the host's turn that the FLC does not touch (10_state.md R31). -/
theorem unitsTick_frame (s : State) :
    (unitsTick s).par = s.par ∧ (unitsTick s).now = s.now + 1 ∧ (unitsTick s).env = s.env.tail
      ∧ (unitsTick s).sclP = (s.envAt 0).sclP ∧ (unitsTick s).sdaP = (s.envAt 0).sdaP
      ∧ (unitsTick s).i2cm = i2cmTick (s.envAt 0).sdaP s.i2cm ∧ (unitsTick s).host = s.host := by
  obtain ⟨h1, h2, h3, h4, h5, h6, h7⟩ := flcTick_frame
    { s with
      now := s.now + 1, env := s.env.tail, sclP := (s.envAt 0).sclP, sdaP := (s.envAt 0).sdaP
      i2cm := i2cmTick (s.envAt 0).sdaP s.i2cm }
  exact ⟨h1, h2, h3, h4, h5, h6, h7⟩

/-! ### The host's turn and the step -/

/-- The only ways the host's access changes the I2CM unit (60_exceptions.md R280, 10_state.md R51, R53). -/
inductive HostI2cm (m : I2cm) : I2cm → Prop
  | same : HostI2cm m m
  | refused : m.busy = true → HostI2cm m { m with busyerr := true }
  | invalid : m.busy = false → HostI2cm m { m with cmderr := true }
  | accepted (op : BitVec 4) (arg : Byte) (cl : Bool) : m.busy = false → 1 ≤ op.toNat → op.toNat ≤ 10 →
      HostI2cm m (acceptI2cm op arg (microSteps op arg) cl m)
  | clear (v : Word) : HostI2cm m (i2cmClear v m)
  | delay (v : Word) : HostI2cm m (i2cmSetDelay v m)

/-- The only ways the host's access changes the FLC unit (60_exceptions.md R281, 10_state.md R61, R62, R71). -/
inductive HostFlc (s : State) : Flc → Prop
  | same : HostFlc s s.flc
  | refused : s.flc.busy = true → HostFlc s { s.flc with busyerr := true }
  | invalid : s.flc.busy = false → HostFlc s { s.flc with cmderr := true }
  | locked : s.flc.busy = false → s.flc.locked = true → HostFlc s { s.flc with lockerr := true }
  | address : s.flc.busy = false → s.flc.locked = false → HostFlc s { s.flc with addrerr := true }
  | setLock (b : Bool) : s.flc.busy = false → HostFlc s { s.flc with locked := b }
  | erasePage : s.flc.busy = false → s.flc.locked = false → erasePageAddrOk s.par s.flc.addr.toNat = true →
      HostFlc s (acceptFlc opErasePage false s.par.tErasePage s.flc)
  | eraseAll : s.flc.busy = false → s.flc.locked = false →
      HostFlc s (acceptFlc opEraseAll false s.par.tEraseAll s.flc)
  | progHalf : s.flc.busy = false → s.flc.locked = false → progHalfAddrOk s.par s.flc.addr.toNat = true →
      HostFlc s (acceptFlc opProgHalf (!s.erasedAt 2 s.flc.addr.toNat) s.par.tProgHalf s.flc)
  | progWord : s.flc.busy = false → s.flc.locked = false → progWordAddrOk s.par s.flc.addr.toNat = true →
      HostFlc s (acceptFlc opProgWord (!s.erasedAt 4 s.flc.addr.toNat) s.par.tProgWord s.flc)
  | clear (v : Word) : HostFlc s (flcClear v s.flc)
  | addr (v : Word) : HostFlc s (flcSetAddr v s.flc)
  | data (v : Word) : HostFlc s (flcSetData v s.flc)

/-- What the host's turn can do to the machine: the units by `HostI2cm` and `HostFlc`, and nothing but them and its own
port. -/
structure HostStep (s t : State) : Prop where
  par : t.par = s.par
  now : t.now = s.now
  env : t.env = s.env
  sclP : t.sclP = s.sclP
  sdaP : t.sdaP = s.sdaP
  mem : t.mem = s.mem
  unerased : t.unerased = s.unerased
  draws : t.draws = s.draws
  i2cm : HostI2cm s.i2cm t.i2cm
  flc : HostFlc s t.flc

theorem HostStep.of_respond (s : State) (r : HostResp) : HostStep s (s.respond r) :=
  ⟨rfl, rfl, rfl, rfl, rfl, rfl, rfl, rfl, .same, .same⟩

theorem HostStep.of_i2cm (s : State) (m : I2cm) (r : HostResp) (h : HostI2cm s.i2cm m) :
    HostStep s ((s.setI2cm m).respond r) := ⟨rfl, rfl, rfl, rfl, rfl, rfl, rfl, rfl, h, .same⟩

theorem HostStep.of_flc (s : State) (f : Flc) (r : HostResp) (h : HostFlc s f) : HostStep s ((s.setFlc f).respond r) :=
  ⟨rfl, rfl, rfl, rfl, rfl, rfl, rfl, rfl, .same, h⟩

theorem HostStep.of_issueI2cm (op : BitVec 4) (arg : Byte) (cl : Bool) (s : State) (h1 : 1 ≤ op.toNat)
    (h2 : op.toNat ≤ 10) : HostStep s (issueI2cm op arg (microSteps op arg) cl s) := by
  refine HostStep.of_i2cm s _ _ ?_
  split
  · next h => exact .refused h
  · next h => exact .accepted op arg cl (by simpa using h) h1 h2

theorem HostStep.of_readFlash {w : Width} {n : Nat} {a : Word} {s t : State} (h : readFlash w n a s = .next t) :
    HostStep s t := by
  rcases (readFlash_next h).2 with ⟨-, rfl⟩ | ⟨-, -, rfl⟩ | ⟨-, -, rfl⟩
  · exact .of_respond s _
  · exact .of_respond s _
  · exact .of_respond s _

theorem HostStep.of_issueFlc (op : BitVec 4) (ok pf : Bool) (t : Nat) (s : State)
    (h : s.flc.busy = false → s.flc.locked = false → ok = true → HostFlc s (acceptFlc op pf t s.flc)) :
    HostStep s (issueFlc op ok pf t s) := by
  refine HostStep.of_flc s _ _ ?_
  by_cases hb : s.flc.busy = true
  · rw [if_pos hb]; exact .refused hb
  · rw [if_neg hb]
    have hb' : s.flc.busy = false := by simpa using hb
    by_cases hl : s.flc.locked = true
    · rw [if_pos hl]; exact .locked hb' hl
    · rw [if_neg hl]
      have hl' : s.flc.locked = false := by simpa using hl
      by_cases ho : ok = true
      · rw [if_pos ho]; exact h hb' hl' ho
      · rw [if_neg ho]; exact .address hb' hl'

theorem HostStep.of_issueLock (b : Bool) (s : State) : HostStep s (issueLock b s) := by
  refine HostStep.of_flc s _ _ ?_
  split
  · next h => exact .refused h
  · next h => exact .setLock b (by simpa using h)

/-- Everything an instruction can do when the host issues it. -/
theorem HostStep.of_exec {i : Instr} {s t : State} (h : exec i s = .next t) : HostStep s t := by
  cases i with
  | i2cInit => injection h with h; subst h; exact .of_issueI2cm opInit 0 false s (by decide) (by decide)
  | i2cStart => injection h with h; subst h; exact .of_issueI2cm opStart 0 false s (by decide) (by decide)
  | i2cStop => injection h with h; subst h; exact .of_issueI2cm opStop 0 true s (by decide) (by decide)
  | i2cSendb b => injection h with h; subst h; exact .of_issueI2cm opSendByte b true s (by decide) (by decide)
  | i2cRecvb => injection h with h; subst h; exact .of_issueI2cm opRecvByte 0 true s (by decide) (by decide)
  | i2cSack a =>
    injection h with h; subst h
    cases a
    · exact .of_issueI2cm opSendAck 0 true s (by decide) (by decide)
    · exact .of_issueI2cm opSendAck 1 true s (by decide) (by decide)
  | i2cRack => injection h with h; subst h; exact .of_issueI2cm opRecvAck 0 true s (by decide) (by decide)
  | i2cWscl b =>
    injection h with h; subst h
    cases b
    · exact .of_issueI2cm opWriteScl 0 false s (by decide) (by decide)
    · exact .of_issueI2cm opWriteScl 1 false s (by decide) (by decide)
  | i2cWsda b =>
    injection h with h; subst h
    cases b
    · exact .of_issueI2cm opWriteSda 0 false s (by decide) (by decide)
    · exact .of_issueI2cm opWriteSda 1 false s (by decide) (by decide)
  | i2cRsda => injection h with h; subst h; exact .of_issueI2cm opReadSda 0 false s (by decide) (by decide)
  | flcUnlock => injection h with h; subst h; exact .of_issueLock false s
  | flcLock => injection h with h; subst h; exact .of_issueLock true s
  | flcErasep => injection h with h; subst h; exact .of_issueFlc _ _ _ _ s fun h1 h2 h3 => .erasePage h1 h2 h3
  | flcErasea => injection h with h; subst h; exact .of_issueFlc _ _ _ _ s fun h1 h2 _ => .eraseAll h1 h2
  | flcProgh => injection h with h; subst h; exact .of_issueFlc _ _ _ _ s fun h1 h2 h3 => .progHalf h1 h2 h3
  | flcProgw => injection h with h; subst h; exact .of_issueFlc _ _ _ _ s fun h1 h2 h3 => .progWord h1 h2 h3
  | rdB a => exact .of_readFlash h
  | rdH a => exact .of_readFlash h
  | rdW a => exact .of_readFlash h

theorem HostStep.of_rejectI2cm (s : State) : HostStep s (rejectI2cm s) := by
  refine HostStep.of_i2cm s _ _ ?_
  split
  · next h => exact .refused h
  · next h => exact .invalid (by simpa using h)

theorem HostStep.of_rejectFlc (s : State) : HostStep s (rejectFlc s) := by
  refine HostStep.of_flc s _ _ ?_
  split
  · next h => exact .refused h
  · next h => exact .invalid (by simpa using h)

theorem HostStep.of_writeReg (r : Reg) (v : Word) (s : State) : HostStep s (writeReg r v s) := by
  cases r
  · exact .of_respond s _
  · exact .of_i2cm s _ _ (.clear v)
  · exact .of_respond s _
  · exact .of_i2cm s _ _ (.delay v)
  · exact .of_respond s _
  · exact .of_flc s _ _ (.addr v)
  · exact .of_flc s _ _ (.data v)
  · exact .of_flc s _ _ (.clear v)

/-- Everything one access can do. -/
theorem HostStep.of_performAccess {a : Access} {s t : State} (h : performAccess a s = .next t) : HostStep s t := by
  unfold performAccess at h
  cases hd : decodeAccess s.par a with
  | instr i => rw [hd] at h; exact .of_exec h
  | badCommand u e =>
    rw [hd] at h; injection h with h; subst h
    cases u
    · exact .of_rejectI2cm s
    · exact .of_rejectFlc s
  | readReg r => rw [hd] at h; injection h with h; subst h; exact .of_respond s _
  | writeReg r v => rw [hd] at h; injection h with h; subst h; exact .of_writeReg r v s
  | fault c => rw [hd] at h; injection h with h; subst h; exact .of_respond s _
  | outside => rw [hd] at h; cases h

theorem HostStep.retire {s t : State} (h : HostStep s t) (l : HostOp) (rest : List HostOp) :
    HostStep s (retire l rest t) :=
  ⟨h.par, h.now, h.env, h.sclP, h.sdaP, h.mem, h.unerased, h.draws, h.i2cm, h.flc⟩

theorem HostStep.of_retireOutcome {s t : State} {l : HostOp} {rest : List HostOp}
    {o : Host.Outcome State Fault Refusal} (ho : ∀ u, o = .next u → HostStep s u)
    (h : retireOutcome l rest o = .next t) : HostStep s t := by
  cases o with
  | next u => injection h with h; subst h; exact (ho u rfl).retire l rest
  | fault r => cases h
  | refused r => cases h

/-- Everything the host's turn can do. -/
theorem HostStep.of_hostTurn {s t : State} (h : hostTurn s = .next t) : HostStep s t := by
  unfold hostTurn at h
  split at h
  · injection h with h; subst h; exact .of_respond s _
  · injection h with h; subst h; exact (HostStep.of_respond s _).retire _ _
  · exact .of_retireOutcome (fun u hu => .of_performAccess hu) h
  · exact .of_retireOutcome (fun u hu => .of_performAccess hu) h

/-- Everything one step can do: a reset tick, or the units and then the host (10_state.md R31). -/
theorem step_cases {s t : State} (h : step s = .next t) :
    s.par.ok = true ∧
      (((s.envAt 0).reset = true ∧ t = resetTick s)
        ∨ ((s.envAt 0).reset = false ∧ hostTurn (unitsTick s) = .next t ∧ HostStep (unitsTick s) t)) := by
  unfold step at h
  split at h
  · next hp =>
    refine ⟨hp, ?_⟩
    unfold tick at h
    split at h
    · next hr => exact .inl ⟨hr, by injection h with h; exact h.symm⟩
    · next hr => exact .inr ⟨by simpa using hr, h, .of_hostTurn h⟩
  · cases h

/-- A reset tick (70_reset_and_hazards.md R310). -/
theorem resetTick_fields (s : State) :
    (resetTick s).par = s.par ∧ (resetTick s).now = s.now + 1 ∧ (resetTick s).env = s.env.tail
      ∧ (resetTick s).i2cm = I2cm.reset ∧ (resetTick s).flc = Flc.reset
      ∧ (resetTick s).mem = (resetFlash s).mem ∧ (resetTick s).unerased = s.unerased
      ∧ (resetTick s).host = { s.host with prog := s.host.boot, resp := .none } := by
  unfold resetTick resetFlash
  split <;> exact ⟨rfl, rfl, rfl, rfl, rfl, rfl, rfl, rfl⟩

/-! ### Runs -/

theorem run_zero (s : State) : Host.Core.run Sys2Proof.core 0 s = .next s := rfl

/-- A run of `n + 1` steps of any machine is one step and a run of `n`. -/
theorem core_run_succ (M : Host.Core) (n : Nat) (s t : M.State) (h : M.run (n + 1) s = .next t) :
    ∃ u, M.step s = .next u ∧ M.run n u = .next t := by
  rw [Host.Core.run] at h
  split at h
  · next u hu => exact ⟨u, hu, h⟩
  · cases h
  · cases h

/-- A run of `n + 1` ticks is one tick and a run of `n`. -/
theorem run_succ {n : Nat} {s t : State} (h : Host.Core.run Sys2Proof.core (n + 1) s = .next t) :
    ∃ u, step s = .next u ∧ Host.Core.run Sys2Proof.core n u = .next t :=
  core_run_succ Sys2Proof.core n s t h

/-- One step and a run of `n` are a run of `n + 1`, for any machine. -/
theorem core_run_of_step (M : Host.Core) (n : Nat) (s u t : M.State) (hs : M.step s = .next u)
    (h : M.run n u = .next t) : M.run (n + 1) s = .next t := by
  rw [Host.Core.run, hs]
  exact h

/-- One tick and a run of `n` are a run of `n + 1`. -/
theorem run_of_step {n : Nat} {s u t : State} (hs : step s = .next u)
    (h : Host.Core.run Sys2Proof.core n u = .next t) : Host.Core.run Sys2Proof.core (n + 1) s = .next t :=
  core_run_of_step Sys2Proof.core n s u t hs h

/-- The environment moves on by one tick, whatever the step does. -/
theorem step_envAt {s t : State} (h : step s = .next t) (j : Nat) : t.envAt j = s.envAt (j + 1) := by
  have key : t.env = s.env.tail ∧ t.now = s.now + 1 := by
    rcases (step_cases h).2 with ⟨-, rfl⟩ | ⟨-, -, hs⟩
    · exact ⟨(resetTick_fields s).2.2.1, (resetTick_fields s).2.1⟩
    · exact ⟨hs.env.trans (unitsTick_frame s).2.2.1, hs.now.trans (unitsTick_frame s).2.1⟩
  unfold State.envAt
  rw [key.1, key.2]
  have : s.now + 1 + j = s.now + (j + 1) := by omega
  rw [this]
  cases s.env <;> simp

end Sys2Proof.Machine
end

