-- ==== Sys2Proof/Laws/Engine.lean ====
section
/-! SUPPORT. Many ticks: what the I2CM sequencer and the FLC engine are after n ticks of a command, whatever the host does
meanwhile; and that a machine whose host has nothing to do runs for ever. -/

namespace Sys2Proof.Machine

/-! ### The part of the I2CM unit that the host cannot touch while it is busy -/

/-- The unit with the fields blanked that a host access can change while it is busy: the sticky flags and the delay. -/
def I2cm.view (m : I2cm) : I2cm :=
  { m with nackf := false, cmderr := false, busyerr := false, seqerr := false, delay := 0 }

theorem I2cm.view_eq_iff (m m' : I2cm) :
    m.view = m'.view ↔ m.sclO = m'.sclO ∧ m.sdaO = m'.sdaO ∧ m.busy = m'.busy ∧ m.curOp = m'.curOp
      ∧ m.curArg = m'.curArg ∧ m.steps = m'.steps ∧ m.k = m'.k ∧ m.dq = m'.dq ∧ m.waitCnt = m'.waitCnt
      ∧ m.acc = m'.acc ∧ m.owned = m'.owned ∧ m.rxdata = m'.rxdata ∧ m.sdaIn = m'.sdaIn ∧ m.ack = m'.ack := by
  cases m; cases m'; simp [I2cm.view]

/-- While the unit is busy, no host access changes more than that. -/
theorem HostI2cm.view_eq {m m' : I2cm} (h : HostI2cm m m') (hb : m.busy = true) : m'.view = m.view := by
  cases h with
  | same => rfl
  | refused _ => rfl
  | invalid hb' => rw [hb] at hb'; cases hb'
  | accepted _ _ _ hb' => rw [hb] at hb'; cases hb'
  | clear v => rfl
  | delay v => rfl

/-- A host access never sets NACKF, and none to a busy unit sets CMDERR or SEQERR (60_exceptions.md R280, R282). -/
theorem HostI2cm.sticky {m m' : I2cm} (h : HostI2cm m m') :
    (m'.nackf = true → m.nackf = true)
      ∧ (m.busy = true → (m'.cmderr = true → m.cmderr = true) ∧ (m'.seqerr = true → m.seqerr = true)) := by
  cases h with
  | same => exact ⟨id, fun _ => ⟨id, id⟩⟩
  | refused _ => exact ⟨id, fun _ => ⟨id, id⟩⟩
  | invalid h => exact ⟨id, fun hb => by rw [hb] at h; cases h⟩
  | accepted _ _ _ h => exact ⟨id, fun hb => by rw [hb] at h; cases h⟩
  | clear v => simp +contextual [i2cmClear]
  | delay v => exact ⟨id, fun _ => ⟨id, id⟩⟩

/-- A tick that does not complete a command leaves NACKF. -/
theorem i2cmTick_nackf (d : Bool) (m : I2cm) (hb : (i2cmTick d m).busy = true) : (i2cmTick d m).nackf = m.nackf := by
  rcases i2cmTick_cases d m with ⟨-, h⟩ | ⟨-, -, h⟩ | ⟨-, -, op, -, h⟩ | ⟨-, -, -, h⟩
  · rw [h]
  · rw [h]
  · rw [h]
    exact (perform_frame d op m).2.2.2.2.2.2.2.2.2.2.1
  · rw [h] at hb; cases hb

theorem perform_view (d : Bool) (op : MicroOp) (m : I2cm) : (perform d op m).view = perform d op m.view := by
  cases op <;> rfl

theorem completeI2cm_view (m : I2cm) : (completeI2cm m).view = (completeI2cm m.view).view := by
  unfold completeI2cm
  rw [show m.view.curOp = m.curOp from rfl]
  split
  · rfl
  · split
    · rfl
    · split
      · rfl
      · split
        · rfl
        · split <;> rfl

/-- A tick of the sequencer acts on that part alone. -/
theorem i2cmTick_view (d : Bool) (m m' : I2cm) (h : m.view = m'.view) : (i2cmTick d m).view = (i2cmTick d m').view := by
  have key : ∀ m : I2cm, (i2cmTick d m).view = (i2cmTick d m.view).view := by
    intro m
    unfold i2cmTick
    rw [show m.view.busy = m.busy from rfl, show m.view.waitCnt = m.waitCnt from rfl,
      show m.view.steps = m.steps from rfl, show m.view.k = m.k from rfl]
    split
    · split
      · split
        · next op _ =>
          have := perform_view d op m
          rw [I2cm.view_eq_iff]
          simp only [I2cm.view] at this ⊢
          rw [← this]
          simp
        · have := completeI2cm_view m
          rw [I2cm.view_eq_iff] at this ⊢
          obtain ⟨h1, h2, -, h4, h5, h6, -, h8, -, h10, h11, h12, h13, h14⟩ := this
          exact ⟨h1, h2, rfl, h4, h5, h6, rfl, h8, rfl, h10, h11, h12, h13, h14⟩
      · rfl
    · rfl
  rw [key m, key m', h]

/-! ### The sequencer after n ticks -/

/-- The unit after the first `n` micro-steps of `steps`, the l-th performed with the peer's SDA drive `ds (l * q)`. -/
def performed (steps : List MicroOp) (ds : Nat → Bool) (q : Nat) (m : I2cm) : Nat → I2cm
  | 0 => m
  | n + 1 =>
    match steps[n]? with
    | some op => perform (ds (n * q)) op (performed steps ds q m n)
    | none => performed steps ds q m n

/-- The unit `n` ticks after an acceptance: in tick `p + 1` the micro-steps 0 to `p / q` are done (40_bitio.md R142). -/
def i2cmAfter (ds : Nat → Bool) (m : I2cm) : Nat → I2cm
  | 0 => m
  | p + 1 =>
    { performed m.steps ds m.dq.toNat m (p / m.dq.toNat + 1) with
      k := p / m.dq.toNat + 1, waitCnt := m.dq.toNat - p % m.dq.toNat }

theorem performed_frame (steps : List MicroOp) (ds : Nat → Bool) (q : Nat) (m : I2cm) (n : Nat) :
    (performed steps ds q m n).busy = m.busy ∧ (performed steps ds q m n).curOp = m.curOp
      ∧ (performed steps ds q m n).curArg = m.curArg ∧ (performed steps ds q m n).steps = m.steps
      ∧ (performed steps ds q m n).dq = m.dq ∧ (performed steps ds q m n).owned = m.owned
      ∧ (performed steps ds q m n).rxdata = m.rxdata ∧ (performed steps ds q m n).ack = m.ack
      ∧ (performed steps ds q m n).nackf = m.nackf := by
  induction n with
  | zero => exact ⟨rfl, rfl, rfl, rfl, rfl, rfl, rfl, rfl, rfl⟩
  | succ n ih =>
    unfold performed
    split
    · next op _ =>
      obtain ⟨h1, h2, h3, h4, -, h6, -, h8, h9, h10, h11, -, -, -, -⟩ :=
        perform_frame (ds (n * q)) op (performed steps ds q m n)
      obtain ⟨i1, i2, i3, i4, i5, i6, i7, i8, i9⟩ := ih
      exact ⟨h1.trans i1, h2.trans i2, h3.trans i3, h4.trans i4, h6.trans i5, h8.trans i6, h9.trans i7,
        h10.trans i8, h11.trans i9⟩
    · exact ih

/-- The drives after the first `n` micro-steps. -/
theorem performed_lines (steps : List MicroOp) (ds : Nat → Bool) (q : Nat) (m : I2cm) (n : Nat) :
    ((performed steps ds q m n).sclO, (performed steps ds q m n).sdaO)
      = linesAfter (steps.take n) (m.sclO, m.sdaO) := by
  have snoc : ∀ (l : List MicroOp) (op : MicroOp) (x : Bool × Bool),
      linesAfter (l ++ [op]) x = linesAfter [op] (linesAfter l x) := by
    intro l
    induction l with
    | nil => intro op x; rfl
    | cons o l ih =>
      intro op x
      cases o with
      | scl b => exact ih op (b, x.2)
      | sda b => exact ih op (x.1, b)
      | sample dst => exact ih op x
  induction n with
  | zero => rfl
  | succ n ih =>
    unfold performed
    cases hs : steps[n]? with
    | none =>
      have hlen : steps.length ≤ n := List.getElem?_eq_none_iff.1 hs
      rw [List.take_of_length_le (by omega)]
      rw [List.take_of_length_le hlen] at ih
      exact ih
    | some op =>
      rw [List.take_add_one, hs, Option.toList_some, snoc, ← ih]
      cases op <;> rfl

/-- One more tick, inside a command. -/
theorem i2cmTick_i2cmAfter (ds : Nat → Bool) (m : I2cm) (hm : I2cm.Fresh m) (n : Nat)
    (hn : n < m.steps.length * m.dq.toNat) : i2cmTick (ds n) (i2cmAfter ds m n) = i2cmAfter ds m (n + 1) := by
  have hq := hm.quantum
  cases n with
  | zero =>
    have hl : 0 < m.steps.length := Nat.pos_of_ne_zero (by rintro h; rw [h] at hn; omega)
    have h0 : m.steps[0]? = some m.steps[0] := List.getElem?_eq_getElem hl
    rw [i2cmAfter, i2cmAfter, Nat.zero_div, Nat.zero_mod, i2cmTick, if_pos hm.busy, hm.due, if_pos rfl, hm.first, h0]
    rw [performed, h0, performed]
    simp
  | succ p =>
    rw [i2cmAfter, i2cmAfter]
    obtain ⟨hb, -, -, hs, hd, -⟩ := performed_frame m.steps ds m.dq.toNat m (p / m.dq.toNat + 1)
    have hdm := Nat.div_add_mod p m.dq.toNat
    have hlt := Nat.mod_lt p hq
    rw [i2cmTick, if_pos (hb.trans hm.busy)]
    simp only
    by_cases hw : m.dq.toNat - p % m.dq.toNat - 1 = 0
    · have hmod : p % m.dq.toNat = m.dq.toNat - 1 := by omega
      have hmul : (p / m.dq.toNat + 1) * m.dq.toNat = p + 1 := by
        rw [Nat.add_mul, Nat.one_mul, Nat.mul_comm]; omega
      have hdiv : (p + 1) / m.dq.toNat = p / m.dq.toNat + 1 := by
        rw [← hmul, Nat.mul_div_cancel _ hq]
      have hmod' : (p + 1) % m.dq.toNat = 0 := by rw [← hmul, Nat.mul_mod_left]
      have hk : p / m.dq.toNat + 1 < m.steps.length := by
        rw [← hmul] at hn
        exact Nat.lt_of_mul_lt_mul_right hn
      rw [if_pos hw, hs, List.getElem?_eq_getElem hk, hdiv, hmod']
      conv => rhs; rw [performed, List.getElem?_eq_getElem hk, hmul]
      simp only [hd]
      cases m.steps[p / m.dq.toNat + 1] <;> simp [perform, hs, hd]
    · have hlt' : p % m.dq.toNat + 1 < m.dq.toNat := by omega
      have hdiv : (p + 1) / m.dq.toNat = p / m.dq.toNat := by
        rw [Nat.div_eq_iff hq]
        constructor
        · rw [Nat.mul_comm]; omega
        · rw [Nat.mul_comm]; omega
      have hmod : (p + 1) % m.dq.toNat = p % m.dq.toNat + 1 := by
        rw [Nat.add_mod, Nat.mod_eq_of_lt (a := 1) (by omega), Nat.mod_eq_of_lt hlt']
      rw [if_neg hw, hdiv, hmod]
      simp
      omega

/-! ### Runs -/

/-- A run of `n + 1` ticks is a run of `n` and one tick. -/
theorem run_succ_last {n : Nat} {s t : State} (h : Runs (n + 1) s t) : ∃ u, Runs n s u ∧ step u = .next t := by
  induction n generalizing s with
  | zero =>
    obtain ⟨u, hu, ht⟩ := run_succ h
    refine ⟨s, rfl, ?_⟩
    rw [hu]
    exact ht
  | succ n ih =>
    obtain ⟨u, hu, ht⟩ := run_succ h
    obtain ⟨v, hv, hvt⟩ := ih ht
    exact ⟨v, run_of_step hu hv, hvt⟩

/-- The environment after `n` ticks. -/
theorem runs_envAt {n : Nat} {s t : State} (h : Runs n s t) (j : Nat) : t.envAt j = s.envAt (n + j) := by
  induction n generalizing t j with
  | zero => cases h; rw [Nat.zero_add]
  | succ n ih =>
    obtain ⟨u, hu, hs⟩ := run_succ_last h
    rw [step_envAt hs, ih hu]
    congr 1
    omega

/-- The parameters never change. -/
theorem step_par {s t : State} (h : step s = .next t) : t.par = s.par := by
  rcases (step_cases h).2 with ⟨-, rfl⟩ | ⟨-, -, hs⟩
  · exact (resetTick_fields s).1
  · exact hs.par.trans (unitsTick_frame s).1

theorem runs_par {n : Nat} {s t : State} (h : Runs n s t) : t.par = s.par := by
  induction n generalizing t with
  | zero => cases h; rfl
  | succ n ih =>
    obtain ⟨u, hu, hs⟩ := run_succ_last h
    rw [step_par hs, ih hu]

/-- The I2CM unit after a tick without reset in which it stays busy. -/
theorem step_i2cm_view {s t : State} (h : step s = .next t) (hr : (s.envAt 0).reset = false)
    (hb : (i2cmTick (s.envAt 0).sdaP s.i2cm).busy = true) :
    t.i2cm.view = (i2cmTick (s.envAt 0).sdaP s.i2cm).view := by
  rcases (step_cases h).2 with ⟨hr', -⟩ | ⟨-, -, hs⟩
  · rw [hr] at hr'; cases hr'
  · have hi := (unitsTick_frame s).2.2.2.2.2.1
    have := hs.i2cm.view_eq (by rw [hi]; exact hb)
    rw [this, hi]

theorem i2cmAfter_busy (ds : Nat → Bool) (m : I2cm) (hm : I2cm.Fresh m) (n : Nat) : (i2cmAfter ds m n).busy = true := by
  cases n with
  | zero => exact hm.busy
  | succ p => exact (performed_frame ..).1.trans hm.busy

/-- The I2CM unit `n` ticks after an acceptance, up to the flags and the delay that the host may have written. -/
theorem runs_i2cm {n : Nat} {s t : State} (hm : I2cm.Fresh s.i2cm) (hn : n ≤ s.i2cm.steps.length * s.i2cm.dq.toNat)
    (hr : s.noResetFor n) (h : Runs n s t) :
    t.i2cm.view = (i2cmAfter (fun j => (s.envAt j).sdaP) s.i2cm n).view := by
  induction n generalizing t with
  | zero => cases h; rfl
  | succ n ih =>
    obtain ⟨u, hu, hs⟩ := run_succ_last h
    have hv := ih (by omega) (fun j hj => hr j (by omega)) hu
    have he := runs_envAt hu 0
    rw [Nat.add_zero] at he
    have hstep := i2cmTick_i2cmAfter (fun j => (s.envAt j).sdaP) s.i2cm hm n (by omega)
    have ht : (i2cmTick (u.envAt 0).sdaP u.i2cm).view
        = (i2cmAfter (fun j => (s.envAt j).sdaP) s.i2cm (n + 1)).view := by
      rw [he, i2cmTick_view _ _ _ hv, ← hstep]
    have hb : (i2cmTick (u.envAt 0).sdaP u.i2cm).busy = true := by
      have h1 := ((I2cm.view_eq_iff _ _).1 ht).2.2.1
      rw [h1]
      exact i2cmAfter_busy _ _ hm _
    rw [step_i2cm_view hs (by rw [he]; exact hr n (by omega)) hb, ht]

/-- While a command runs no NACKF, CMDERR or SEQERR is set. -/
theorem runs_i2cm_sticky {n : Nat} {s t : State} (hm : I2cm.Fresh s.i2cm)
    (hn : n ≤ s.i2cm.steps.length * s.i2cm.dq.toNat) (hr : s.noResetFor n) (h : Runs n s t) :
    (t.i2cm.nackf = true → s.i2cm.nackf = true) ∧ (t.i2cm.cmderr = true → s.i2cm.cmderr = true)
      ∧ (t.i2cm.seqerr = true → s.i2cm.seqerr = true) := by
  induction n generalizing t with
  | zero => cases h; exact ⟨id, id, id⟩
  | succ n ih =>
    obtain ⟨u, hu, hs⟩ := run_succ_last h
    obtain ⟨i1, i2, i3⟩ := ih (by omega) (fun j hj => hr j (by omega)) hu
    have he := runs_envAt hu 0
    rw [Nat.add_zero] at he
    have hv := i2cmTick_view (u.envAt 0).sdaP _ _ (runs_i2cm hm (by omega) (fun j hj => hr j (by omega)) hu)
    rw [he, i2cmTick_i2cmAfter (fun j => (s.envAt j).sdaP) s.i2cm hm n (by omega)] at hv
    have hb : (i2cmTick (s.envAt n).sdaP u.i2cm).busy = true := by
      rw [((I2cm.view_eq_iff _ _).1 hv).2.2.1]
      exact i2cmAfter_busy _ _ hm _
    rcases (step_cases hs).2 with ⟨hr', -⟩ | ⟨-, -, hh⟩
    · rw [he, hr n (by omega)] at hr'; cases hr'
    · have hi := hh.i2cm
      rw [(unitsTick_frame u).2.2.2.2.2.1, he] at hi
      obtain ⟨f1, f2, f3, -⟩ := i2cmTick_frame (s.envAt n).sdaP u.i2cm
      obtain ⟨h1, h2⟩ := hi.sticky
      obtain ⟨h2, h3⟩ := h2 hb
      rw [i2cmTick_nackf _ _ hb] at h1
      rw [f1] at h2
      rw [f3] at h3
      exact ⟨fun h => i1 (h1 h), fun h => i2 (h2 h), fun h => i3 (h3 h)⟩

/-! ### The FLC engine -/

/-- While the FLC is busy, a host access changes nothing that its completion depends on. -/
theorem HostFlc.busy_frame {s : State} {f : Flc} (h : HostFlc s f) (hb : s.flc.busy = true) :
    f.busy = true ∧ f.locked = s.flc.locked ∧ f.curOp = s.flc.curOp ∧ f.curAddr = s.flc.curAddr
      ∧ f.curData = s.flc.curData ∧ f.pgFail = s.flc.pgFail ∧ f.remaining = s.flc.remaining := by
  cases h with
  | same => exact ⟨hb, rfl, rfl, rfl, rfl, rfl, rfl⟩
  | refused _ => exact ⟨hb, rfl, rfl, rfl, rfl, rfl, rfl⟩
  | invalid h => rw [hb] at h; cases h
  | locked h => rw [hb] at h; cases h
  | address h => rw [hb] at h; cases h
  | setLock _ h => rw [hb] at h; cases h
  | erasePage h => rw [hb] at h; cases h
  | eraseAll h => rw [hb] at h; cases h
  | progHalf h => rw [hb] at h; cases h
  | progWord h => rw [hb] at h; cases h
  | clear v => exact ⟨hb, rfl, rfl, rfl, rfl, rfl, rfl⟩
  | addr v => exact ⟨hb, rfl, rfl, rfl, rfl, rfl, rfl⟩
  | data v => exact ⟨hb, rfl, rfl, rfl, rfl, rfl, rfl⟩

/-- The FLC in a tick before its completion: only the countdown moves. -/
theorem unitsTick_flc_wait (s : State) (hb : s.flc.busy = true) (hr : 2 ≤ s.flc.remaining) :
    (unitsTick s).flc = { s.flc with remaining := s.flc.remaining - 1 } ∧ (unitsTick s).mem = s.mem
      ∧ (unitsTick s).unerased = s.unerased ∧ (unitsTick s).draws = s.draws := by
  unfold unitsTick
  generalize hx : ({ s with
      now := s.now + 1, env := s.env.tail, sclP := (s.envAt 0).sclP, sdaP := (s.envAt 0).sdaP
      i2cm := i2cmTick (s.envAt 0).sdaP s.i2cm } : State) = x
  have hf : x.flc = s.flc := by rw [← hx]
  have hm : x.mem = s.mem := by rw [← hx]
  have hu : x.unerased = s.unerased := by rw [← hx]
  have hd : x.draws = s.draws := by rw [← hx]
  rcases flcTick_cases x with ⟨h, -⟩ | ⟨-, -, h⟩ | ⟨-, h, -⟩
  · rw [hf, hb] at h; cases h
  · rw [h]; exact ⟨by rw [State.setFlc_flc, hf], by rw [State.setFlc_mem, hm], by rw [State.setFlc_unerased, hu],
      by rw [State.setFlc_draws, hd]⟩
  · rw [hf] at h; omega

/-- The FLC `n` ticks before its completion is due: latched operands, array and draws as at the acceptance. -/
theorem runs_flc {n : Nat} {s t : State} (hb : s.flc.busy = true) (hn : n < s.flc.remaining) (hr : s.noResetFor n)
    (h : Runs n s t) :
    t.flc.busy = true ∧ t.flc.locked = s.flc.locked ∧ t.flc.curOp = s.flc.curOp ∧ t.flc.curAddr = s.flc.curAddr
      ∧ t.flc.curData = s.flc.curData ∧ t.flc.pgFail = s.flc.pgFail ∧ t.flc.remaining = s.flc.remaining - n
      ∧ t.mem = s.mem ∧ t.unerased = s.unerased ∧ t.draws = s.draws := by
  induction n generalizing t with
  | zero => cases h; exact ⟨hb, rfl, rfl, rfl, rfl, rfl, rfl, rfl, rfl, rfl⟩
  | succ n ih =>
    obtain ⟨u, hu, hs⟩ := run_succ_last h
    obtain ⟨i1, i2, i3, i4, i5, i6, i7, i8, i9, i10⟩ := ih (by omega) (fun j hj => hr j (by omega)) hu
    have he := runs_envAt hu 0
    rw [Nat.add_zero] at he
    obtain ⟨w1, w2, w3, w4⟩ := unitsTick_flc_wait u i1 (by omega)
    rcases (step_cases hs).2 with ⟨hr', -⟩ | ⟨-, -, hh⟩
    · rw [he, hr n (by omega)] at hr'; cases hr'
    · obtain ⟨b1, b2, b3, b4, b5, b6, b7⟩ := hh.flc.busy_frame (by rw [w1]; exact i1)
      rw [w1] at b2 b3 b4 b5 b6 b7
      exact ⟨b1, b2.trans i2, b3.trans i3, b4.trans i4, b5.trans i5, b6.trans i6, by rw [b7]; simp only; omega,
        hh.mem.trans (w2.trans i8), hh.unerased.trans (w3.trans i9), hh.draws.trans (w4.trans i10)⟩

/-! ### Runs exist -/

/-- A host with nothing to do, now and after a reset, lets every tick go on. -/
theorem step_of_idle_host (s : State) (hp : s.par.ok = true) (hh : s.host.prog = [])
    (hb : s.host.boot = []) : ∃ t, step s = .next t ∧ t.par = s.par ∧ t.host.prog = [] ∧ t.host.boot = [] := by
  unfold step tick
  rw [if_pos hp]
  split
  · exact ⟨_, rfl, (resetTick_fields s).1, by rw [(resetTick_fields s).2.2.2.2.2.2.2]; exact hb,
      by rw [(resetTick_fields s).2.2.2.2.2.2.2]; exact hb⟩
  · have hu := (unitsTick_frame s).2.2.2.2.2.2
    refine ⟨(unitsTick s).respond .none, ?_, (unitsTick_frame s).1, ?_, ?_⟩
    · unfold hostTurn
      rw [hu, hh]
    · simp [hu, hh]
    · simp [hu, hb]

/-- So it runs for any number of ticks. -/
theorem runs_of_idle_host (n : Nat) (s : State) (hp : s.par.ok = true) (hh : s.host.prog = [])
    (hb : s.host.boot = []) : ∃ t, Runs n s t := by
  induction n generalizing s with
  | zero => exact ⟨s, rfl⟩
  | succ n ih =>
    obtain ⟨u, hu, hpu, hhu, hbu⟩ := step_of_idle_host s hp hh hb
    obtain ⟨t, ht⟩ := ih u (by rw [hpu]; exact hp) hhu hbu
    exact ⟨t, run_of_step hu ht⟩

end Sys2Proof.Machine
end

