-- ==== Sys2Proof/Laws/PerInstr.lean ====
section
/-! SUPPORT. The families of statements made instruction by instruction. -/

/-- The word of a command is read back by the decoder of one of the two units (30_encoding.md R110); the word of a flash
read is its bus address (R117). -/
def Sys2Proof.Laws.WordRoundTrip.Statement (i : Sys2Proof.Instr) : Prop :=
  (∀ a, i.readAddr? = some a → Sys2Proof.encodeWord i = a)
    ∧ (i.readAddr? = none → Sys2Proof.decodeI2cm (Sys2Proof.encodeWord i) = .ok i
      ∨ Sys2Proof.decodeFlc (Sys2Proof.encodeWord i) = .ok i)

namespace Sys2Proof.Laws

open Sys2Proof

/-- A command whose word the I2CM decoder reads back. -/
theorem WordRoundTrip.Statement.of_i2cm {i : Instr} (hn : i.readAddr? = none) (h : decodeI2cm (encodeWord i) = .ok i) :
    WordRoundTrip.Statement i := ⟨fun _ ha => absurd (hn.symm.trans ha) (by simp), fun _ => .inl h⟩

/-- A command whose word the FLC decoder reads back. -/
theorem WordRoundTrip.Statement.of_flc {i : Instr} (hn : i.readAddr? = none) (h : decodeFlc (encodeWord i) = .ok i) :
    WordRoundTrip.Statement i := ⟨fun _ ha => absurd (hn.symm.trans ha) (by simp), fun _ => .inr h⟩

/-- A flash read. -/
theorem WordRoundTrip.Statement.of_read {i : Instr} (h : i.readAddr? = some (encodeWord i)) : WordRoundTrip.Statement i :=
  ⟨fun _ ha => Option.some.inj (h.symm.trans ha), fun hn => absurd (h.symm.trans hn) (by simp)⟩

theorem WordRoundTrip.i2cInit : WordRoundTrip.Statement .i2cInit := .of_i2cm rfl rfl
theorem WordRoundTrip.i2cStart : WordRoundTrip.Statement .i2cStart := .of_i2cm rfl rfl
theorem WordRoundTrip.i2cStop : WordRoundTrip.Statement .i2cStop := .of_i2cm rfl rfl

theorem WordRoundTrip.i2cSendb (byte : Byte) : WordRoundTrip.Statement (.i2cSendb byte) := by
  refine .of_i2cm rfl ?_
  have hb := byte.isLt
  have hw : (encodeWord (.i2cSendb byte)).toNat = 4 + 256 * byte.toNat := by
    rw [encodeWord, BitVec.toNat_ofNat]; omega
  have h1 : (4 + 256 * byte.toNat) % 16 = 4 := by omega
  have h2 : (4 + 256 * byte.toNat) / 256 % 256 = byte.toNat := by omega
  unfold decodeI2cm bits
  rw [hw, if_neg (by omega)]
  simp [h1, h2]

theorem WordRoundTrip.i2cRecvb : WordRoundTrip.Statement .i2cRecvb := .of_i2cm rfl rfl
theorem WordRoundTrip.i2cSack (a : Bool) : WordRoundTrip.Statement (.i2cSack a) :=
  .of_i2cm rfl (by cases a <;> rfl)
theorem WordRoundTrip.i2cRack : WordRoundTrip.Statement .i2cRack := .of_i2cm rfl rfl
theorem WordRoundTrip.i2cWscl (b : Bool) : WordRoundTrip.Statement (.i2cWscl b) :=
  .of_i2cm rfl (by cases b <;> rfl)
theorem WordRoundTrip.i2cWsda (b : Bool) : WordRoundTrip.Statement (.i2cWsda b) :=
  .of_i2cm rfl (by cases b <;> rfl)
theorem WordRoundTrip.i2cRsda : WordRoundTrip.Statement .i2cRsda := .of_i2cm rfl rfl
theorem WordRoundTrip.flcUnlock : WordRoundTrip.Statement .flcUnlock := .of_flc rfl rfl
theorem WordRoundTrip.flcLock : WordRoundTrip.Statement .flcLock := .of_flc rfl rfl
theorem WordRoundTrip.flcErasep : WordRoundTrip.Statement .flcErasep := .of_flc rfl rfl
theorem WordRoundTrip.flcErasea : WordRoundTrip.Statement .flcErasea := .of_flc rfl rfl
theorem WordRoundTrip.flcProgh : WordRoundTrip.Statement .flcProgh := .of_flc rfl rfl
theorem WordRoundTrip.flcProgw : WordRoundTrip.Statement .flcProgw := .of_flc rfl rfl
theorem WordRoundTrip.rdB (a : Word) : WordRoundTrip.Statement (.rdB a) := .of_read rfl
theorem WordRoundTrip.rdH (a : Word) : WordRoundTrip.Statement (.rdH a) := .of_read rfl
theorem WordRoundTrip.rdW (a : Word) : WordRoundTrip.Statement (.rdW a) := .of_read rfl

end Sys2Proof.Laws
end

