-- ==== Sys2Proof/Laws/Routine.lean ====
section
/-! SUPPORT. What a run of a host routine does: one line at a time, one host sequence after another, with and without a
reset; and the guarded erase and program of the flash layer (43_flash.md R222, R224). -/

namespace Sys2Proof.Machine

/-! ### One tick of a routine -/

@[simp] theorem State.making_par (s : State) (op : HostOp) : (s.making op).par = s.par := rfl
@[simp] theorem State.making_flc (s : State) (op : HostOp) : (s.making op).flc = s.flc := rfl
@[simp] theorem State.making_mem (s : State) (op : HostOp) : (s.making op).mem = s.mem := rfl
@[simp] theorem State.making_unerased (s : State) (op : HostOp) : (s.making op).unerased = s.unerased := rfl
@[simp] theorem State.making_draws (s : State) (op : HostOp) : (s.making op).draws = s.draws := rfl
@[simp] theorem State.making_prog (s : State) (op : HostOp) : (s.making op).host.prog = [op] := rfl
@[simp] theorem State.making_boot (s : State) (op : HostOp) : (s.making op).host.boot = s.host.boot := rfl
@[simp] theorem State.making_envAt (s : State) (op : HostOp) (j : Nat) : (s.making op).envAt j = s.envAt j := rfl

theorem Routine.after_append {α : Type} (r : Routine α) (xs ys : List HostOp) :
    r.after (xs ++ ys) = (r.after ys).after xs := by
  induction xs with
  | nil => rfl
  | cons x xs ih => rw [List.cons_append, Routine.after, Routine.after, ih]

/-- A reset ends the routine (70_reset_and_hazards.md R310, 44_persistent_store.md R258). -/
theorem runRoutine_cut {α : Type} (m : Nat) (op : HostOp) (next : HostResp → Routine α) (s : State)
    (hp : s.par.ok = true) (hr : (s.envAt 0).reset = true) :
    runRoutine (m + 1) (.line op next) s = .cut (resetTick (s.making op)) := by
  have hs : step (s.making op) = .next (resetTick (s.making op)) := by
    unfold step tick
    rw [State.making_par, if_pos hp, State.making_envAt, if_pos hr]
  rw [runRoutine, hs]
  exact if_pos hr

/-- What a reset that ends a routine leaves: the host at its boot program, and the flash array but for the target of a
command in flight (70_reset_and_hazards.md R314). -/
theorem runRoutine_reset {α : Type} (m : Nat) (hm : 0 < m) (op : HostOp) (next : HostResp → Routine α) (s : State)
    (hp : s.par.ok = true) (hw : Memory.wf s.unlisted s.mem = true) (hr : (s.envAt 0).reset = true) :
    ∃ t, runRoutine m (.line op next) s = .cut t ∧ t.host.prog = s.host.boot
      ∧ ∀ b, (s.flc.busy = true → b < (flcTarget s).1 ∨ (flcTarget s).1 + (flcTarget s).2 ≤ b) →
        t.byteAt b = s.byteAt b := by
  obtain ⟨k, rfl⟩ : ∃ k, m = k + 1 := ⟨m - 1, by omega⟩
  refine ⟨_, runRoutine_cut k op next s hp hr, by rw [(resetTick_fields _).2.2.2.2.2.2.2]; rfl, fun b hb => ?_⟩
  by_cases hf : s.flc.busy = true
  · rw [← State.byteAt_drawRange s (flcTarget s).2 (flcTarget s).1 hw b (hb hf), resetTick, resetFlash, State.making_flc,
      if_pos hf]
    rfl
  · rw [resetTick, resetFlash, State.making_flc, if_neg hf]
    rfl

/-- A tick without reset, when the host's access is performed or refused with a flag. -/
theorem runRoutine_next {α : Type} (m : Nat) (op : HostOp) (next : HostResp → Routine α) (s t : State)
    (hp : s.par.ok = true) (hr : (s.envAt 0).reset = false) (h : hostTurn (unitsTick (s.making op)) = .next t) :
    runRoutine (m + 1) (.line op next) s = match t.host.resp with
      | .fault c => .busFault c t
      | .stalled => runRoutine m (.line op next) t
      | .none => runRoutine m (next .none) t
      | .written => runRoutine m (next .written) t
      | .data w v => if t.host.prog = [] then runRoutine m (next (.data w v)) t else runRoutine m (.line op next) t := by
  have hs : step (s.making op) = .next t := by
    unfold step tick
    rw [State.making_par, if_pos hp, State.making_envAt, if_neg (by simp [hr]), h]
  rw [runRoutine, hs]
  exact if_neg (by simp [hr])

/-! ### Host sequences -/

/-- `t` is `s` some ticks later, none of them a reset, as far as the host's sequences depend on it: the same machine and boot
program, and the environment moved on by `n` ticks. -/
structure Later (n : Nat) (s t : State) : Prop where
  par : t.par = s.par
  boot : t.host.boot = s.host.boot
  env : ∀ j, t.envAt j = s.envAt (n + j)

theorem Later.trans {m n : Nat} {s t u : State} (h : Later m s t) (h' : Later n t u) : Later (m + n) s u :=
  ⟨h'.par.trans h.par, h'.boot.trans h.boot, fun j => by rw [h'.env, h.env, Nat.add_assoc]⟩

/-- Every run of `ops` and then `r` from `s` is, `n` ticks later, a run of `r` from `t`. -/
def Takes (n : Nat) (ops : List HostOp) (s t : State) : Prop :=
  ∀ (α : Type) (m : Nat) (r : Routine α), runRoutine (n + m) (r.after ops) s = runRoutine m r t

/-- From `s` the host sequence `ops` takes `n` ticks, if no reset comes in them, to a state in which `post` holds; and a reset
in tick `r` of them ends every run of it, with the boot program next and `torn r` of the state. -/
structure HostSeq (n : Nat) (ops : List HostOp) (s : State) (post : State → Prop) (torn : Nat → State → Prop) : Prop where
  ends : s.noResetFor n → ∃ t, Takes n ops s t ∧ Later n s t ∧ post t
  cut : ∀ r, r < n → s.noResetFor r → (s.envAt r).reset = true → ∀ (α : Type) (m : Nat) (R : Routine α), r < m →
    ∃ t, runRoutine m (R.after ops) s = .cut t ∧ t.host.prog = s.host.boot ∧ torn r t

theorem HostSeq.nil (s : State) {post : State → Prop} (h : post s) (torn : Nat → State → Prop) : HostSeq 0 [] s post torn :=
  ⟨fun _ => ⟨s, fun α m r => by rw [Nat.zero_add]; rfl, ⟨rfl, rfl, fun j => by rw [Nat.zero_add]⟩, h⟩,
    fun _ hr => absurd hr (Nat.not_lt_zero _)⟩

/-- One sequence after another. -/
theorem HostSeq.append {m n : Nat} {xs ys : List HostOp} {s : State} {post post' : State → Prop}
    {torn torn' : Nat → State → Prop} (h : HostSeq m xs s post torn)
    (h' : ∀ t, Later m s t → post t → HostSeq n ys t post' fun r => torn' (m + r))
    (ht : ∀ r t, r < m → torn r t → torn' r t) : HostSeq (m + n) (xs ++ ys) s post' torn' := by
  refine ⟨fun hr => ?_, fun r hrn hr hrr α k R hk => ?_⟩
  · obtain ⟨t, h1, h2, h3⟩ := h.ends fun j hj => hr j (by omega)
    obtain ⟨u, h4, h5, h6⟩ := (h' t h2 h3).ends fun j hj => by rw [h2.env]; exact hr (m + j) (by omega)
    refine ⟨u, fun α k R => ?_, h2.trans h5, h6⟩
    rw [Routine.after_append, Nat.add_assoc, h1, h4]
  · by_cases hm : r < m
    · obtain ⟨t, h1, h2, h3⟩ := h.cut r hm hr hrr α k (R.after ys) hk
      exact ⟨t, by rw [Routine.after_append, h1], h2, ht r t hm h3⟩
    · obtain ⟨t, h1, h2, h3⟩ := h.ends fun j hj => hr j (by omega)
      obtain ⟨u, h4, h5, h6⟩ := (h' t h2 h3).cut (r - m) (by omega)
        (fun j hj => by rw [h2.env]; exact hr (m + j) (by omega))
        (by rw [h2.env, show m + (r - m) = r by omega]; exact hrr) α (k - m) R (by omega)
      refine ⟨u, ?_, h5.trans h2.boot, by rw [show m + (r - m) = r by omega] at h6; exact h6⟩
      have := h1 α (k - m) (R.after ys)
      rw [show m + (k - m) = k by omega] at this
      rw [Routine.after_append, this, h4]

theorem HostSeq.mono {n : Nat} {xs : List HostOp} {s : State} {post post' : State → Prop}
    {torn torn' : Nat → State → Prop} (h : HostSeq n xs s post torn) (hp : ∀ t, Later n s t → post t → post' t)
    (ht : ∀ r t, r < n → torn r t → torn' r t) : HostSeq n xs s post' torn' :=
  ⟨fun hr => (h.ends hr).imp fun t ⟨h1, h2, h3⟩ => ⟨h1, h2, hp t h2 h3⟩,
    fun r hrn hr hrr α m R hm => (h.cut r hrn hr hrr α m R hm).imp fun t ⟨h1, h2, h3⟩ => ⟨h1, h2, ht r t hrn h3⟩⟩

/-! ### Accesses while the FLC is idle -/

/-- The flash array of `t` is that of `s`. -/
structure SameArray (s t : State) : Prop where
  mem : t.mem = s.mem
  unerased : t.unerased = s.unerased
  draws : t.draws = s.draws

/-- In a tick in which the FLC is idle the units change nothing of it. -/
theorem unitsTick_flc_idle (s : State) (hb : s.flc.busy = false) : (unitsTick s).flc = s.flc ∧ SameArray s (unitsTick s) := by
  unfold unitsTick
  rcases flcTick_cases
    { s with
      now := s.now + 1, env := s.env.tail, sclP := (s.envAt 0).sclP, sdaP := (s.envAt 0).sdaP
      i2cm := i2cmTick (s.envAt 0).sdaP s.i2cm } with ⟨-, h⟩ | ⟨h, -⟩ | ⟨h, -⟩
  · rw [h]; exact ⟨rfl, rfl, rfl, rfl⟩
  · simp [hb] at h
  · simp [hb] at h

/-- A tick of a routine, without reset: what the host's turn leaves is later by one tick. -/
theorem later_of_hostTurn {s t : State} {op : HostOp} (hs : HostStep (unitsTick (s.making op)) t)
    (hb : t.host.boot = s.host.boot) : Later 1 s t := by
  have hu := unitsTick_frame (s.making op)
  refine ⟨hs.par.trans hu.1, hb, fun j => ?_⟩
  have he : t.env = s.env.tail := hs.env.trans hu.2.2.1
  have hn : t.now = s.now + 1 := hs.now.trans hu.2.1
  unfold State.envAt
  rw [he, hn, Nat.add_comm 1 j]
  have : s.now + 1 + j = s.now + (j + 1) := by omega
  rw [this]
  cases s.env with
  | nil => rfl
  | cons e es => rfl

/-- A write that PERIPH acknowledges, made while the FLC is idle: it takes one tick, and it does to the FLC unit what it
does to it at once, and nothing to the array. -/
theorem HostSeq.flcWrite {s : State} {a : Access} {f : Flc} (hp : s.par.ok = true) (hb : s.flc.busy = false)
    (hw : Memory.wf s.unlisted s.mem = true)
    (h : ∀ x : State, x.par = s.par → x.flc = s.flc → SameArray s x →
      performAccess a x = .next ((x.setFlc f).respond .written)) :
    HostSeq 1 [.access a] s (fun t => t.flc = f ∧ SameArray s t) (fun _ t => ∀ b, t.byteAt b = s.byteAt b) := by
  have hi := unitsTick_flc_idle (s.making (.access a)) hb
  have hu := unitsTick_frame (s.making (.access a))
  have ha := h _ hu.1 hi.1 ⟨hi.2.mem, hi.2.unerased, hi.2.draws⟩
  refine ⟨fun hr => ?_, fun r hr0 _ hrr α m R hm => ?_⟩
  · have hturn : hostTurn (unitsTick (s.making (.access a)))
        = .next (retire (.access a) [] (((unitsTick (s.making (.access a))).setFlc f).respond .written)) := by
      unfold hostTurn
      rw [hu.2.2.2.2.2.2, State.making_prog]
      simp only [ha, retireOutcome]
    refine ⟨_, fun α m R => ?_, later_of_hostTurn (.of_hostTurn hturn) ?_, rfl, hi.2.mem, hi.2.unerased, hi.2.draws⟩
    · rw [Nat.add_comm 1 m, Routine.after, runRoutine_next m _ _ s _ hp (hr 0 (by omega)) hturn]
      rfl
    · show (unitsTick (s.making (.access a))).host.boot = s.host.boot
      rw [hu.2.2.2.2.2.2]; rfl
  · obtain rfl : r = 0 := by omega
    obtain ⟨t, h1, h2, h3⟩ := runRoutine_reset m hm (.access a) (fun _ => R) s hp hw hrr
    exact ⟨t, h1, h2, fun b => h3 b fun hf => absurd hf (by simp [hb])⟩

/-! ### Waiting for the FLC -/

theorem State.unlisted_congr {s t : State} (hp : t.par = s.par) (hu : t.unerased = s.unerased) :
    t.unlisted = s.unlisted := by
  funext a
  unfold State.unlisted
  rw [hp, hu]

theorem State.byteAt_congr {s t : State} (hp : t.par = s.par) (h : SameArray s t) (a : Nat) : t.byteAt a = s.byteAt a := by
  unfold State.byteAt
  rw [State.unlisted_congr hp h.unerased, h.mem]

/-- The effect of a command depends on what it latched and on the array. -/
theorem flcEffect_congr {s t : State} (hp : t.par = s.par) (ho : t.flc.curOp = s.flc.curOp)
    (ha : t.flc.curAddr = s.flc.curAddr) (hd : t.flc.curData = s.flc.curData) (hf : t.flc.pgFail = s.flc.pgFail)
    (h : SameArray s t) : SameArray (flcEffect s) (flcEffect t) := by
  have hu := State.unlisted_congr hp h.unerased
  have hm := h.mem
  have he := h.unerased
  have hr := h.draws
  unfold flcEffect effectErasePage effectEraseAll effectProgHalf effectProgWord targetErasePage targetEraseAll
    targetProgHalf targetProgWord State.eraseRange State.drawRange State.writeFlash
  rw [hp, ho, ha, hd, hf, hu, hm, he, hr]
  split
  · exact ⟨rfl, rfl, rfl⟩
  split
  · exact ⟨rfl, rfl, rfl⟩
  split
  · split <;> exact ⟨rfl, rfl, rfl⟩
  split
  · split <;> exact ⟨rfl, rfl, rfl⟩
  · exact ⟨hm, he, hr⟩

theorem flcTarget_congr {s t : State} (hp : t.par = s.par) (ho : t.flc.curOp = s.flc.curOp)
    (ha : t.flc.curAddr = s.flc.curAddr) : flcTarget t = flcTarget s := by
  unfold flcTarget targetErasePage targetEraseAll targetProgHalf targetProgWord
  rw [hp, ho, ha]

/-- What a poll of FLC_STAT.BUSY sees (10_state.md R63). -/
theorem flcStat_busy (f : Flc) : (flcStat f &&& 1 = 0 &&& (1 : Word)) ↔ f.busy = false := by
  have key : ∀ b e p l a c u : Bool, (flagBit b 0 ||| flagBit e 2 ||| flagBit p 8 ||| flagBit l 9 ||| flagBit a 10
      ||| flagBit c 11 ||| flagBit u 12) &&& 1 = 0 &&& (1 : Word) ↔ b = false := by decide
  exact key f.busy f.eop f.pgerr f.lockerr f.addrerr f.cmderr f.busyerr

/-- One tick of the poll of FLC_STAT.BUSY: it ends exactly if the FLC is idle after the units acted. -/
theorem hostTurn_flcWait (s : State) (hp : s.par.ok = true) :
    hostTurn (unitsTick (s.making (flcWait s.par)))
      = .next { unitsTick (s.making (flcWait s.par)) with
          host := { s.host with
            prog := if (unitsTick (s.making (flcWait s.par))).flc.busy then [flcWait s.par] else []
            resp := .data .w32 (flcStat (unitsTick (s.making (flcWait s.par))).flc) } } := by
  have hu := unitsTick_frame (s.making (flcWait s.par))
  generalize hx : unitsTick (s.making (flcWait s.par)) = x at hu
  have hx' : x.par = s.par := hu.1
  have ha : performAccess (readOf s.par .flcStat) x = .next (x.respond (.data .w32 (flcStat x.flc))) := by
    rw [performAccess, hx', decodeAccess_readOf s.par ((Params.ok_iff _).1 hp)]
    rfl
  unfold hostTurn
  rw [hu.2.2.2.2.2.2, State.making_prog, flcWait]
  dsimp only
  rw [show Access.read .w32 (BitVec.ofNat 32 (Reg.flcStat.addr s.par)) = readOf s.par .flcStat from rfl, ha]
  simp only [retireOutcome, retire, State.respond_host, progAfter, if_congr (flcStat_busy x.flc) rfl rfl]
  rw [State.respond, hu.2.2.2.2.2.2]
  cases x.flc.busy <;> rfl

/-- `poll FLC_STAT.BUSY == 0` on an executing FLC takes until the completion, whose effect it leaves (43_flash.md R221); a
reset before that leaves every byte outside the command's target (70_reset_and_hazards.md R314). -/
theorem HostSeq.flcWait {n : Nat} {s : State} (hp : s.par.ok = true) (hb : s.flc.busy = true)
    (hn : s.flc.remaining = n + 1) (hm : Memory.wf s.unlisted s.mem = true) :
    HostSeq (n + 1) [Machine.flcWait s.par] s (fun t => t.flc = finishFlc s.flc ∧ SameArray (flcEffect s) t)
      (fun _ t => ∀ b, (b < (flcTarget s).1 ∨ (flcTarget s).1 + (flcTarget s).2 ≤ b) → t.byteAt b = s.byteAt b) := by
  have hu := unitsTick_frame (s.making (Machine.flcWait s.par))
  have hturn := hostTurn_flcWait s hp
  induction n generalizing s with
  | zero =>
    have hdone : (unitsTick (s.making (Machine.flcWait s.par))).flc = finishFlc s.flc
        ∧ SameArray (flcEffect s) (unitsTick (s.making (Machine.flcWait s.par))) := by
      unfold unitsTick
      rcases flcTick_cases
        { s.making (Machine.flcWait s.par) with
          now := s.now + 1, env := s.env.tail, sclP := (s.envAt 0).sclP, sdaP := (s.envAt 0).sdaP
          i2cm := i2cmTick (s.envAt 0).sdaP s.i2cm } with ⟨h, -⟩ | ⟨-, h, -⟩ | ⟨-, -, h⟩
      · simp [hb] at h
      · simp [hn] at h
      · have hc := flcEffect_congr (s := s) (t := { s.making (Machine.flcWait s.par) with
          now := s.now + 1, env := s.env.tail, sclP := (s.envAt 0).sclP, sdaP := (s.envAt 0).sdaP
          i2cm := i2cmTick (s.envAt 0).sdaP s.i2cm }) rfl rfl rfl rfl rfl ⟨rfl, rfl, rfl⟩
        exact ⟨congrArg State.flc h, (congrArg State.mem h).trans hc.mem, (congrArg State.unerased h).trans hc.unerased,
          (congrArg State.draws h).trans hc.draws⟩
    have hidle : (unitsTick (s.making (Machine.flcWait s.par))).flc.busy = false := by rw [hdone.1]; rfl
    rw [hidle] at hturn
    refine ⟨fun hr => ⟨_, fun α m R => ?_, later_of_hostTurn (.of_hostTurn hturn) rfl, hdone.1, hdone.2.mem,
        hdone.2.unerased, hdone.2.draws⟩,
      fun r hr0 _ hrr α m R hm0 => ?_⟩
    · rw [Nat.add_comm _ m, Routine.after, runRoutine_next m _ _ s _ hp (hr 0 (by omega)) hturn]
      rfl
    · obtain rfl : r = 0 := by omega
      obtain ⟨t, h1, h2, h3⟩ := runRoutine_reset m hm0 (Machine.flcWait s.par) (fun _ => R) s hp hm hrr
      exact ⟨t, h1, h2, fun b hb' => h3 b fun _ => hb'⟩
  | succ n ih =>
    have hw := unitsTick_flc_wait (s.making (Machine.flcWait s.par)) hb (by simp [hn])
    have hbusy : (unitsTick (s.making (Machine.flcWait s.par))).flc.busy = true := by rw [hw.1]; exact hb
    rw [hbusy] at hturn
    have hlater := later_of_hostTurn (.of_hostTurn hturn) rfl
    generalize ht : ({ unitsTick (s.making (Machine.flcWait s.par)) with
      host := { s.host with
        prog := if true = true then [Machine.flcWait s.par] else []
        resp := .data .w32 (flcStat (unitsTick (s.making (Machine.flcWait s.par))).flc) } } : State) = t at hturn hlater
    have hf : t.flc = { s.flc with remaining := s.flc.remaining - 1 } := by rw [← ht]; exact hw.1
    have hsame : SameArray s t := by rw [← ht]; exact ⟨hw.2.1, hw.2.2.1, hw.2.2.2⟩
    have hpar := hlater.par
    have hstall : (s.envAt 0).reset = false → ∀ (α : Type) (m : Nat) (R : Routine α),
        runRoutine (m + 1) (R.after [Machine.flcWait s.par]) s = runRoutine m (R.after [Machine.flcWait t.par]) t := by
      intro hr α m R
      rw [Routine.after, runRoutine_next m _ _ s t hp hr hturn, hpar, ← ht]
      rfl
    have hun := State.unlisted_congr hpar hsame.unerased
    have htg : flcTarget t = flcTarget s := flcTarget_congr hpar (by rw [hf]) (by rw [hf])
    have := ih (s := t) (by rw [hpar]; exact hp) (by rw [hf]; exact hb) (by rw [hf]; simp [hn])
      (by rw [hun, hsame.mem]; exact hm) (unitsTick_frame _) (hostTurn_flcWait t (by rw [hpar]; exact hp))
    have hfin : finishFlc t.flc = finishFlc s.flc := by rw [hf]; rfl
    have heff := flcEffect_congr (s := s) (t := t) hpar (by rw [hf]) (by rw [hf]) (by rw [hf]) (by rw [hf]) hsame
    refine ⟨fun hr => ?_, fun r hr0 hr hrr α m R hm0 => ?_⟩
    · obtain ⟨u, h1, h2, h3, h4⟩ := this.ends fun j hj => by rw [hlater.env]; exact hr (1 + j) (by omega)
      refine ⟨u, fun α m R => ?_, by have := hlater.trans h2; rwa [Nat.add_comm 1] at this, h3.trans hfin,
        h4.mem.trans heff.mem, h4.unerased.trans heff.unerased, h4.draws.trans heff.draws⟩
      rw [show n + 1 + 1 + m = (n + 1 + m) + 1 by omega, hstall (hr 0 (by omega)), h1]
    · obtain ⟨k, rfl⟩ : ∃ k, m = k + 1 := ⟨m - 1, by omega⟩
      cases r with
      | zero =>
        obtain ⟨t, h1, h2, h3⟩ := runRoutine_reset (k + 1) hm0 (Machine.flcWait s.par) (fun _ => R) s hp hm hrr
        exact ⟨t, h1, h2, fun b hb' => h3 b fun _ => hb'⟩
      | succ r =>
        obtain ⟨u, h1, h2, h3⟩ := this.cut r (by omega) (fun j hj => by rw [hlater.env]; exact hr (1 + j) (by omega))
          (by rw [hlater.env, Nat.add_comm]; exact hrr) α k R (by omega)
        refine ⟨u, by rw [hstall (hr 0 (by omega)), h1], h2.trans hlater.boot, fun b hb' => ?_⟩
        rw [h3 b (by rw [htg]; exact hb'), State.byteAt_congr hpar hsame]

/-! ### Guarded commands -/

/-- A FLC command word, written while PERIPH is there, is the command. -/
theorem performAccess_flcCommand (x : State) (hp : x.par.ok = true) (i : Instr)
    (hi : i ∈ [.flcUnlock, .flcLock, .flcErasep, .flcErasea, .flcProgh, .flcProgw]) :
    performAccess (encode x.par i) x = exec i x := by
  have ok := (Params.ok_iff _).1 hp
  simp only [List.mem_cons, List.not_mem_nil, or_false] at hi
  rcases hi with rfl | rfl | rfl | rfl | rfl | rfl
  all_goals
    rw [performAccess, encode, decodeAccess_writeOf _ ok]
    rfl

/-- UNLOCK and LOCK of an idle FLC, as a line of a sequence. -/
theorem HostSeq.lock {s : State} (b : Bool) (hp : s.par.ok = true) (hb : s.flc.busy = false)
    (hw : Memory.wf s.unlisted s.mem = true) :
    HostSeq 1 [command s.par (if b then .flcLock else .flcUnlock)] s
      (fun t => t.flc = { s.flc with locked := b } ∧ SameArray s t) (fun _ t => ∀ a, t.byteAt a = s.byteAt a) := by
  refine .flcWrite hp hb hw fun x hx hf _ => ?_
  rw [← hx, performAccess_flcCommand x (by rw [hx]; exact hp) _ (by cases b <;> simp)]
  cases b <;> simp [exec, execFlcLock, execFlcUnlock, issueLock, hf, hb]

/-- A write of FLC_ADDR or FLC_DATA to an idle FLC, as a line of a sequence. -/
theorem HostSeq.operand {s : State} (r : Reg) (v : Word) {f : Flc}
    (hr : r = .flcAddr ∧ f = { s.flc with addr := v } ∨ r = .flcData ∧ f = { s.flc with data := v })
    (hp : s.par.ok = true) (hb : s.flc.busy = false) (hw : Memory.wf s.unlisted s.mem = true) :
    HostSeq 1 [wrReg s.par r v] s (fun t => t.flc = f ∧ SameArray s t) (fun _ t => ∀ a, t.byteAt a = s.byteAt a) := by
  refine .flcWrite hp hb hw fun x hx hf _ => ?_
  rw [performAccess, hx, decodeAccess_writeOf _ ((Params.ok_iff _).1 hp)]
  rcases hr with ⟨rfl, rfl⟩ | ⟨rfl, rfl⟩
  · rw [← hf]; rfl
  · rw [← hf]; rfl

/-- A mutating command that an idle, unlocked FLC accepts, as a line of a sequence. -/
theorem HostSeq.accepted {s : State} (i : Instr) {f : Flc}
    (hi : i ∈ [.flcUnlock, .flcLock, .flcErasep, .flcErasea, .flcProgh, .flcProgw])
    (hx : ∀ x : State, x.par = s.par → x.flc = s.flc → SameArray s x → exec i x = .next ((x.setFlc f).respond .written))
    (hp : s.par.ok = true) (hb : s.flc.busy = false) (hw : Memory.wf s.unlisted s.mem = true) :
    HostSeq 1 [command s.par i] s (fun t => t.flc = f ∧ SameArray s t) (fun _ t => ∀ a, t.byteAt a = s.byteAt a) := by
  refine .flcWrite hp hb hw fun x hx' hf hs => ?_
  rw [← hx', performAccess_flcCommand x (by rw [hx']; exact hp) i hi, hx x hx' hf hs]

theorem SameArray.wf {s t : State} (hp : t.par = s.par) (h : SameArray s t) (hw : Memory.wf s.unlisted s.mem = true) :
    Memory.wf t.unlisted t.mem = true := by
  rw [State.unlisted_congr hp h.unerased, h.mem]
  exact hw

/-- A completion's effect keeps the canonical form. -/
theorem wf_flcEffect (s : State) (hw : Memory.wf s.unlisted s.mem = true) :
    Memory.wf (flcEffect s).unlisted (flcEffect s).mem = true := by
  unfold flcEffect
  split
  · exact State.wf_eraseRange s (page_whole s.par _) hw
  split
  · exact State.wf_eraseRange s (window_whole s.par) hw
  split
  · unfold effectProgHalf
    split
    · exact Memory.wf_memDraw _ _ _ _ hw
    · exact Memory.wf_memWrite _ _ _ _ hw
  split
  · unfold effectProgWord
    split
    · exact Memory.wf_memDraw _ _ _ _ hw
    · exact Memory.wf_memWrite _ _ _ _ hw
  · exact hw

/-- A completion's effect leaves every byte outside the command's target. -/
theorem flcEffect_outside (s : State) (hw : Memory.wf s.unlisted s.mem = true) (a : Nat)
    (ha : a < (flcTarget s).1 ∨ (flcTarget s).1 + (flcTarget s).2 ≤ a) : (flcEffect s).byteAt a = s.byteAt a := by
  unfold flcTarget at ha
  unfold flcEffect
  split
  · next h =>
    rw [if_pos h] at ha
    exact (State.byteAt_eraseRange s (page_whole s.par _) a).trans (if_neg (by simp only [targetErasePage] at ha; omega))
  · next h =>
    rw [if_neg h] at ha
    split
    · next h =>
      rw [if_pos h] at ha
      exact (State.byteAt_eraseRange s (window_whole s.par) a).trans (if_neg (by simp only [targetEraseAll] at ha; omega))
    · next h =>
      rw [if_neg h] at ha
      split
      · next h =>
        rw [if_pos h] at ha
        unfold effectProgHalf
        split
        · exact State.byteAt_drawRange s _ _ hw a ha
        · rw [State.byteAt_writeFlash s _ _ _ hw, if_neg (by omega)]
      · next h =>
        rw [if_neg h] at ha
        split
        · next h =>
          rw [if_pos h] at ha
          unfold effectProgWord
          split
          · exact State.byteAt_drawRange s _ _ hw a ha
          · rw [State.byteAt_writeFlash s _ _ _ hw, if_neg (by omega)]
        · rfl

/-- `flc.guarded x` (43_flash.md R222): if `x` takes an unlocked FLC to the acceptance of a command, the guarded sequence
takes it to that command's completion and locks it; a reset in it leaves every byte outside the command's target. -/
theorem HostSeq.guarded {n k : Nat} {s : State} {x : List HostOp} {f : Flc} (hp : s.par.ok = true)
    (hb : s.flc.busy = false) (hw : Memory.wf s.unlisted s.mem = true) (hf : f.busy = true) (hk : f.remaining = k + 1)
    (hx : ∀ u : State, u.par = s.par → u.flc = { s.flc with locked := false } → SameArray s u →
      HostSeq n x u (fun t => t.flc = f ∧ SameArray u t) (fun _ t => ∀ a, t.byteAt a = u.byteAt a)) :
    HostSeq (1 + n + (k + 1 + 1)) (flcGuarded s.par x) s
      (fun t => t.flc = { finishFlc f with locked := true } ∧ SameArray (flcEffect (s.setFlc f)) t)
      (fun _ t => ∀ a, (a < (flcTarget (s.setFlc f)).1 ∨ (flcTarget (s.setFlc f)).1 + (flcTarget (s.setFlc f)).2 ≤ a) →
        t.byteAt a = s.byteAt a) := by
  rw [flcGuarded, show [command s.par .flcUnlock] ++ x ++ [Machine.flcWait s.par, command s.par .flcLock]
    = ([command s.par .flcUnlock] ++ x) ++ ([Machine.flcWait s.par] ++ [command s.par .flcLock]) from rfl]
  refine HostSeq.append (post := fun t => t.flc = f ∧ SameArray s t) (torn := fun _ t => ∀ a, t.byteAt a = s.byteAt a)
    ?_ (fun t ht ⟨h1, h2⟩ => ?_) (fun r t _ h a _ => h a)
  · refine HostSeq.append (HostSeq.lock false hp hb hw) (fun t ht ⟨h1, h2⟩ => ?_) (fun r t _ h a => h a)
    refine (hx t ht.par h1 h2).mono (fun u hu ⟨h3, h4⟩ => ⟨h3, h4.mem.trans h2.mem, h4.unerased.trans h2.unerased,
      h4.draws.trans h2.draws⟩) fun r u _ h a => ?_
    rw [h a, State.byteAt_congr ht.par h2]
  · have hpt : t.par.ok = true := by rw [ht.par]; exact hp
    have hwt := h2.wf ht.par hw
    have htg : flcTarget t = flcTarget (s.setFlc f) := flcTarget_congr ht.par (by rw [h1]; rfl) (by rw [h1]; rfl)
    have hef := flcEffect_congr (s := s.setFlc f) (t := t) ht.par (by rw [h1]; rfl) (by rw [h1]; rfl) (by rw [h1]; rfl)
      (by rw [h1]; rfl) ⟨h2.mem, h2.unerased, h2.draws⟩
    have hwait := HostSeq.flcWait (n := k) hpt (by rw [h1]; exact hf) (by rw [h1]; exact hk) hwt
    rw [htg, ht.par] at hwait
    refine HostSeq.append hwait (fun u hu ⟨h3, h4⟩ => ?_) fun r u _ h a ha => ?_
    · have hpu : u.par = s.par := hu.par.trans ht.par
      have hsu : SameArray (flcEffect (s.setFlc f)) u :=
        ⟨h4.mem.trans hef.mem, h4.unerased.trans hef.unerased, h4.draws.trans hef.draws⟩
      have hpe : u.par = (flcEffect (s.setFlc f)).par := by rw [hpu, flcEffect_frame]; rfl
      have hbu : u.flc.busy = false := by rw [h3]; rfl
      have := HostSeq.lock true (s := u) (by rw [hpu]; exact hp) hbu (hsu.wf hpe (wf_flcEffect _ hw))
      rw [hpu] at this
      refine this.mono (fun v hv ⟨h5, h6⟩ => ⟨by rw [h5, h3, h1], h6.mem.trans hsu.mem, h6.unerased.trans hsu.unerased,
        h6.draws.trans hsu.draws⟩) fun r v _ h a ha => ?_
      rw [h a, State.byteAt_congr hpe hsu, flcEffect_outside (s.setFlc f) hw a ha]
      rfl
    · rw [h a ha, State.byteAt_congr ht.par h2]

/-- The FLC after a guarded command on an erased target: idle, locked, PGERR as it was; and the array is in canonical form. -/
structure GuardedEnd (s t : State) : Prop where
  busy : t.flc.busy = false
  locked : t.flc.locked = true
  pgerr : t.flc.pgerr = s.flc.pgerr
  wf : Memory.wf t.unlisted t.mem = true

/-- ErasePage (43_flash.md R216, R224) of an idle FLC. -/
theorem HostSeq.erasePage {s : State} {a : Word} (hp : s.par.ok = true) (hb : s.flc.busy = false)
    (hw : Memory.wf s.unlisted s.mem = true) (ha : erasePageAddrOk s.par a.toNat = true) :
    HostSeq (guardedTicks 3 s.par.tErasePage) (Machine.erasePage s.par a) s
      (fun t => GuardedEnd s t ∧ ∀ b, t.byteAt b
        = if a.toNat ≤ b ∧ b < a.toNat + s.par.pageSize then s.par.erasedByte else s.byteAt b)
      (fun _ t => ∀ b, (b < a.toNat ∨ a.toNat + s.par.pageSize ≤ b) → t.byteAt b = s.byteAt b) := by
  obtain ⟨k, hk⟩ : ∃ k, s.par.tErasePage = k + 1 := ⟨_, (Nat.succ_pred_eq_of_pos ((Params.ok_iff _).1 hp).erasePagePos).symm⟩
  have hstart : pageStart s.par (pageOf s.par a.toNat) = a.toNat := by
    simp only [erasePageAddrOk, inWindow, Bool.and_eq_true, decide_eq_true_eq, beq_iff_eq] at ha
    rw [pageStart, pageOf, Nat.div_mul_cancel (Nat.dvd_of_mod_eq_zero ha.2)]
    omega
  generalize hff : acceptFlc opErasePage false s.par.tErasePage { s.flc with locked := false, addr := a } = f
  have hseq := HostSeq.guarded (n := 2) (k := k) (x := flcErasePageAt s.par a) (f := f) hp hb hw
    (by rw [← hff]; rfl) (by rw [← hff]; exact hk) ?_
  · rw [show guardedTicks 3 s.par.tErasePage = 1 + 2 + (k + 1 + 1) by rw [hk]; rfl]
    have htg : flcTarget (s.setFlc f) = (a.toNat, s.par.pageSize) := by
      rw [← hff]
      exact congrArg (·, s.par.pageSize) hstart
    rw [htg] at hseq
    refine hseq.mono (fun t ht ⟨h1, h2⟩ => ⟨⟨by rw [h1]; rfl, by rw [h1], by rw [h1, ← hff]; simp [finishFlc, acceptFlc],
      ?_⟩, ?_⟩) fun _ _ _ h => h
    · refine h2.wf ?_ (wf_flcEffect _ hw)
      rw [ht.par, flcEffect_frame]; rfl
    · intro b
      rw [State.byteAt_congr (by rw [ht.par, flcEffect_frame]; rfl) h2]
      have heff : flcEffect (s.setFlc f)
          = (s.setFlc f).eraseRange (pageStart s.par (pageOf s.par a.toNat)) s.par.pageSize := by
        rw [← hff]; rfl
      rw [heff]
      refine (State.byteAt_eraseRange (s.setFlc f) (page_whole s.par _) b).trans ?_
      rw [hstart]
      rfl
  · intro u hu hf hs
    have hpu : u.par.ok = true := by rw [hu]; exact hp
    have hwu := hs.wf hu hw
    rw [show flcErasePageAt s.par a = [wrReg u.par .flcAddr a] ++ [command u.par .flcErasep] by rw [hu]; rfl]
    refine HostSeq.append (m := 1) (n := 1) (HostSeq.operand .flcAddr a (.inl ⟨rfl, rfl⟩) hpu (by rw [hf]; exact hb) hwu)
      (fun t ht ⟨h1, h2⟩ => ?_) fun _ _ _ h => h
    have hpt : t.par = s.par := ht.par.trans hu
    rw [← ht.par]
    refine (HostSeq.accepted .flcErasep (f := f) (by simp) (fun x hx hxf _ => ?_) (by rw [hpt]; exact hp)
      (by rw [h1, hf]; exact hb) (h2.wf ht.par hwu)).mono (fun v hv ⟨h3, h4⟩ => ⟨h3, h4.mem.trans h2.mem,
        h4.unerased.trans h2.unerased, h4.draws.trans h2.draws⟩) fun _ v _ h b => by rw [h, State.byteAt_congr ht.par h2]
    rw [h1, hf] at hxf
    have hxp : x.par = s.par := hx.trans hpt
    rw [exec, execFlcErasep, issueFlc, hxf, hxp]
    simp only [hb, ha, if_true, Bool.false_eq_true, if_false, ← hff]

/-- ProgramHalfWord (43_flash.md R218, R224) of an erased target by an idle FLC. -/
theorem HostSeq.programHalfWord {s : State} {a : Word} (v : Half) (hp : s.par.ok = true) (hb : s.flc.busy = false)
    (hw : Memory.wf s.unlisted s.mem = true) (ha : progHalfAddrOk s.par a.toNat = true)
    (he : s.erasedAt 2 a.toNat = true) :
    HostSeq (guardedTicks 4 s.par.tProgHalf) (Machine.programHalfWord s.par a v) s
      (fun t => GuardedEnd s t ∧ ∀ b, t.byteAt b
        = if a.toNat ≤ b ∧ b < a.toNat + 2 then BitVec.ofNat 8 (v.toNat / 256 ^ (b - a.toNat)) else s.byteAt b)
      (fun _ t => ∀ b, (b < a.toNat ∨ a.toNat + 2 ≤ b) → t.byteAt b = s.byteAt b) := by
  obtain ⟨k, hk⟩ : ∃ k, s.par.tProgHalf = k + 1 := ⟨_, (Nat.succ_pred_eq_of_pos ((Params.ok_iff _).1 hp).progHalfPos).symm⟩
  generalize hff : acceptFlc opProgHalf false s.par.tProgHalf
    { s.flc with locked := false, addr := a, data := BitVec.ofNat 32 v.toNat } = f
  have hval : progHalfValue (BitVec.ofNat 32 v.toNat) = v.toNat := by
    have := v.isLt
    simp only [progHalfValue, BitVec.toNat_ofNat]
    omega
  have hseq := HostSeq.guarded (n := 3) (k := k) (x := flcProgHalfAt s.par a v) (f := f) hp hb hw
    (by rw [← hff]; rfl) (by rw [← hff]; exact hk) ?_
  · rw [show guardedTicks 4 s.par.tProgHalf = 1 + 3 + (k + 1 + 1) by rw [hk]; rfl]
    have htg : flcTarget (s.setFlc f) = (a.toNat, 2) := by rw [← hff]; rfl
    rw [htg] at hseq
    refine hseq.mono (fun t ht ⟨h1, h2⟩ => ⟨⟨by rw [h1]; rfl, by rw [h1], by rw [h1, ← hff]; simp [finishFlc, acceptFlc],
      ?_⟩, ?_⟩) fun _ _ _ h => h
    · refine h2.wf ?_ (wf_flcEffect _ hw)
      rw [ht.par, flcEffect_frame]; rfl
    · intro b
      rw [State.byteAt_congr (by rw [ht.par, flcEffect_frame]; rfl) h2]
      have heff : flcEffect (s.setFlc f) = (s.setFlc f).writeFlash 2 a.toNat v.toNat := by
        rw [← hval, ← hff]; rfl
      rw [heff]
      exact State.byteAt_writeFlash (s.setFlc f) 2 a.toNat v.toNat hw b
  · intro u hu hf hs
    have hpu : u.par.ok = true := by rw [hu]; exact hp
    have hwu := hs.wf hu hw
    rw [show flcProgHalfAt s.par a v = [wrReg u.par .flcAddr a] ++ ([wrReg u.par .flcData (BitVec.ofNat 32 v.toNat)]
      ++ [command u.par .flcProgh]) by rw [hu]; rfl]
    refine HostSeq.append (m := 1) (n := 2) (HostSeq.operand .flcAddr a (.inl ⟨rfl, rfl⟩) hpu (by rw [hf]; exact hb) hwu)
      (fun t ht ⟨h1, h2⟩ => ?_) fun _ _ _ h => h
    have hpt : t.par.ok = true := by rw [ht.par]; exact hpu
    have hwt := h2.wf ht.par hwu
    rw [← ht.par]
    refine HostSeq.append (m := 1) (n := 1) (torn := fun _ y => ∀ b, y.byteAt b = u.byteAt b) ((HostSeq.operand .flcData
      (BitVec.ofNat 32 v.toNat) (.inr ⟨rfl, rfl⟩) hpt (by rw [h1, hf]; exact hb) hwt).mono (fun _ _ h => h)
      fun _ y _ h b => by rw [h, State.byteAt_congr ht.par h2]) (fun y hy ⟨h3, h4⟩ => ?_) fun _ _ _ h => h
    have hyu : SameArray u y := ⟨h4.mem.trans h2.mem, h4.unerased.trans h2.unerased, h4.draws.trans h2.draws⟩
    have hyp : y.par = u.par := hy.par.trans ht.par
    rw [← hy.par]
    refine (HostSeq.accepted .flcProgh (f := f) (by simp) (fun x hx hxf hxs => ?_) (by rw [hyp]; exact hpu)
      (by rw [h3, h1, hf]; exact hb) (hyu.wf hyp hwu)).mono (fun z hz ⟨h5, h6⟩ => ⟨h5, h6.mem.trans hyu.mem,
        h6.unerased.trans hyu.unerased, h6.draws.trans hyu.draws⟩) fun _ z _ h b => by rw [h, State.byteAt_congr hyp hyu]
    rw [h3, h1, hf] at hxf
    have hxp : x.par = s.par := hx.trans (hyp.trans hu)
    have hxe : x.erasedAt 2 a.toNat = true := by
      rw [State.erasedAt_iff] at he ⊢
      intro b hb1 hb2
      rw [State.byteAt_congr hx hxs, State.byteAt_congr hyp hyu, State.byteAt_congr hu hs, hxp, he b hb1 hb2]
    rw [exec, execFlcProgh, issueFlc, hxf, hxp]
    simp only [hb, ha, hxe, if_true, Bool.false_eq_true, if_false, Bool.not_true, ← hff]

/-! ### Reading slots -/

theorem State.halfAt_congr {s t : State} (hp : t.par = s.par) (h : SameArray s t) (a : Nat) : t.halfAt a = s.halfAt a := by
  rw [State.halfAt, State.halfAt, State.byteAt_congr hp h, State.byteAt_congr hp h]

/-- The halfword that the host takes from the answer of `rd.h` is that of the array (20_memory.md R86). -/
theorem halfRead_readBytes (s : State) (a : Nat) :
    halfRead (.data .w16 (BitVec.ofNat 32 (s.readBytes 2 a))) = s.halfAt a := by
  have h0 := (s.byteAt a).isLt
  have h1 := (s.byteAt (a + 1)).isLt
  have hr : s.readBytes 2 a = (s.byteAt a).toNat + 256 * ((s.byteAt (a + 1)).toNat + 256 * 0) := rfl
  apply BitVec.eq_of_toNat_eq
  rw [State.halfAt, BitVec.toNat_append, ← Nat.shiftLeft_add_eq_or_of_lt h0, Nat.shiftLeft_eq, halfRead, readValue, hr]
  simp only [BitVec.toNat_ofNat]
  omega

/-- One tick of `rd.h` in the flash window: it stalls while the FLC is busy after the units acted, else it is performed
(20_memory.md R96, 43_flash.md R212). -/
theorem hostTurn_rdH (s : State) (hp : s.par.ok = true) (a : Word) (hw : inWindow s.par a.toNat = true)
    (ha : a.toNat % 2 = 0) (x : State) (hx : unitsTick (s.making (command s.par (.rdH a))) = x) :
    hostTurn x =
      if x.flc.busy then
        .next { x with host := { x.host with prog := [command s.par (.rdH a)], resp := .stalled } }
      else
        .next { x with host := { x.host with
          prog := [], resp := .data .w16 (BitVec.ofNat 32 (x.readBytes 2 a.toNat)) } } := by
  have hu := unitsTick_frame (s.making (command s.par (.rdH a)))
  rw [hx] at hu
  have hd : decodeAccess s.par (encode s.par (.rdH a)) = .instr (.rdH a) := by
    simp only [encode, decodeAccess, regionOf_flash _ ((Params.ok_iff _).1 hp) _ hw]
    rfl
  have hxp : x.par = s.par := hu.1
  have hr : performAccess (encode s.par (.rdH a)) x = if x.flc.busy then .next (x.respond .stalled)
      else .next (x.respond (.data .w16 (BitVec.ofNat 32 (x.readBytes 2 a.toNat)))) := by
    rw [performAccess, hxp, hd, performDecoded, exec, execRdH, readFlash, hxp, if_pos hw, if_pos ha]
  have hprog : x.host.prog = [command s.par (.rdH a)] := by rw [hu.2.2.2.2.2.2]; rfl
  unfold hostTurn
  rw [hprog, command]
  dsimp only
  rw [hr]
  split <;> rfl

/-- `rd.h` of an idle FLC, without a reset: it takes one tick, answers the array's halfword and changes nothing of the FLC. -/
theorem runRoutine_rdH {α : Type} (n : Nat) (s : State) (hp : s.par.ok = true) (a : Word)
    (hw : inWindow s.par a.toNat = true) (ha : a.toNat % 2 = 0) (hb : s.flc.busy = false)
    (hr : (s.envAt 0).reset = false) (next : HostResp → Routine α) :
    ∃ r t, halfRead r = s.halfAt a.toNat
      ∧ runRoutine (n + 1) (.line (command s.par (.rdH a)) next) s = runRoutine n (next r) t
      ∧ Later 1 s t ∧ t.flc = s.flc ∧ SameArray s t := by
  have hu := unitsTick_frame (s.making (command s.par (.rdH a)))
  have hi := unitsTick_flc_idle (s.making (command s.par (.rdH a))) hb
  have ht := hostTurn_rdH s hp a hw ha _ rfl
  rw [if_neg (by rw [hi.1]; simp [hb])] at ht
  have hl := later_of_hostTurn (.of_hostTurn ht)
    (by show (unitsTick (s.making _)).host.boot = _; rw [hu.2.2.2.2.2.2]; rfl)
  refine ⟨_, _, ?_, (runRoutine_next n _ next s _ hp hr ht).trans (if_pos rfl), hl, hi.1, hi.2.mem, hi.2.unerased,
    hi.2.draws⟩
  rw [halfRead_readBytes]
  exact State.halfAt_congr hu.1 ⟨hi.2.mem, hi.2.unerased, hi.2.draws⟩ _

/-! ### A run that returned -/

/-- A run that returned has ended its first line, and went on from some answer to it. -/
theorem runRoutine_line_returned {α : Type} {op : HostOp} {next : HostResp → Routine α} {n : Nat} {s t : State} {a : α}
    (h : runRoutine n (.line op next) s = .returned a t) :
    ∃ m u r, u.par = s.par ∧ runRoutine m (next r) u = .returned a t := by
  induction n generalizing s with
  | zero => cases h
  | succ n ih =>
    rw [runRoutine] at h
    cases hs : step (s.making op) with
    | fault r => rw [hs] at h; cases h
    | refused r => rw [hs] at h; cases h
    | next u =>
      rw [hs] at h
      have hp : u.par = s.par := (step_par hs).trans rfl
      dsimp only at h
      split at h
      · cases h
      · split at h
        · cases h
        · obtain ⟨m, v, r, h1, h2⟩ := ih h
          exact ⟨m, v, r, h1.trans hp, h2⟩
        · exact ⟨n, u, _, hp, h⟩
        · exact ⟨n, u, _, hp, h⟩
        · split at h
          · exact ⟨n, u, _, hp, h⟩
          · obtain ⟨m, v, r, h1, h2⟩ := ih h
            exact ⟨m, v, r, h1.trans hp, h2⟩

/-- A run of a sequence and then `r` that returned has come to `r`. -/
theorem runRoutine_after_returned {α : Type} {r : Routine α} {ops : List HostOp} {n : Nat} {s t : State} {a : α}
    (h : runRoutine n (r.after ops) s = .returned a t) : ∃ m u, u.par = s.par ∧ runRoutine m r u = .returned a t := by
  induction ops generalizing n s with
  | nil => exact ⟨n, s, rfl, h⟩
  | cons op ops ih =>
    obtain ⟨m, u, _, h1, h2⟩ := runRoutine_line_returned h
    obtain ⟨k, v, h3, h4⟩ := ih h2
    exact ⟨k, v, h3.trans h1, h4⟩

end Sys2Proof.Machine
end

