-- ==== Sys2Proof/Tests/Slice0.lean ====
section
/-! SUPPORT. Small tests of the model, then one witness for the hypotheses of each statement. Expected values come from the
vectors of 95_test_vectors.md (V-...) or from a worked example of the rule named; parameters are those of that file. -/

namespace Sys2Proof.Tests

open Sys2Proof Sys2Proof.Machine

/-! ### WellFormed: one ill-formed term for each check -/

theorem test_wf_refuses_odd_halfword_read : Instr.wf (.rdH 0x08000011) = false := by decide
theorem test_wf_refuses_misaligned_word_read : Instr.wf (.rdW 0x08000012) = false := by decide
theorem test_wf_admits_byte_read : Instr.wf (.rdB 0x08000011) = true := by decide
theorem test_params_ok : exampleParams.ok = true := by decide
theorem test_params_i2cm_aligned : Params.ok { exampleParams with i2cmBase := 0x40000024 } = false := by decide
theorem test_params_flc_aligned : Params.ok { exampleParams with flcBase := 0x40000024 } = false := by decide
theorem test_params_i2cm_fits : Params.ok { exampleParams with i2cmBase := 0x100000000 } = false := by decide
theorem test_params_flc_fits : Params.ok { exampleParams with flcBase := 0x100000000 } = false := by decide
theorem test_params_page_lower : Params.ok { exampleParams with pageLog := 9 } = false := by decide
theorem test_params_page_upper : Params.ok { exampleParams with pageLog := 33, flashBase := 0 } = false := by decide
theorem test_params_pages : Params.ok { exampleParams with numPages := 0 } = false := by decide
theorem test_params_flash_aligned : Params.ok { exampleParams with flashBase := 0x08000200 } = false := by decide
theorem test_params_flash_fits : Params.ok { exampleParams with numPages := 0x400000 } = false := by decide
theorem test_params_blocks_apart : Params.ok { exampleParams with flcBase := 0x40000000 } = false := by decide
theorem test_params_i2cm_apart : Params.ok { exampleParams with i2cmBase := 0x0800FFF0 } = false := by decide
theorem test_params_flc_apart : Params.ok { exampleParams with flcBase := 0x08000000 } = false := by decide
theorem test_params_erase_page : Params.ok { exampleParams with tErasePage := 0 } = false := by decide
theorem test_params_erase_all : Params.ok { exampleParams with tEraseAll := 0 } = false := by decide
theorem test_params_prog_half : Params.ok { exampleParams with tProgHalf := 0 } = false := by decide
theorem test_params_prog_word : Params.ok { exampleParams with tProgWord := 0 } = false := by decide

/-! ### Decoding: words written out field by field from 30_encoding.md R111 and R112 -/

/-- RSV1, ARG, RSV0, OP (R111). -/
def i2cmWord (rsv1 : BitVec 16) (arg : BitVec 8) (rsv0 op : BitVec 4) : Word := rsv1 ++ arg ++ rsv0 ++ op

/-- RSV, OP (R112). -/
def flcWord (rsv : BitVec 28) (op : BitVec 4) : Word := rsv ++ op

theorem test_decode_init : decodeI2cm (i2cmWord 0 0 0 0x1) = .ok .i2cInit := by decide
theorem test_decode_start : decodeI2cm (i2cmWord 0 0 0 0x2) = .ok .i2cStart := by decide
theorem test_decode_stop : decodeI2cm (i2cmWord 0 0 0 0x3) = .ok .i2cStop := by decide
theorem test_decode_sendb : decodeI2cm (i2cmWord 0 0xD0 0 0x4) = .ok (.i2cSendb 0xD0) := by decide    -- V-E4
theorem test_decode_recvb : decodeI2cm (i2cmWord 0 0 0 0x5) = .ok .i2cRecvb := by decide
theorem test_decode_sack : decodeI2cm (i2cmWord 0 1 0 0x6) = .ok (.i2cSack true) := by decide         -- V-E8
theorem test_decode_rack : decodeI2cm (i2cmWord 0 0 0 0x7) = .ok .i2cRack := by decide
theorem test_decode_wscl : decodeI2cm (i2cmWord 0 1 0 0x8) = .ok (.i2cWscl true) := by decide         -- V-E10
theorem test_decode_wsda : decodeI2cm (i2cmWord 0 0 0 0x9) = .ok (.i2cWsda false) := by decide        -- R127
theorem test_decode_rsda : decodeI2cm (i2cmWord 0 0 0 0xA) = .ok .i2cRsda := by decide
theorem test_decode_unlock : decodeFlc (flcWord 0 0x1) = .ok .flcUnlock := by decide
theorem test_decode_lock : decodeFlc (flcWord 0 0x2) = .ok .flcLock := by decide
theorem test_decode_erasep : decodeFlc (flcWord 0 0x3) = .ok .flcErasep := by decide
theorem test_decode_erasea : decodeFlc (flcWord 0 0x4) = .ok .flcErasea := by decide
theorem test_decode_progh : decodeFlc (flcWord 0 0x5) = .ok .flcProgh := by decide
theorem test_decode_progw : decodeFlc (flcWord 0 0x6) = .ok .flcProgw := by decide
theorem test_decode_rdb : decodeAccess exampleParams (.read .w8 0x08000011) = .instr (.rdB 0x08000011) := by decide
theorem test_decode_rdh : decodeAccess exampleParams (.read .w16 0x08000010) = .instr (.rdH 0x08000010) := by decide
theorem test_decode_rdw : decodeAccess exampleParams (.read .w32 0x0800FFFC) = .instr (.rdW 0x0800FFFC) := by decide

/-- V-E1, V-E3, V-E9, V-E11, V-E13, V-E15, V-E16, V-E17 of the I2CM. -/
theorem test_decode_i2cm_refuses :
    decodeI2cm 0x00000000 = .error .reservedOpcode ∧ decodeI2cm 0x00000101 = .error .argNotTaken
      ∧ decodeI2cm 0x00000206 = .error .argNotTaken ∧ decodeI2cm 0x0000FE08 = .error .argNotTaken
      ∧ decodeI2cm 0x0000000B = .error .reservedOpcode ∧ decodeI2cm 0x00000012 = .error .reservedBits
      ∧ decodeI2cm 0x00010002 = .error .reservedBits ∧ decodeI2cm 0x80000001 = .error .reservedBits := by decide

/-- V-E18, V-E20, V-E21, V-E22 of the FLC. -/
theorem test_decode_flc_refuses :
    decodeFlc 0x00000000 = .error .reservedOpcode ∧ decodeFlc 0x00000007 = .error .reservedOpcode
      ∧ decodeFlc 0x00000013 = .error .reservedBits ∧ decodeFlc 0x00000101 = .error .reservedBits := by decide

/-! ### One step -/

/-- The machine after reset, with a flash array every page of which has been erased. -/
def blank : State := { State.reset with unerased := [] }

/-- A tick in which the peer releases both lines. -/
def released : EnvTick := { reset := false, sclP := true, sdaP := true }

/-- A tick in which the peer drives SDA low. -/
def sdaLow : EnvTick := { reset := false, sclP := true, sdaP := false }

/-- The state after one tick with the given environment and host program. -/
def one (s : State) (e : EnvTick) (prog : List HostOp) : Option State :=
  match step { s with env := [e], host := { prog := prog, resp := .none, boot := [] } } with
  | .next t => some t
  | .fault _ => none
  | .refused _ => none

/-- What the I2CM shows after one tick without a host access: I2CM_STAT and I2CM_DATA. -/
def i2cmShows (m : I2cm) (e : EnvTick) : Option (Word × Word) :=
  (one { blank with i2cm := m } e []).map fun t => (i2cmStat t.i2cm, i2cmData t.i2cm)

/-- I2CM_STAT and the micro-steps after the write of a word to I2CM_CMD. -/
def i2cmTakes (m : I2cm) (w : Word) : Option (Word × List MicroOp) :=
  (one { blank with i2cm := m } released [.access (writeOf exampleParams .i2cmCmd w)]).map fun t =>
    (i2cmStat t.i2cm, t.i2cm.steps)

/-- FLC_STAT after the write of a word to FLC_CMD. -/
def flcTakes (f : Flc) (w : Word) : Option Word :=
  (one { blank with flc := f } released [.access (writeOf exampleParams .flcCmd w)]).map fun t => flcStat t.flc

/-- A unit about to perform micro-step `k`. -/
def due (m : I2cm) (op : BitVec 4) (arg : Byte) (k : Nat) : I2cm :=
  { m with busy := true, curOp := op, curArg := arg, steps := microSteps op arg, k := k, dq := 10, waitCnt := 1 }

/-- A unit with the clock low. -/
def low : I2cm := { I2cm.reset with sclO := false }

/-- An unlocked FLC with its operand registers written. -/
def unlockedAt (a d : Word) : Flc := { Flc.reset with locked := false, addr := a, data := d }

/-- V-P14: SCL is released first. -/
theorem test_init_accepted : i2cmTakes { low with sdaO := false } 0x1 = some (0x00000001, [.scl true, .sda true]) := by decide
/-- R161: OWNED is cleared. -/
theorem test_init_completes : i2cmShows { due I2cm.reset opInit 0 2 with owned := true } released = some (0x6, 0) := by decide
/-- V-P1: BUSY at acceptance, no SEQERR. -/
theorem test_start_accepted :
    i2cmTakes I2cm.reset 0x2 = some (0x00000007, [.sda true, .scl true, .sda false, .scl false]) := by decide
/-- V-P1: the last micro-step left both lines low; completion sets OWNED. -/
theorem test_start_completes :
    i2cmShows (due { low with sdaO := false } opStart 0 4) released = some (0x00000020, 0) := by decide
/-- V-P5: SEQERR at tick 0 on an idle bus. -/
theorem test_stop_sets_seqerr :
    i2cmTakes I2cm.reset 0x3 = some (0x00000807, [.sda false, .scl true, .sda true]) := by decide
/-- V-P4: the STOP condition is at micro-step 2; here micro-step 2 releases SDA. -/
theorem test_stop_releases_sda :
    i2cmShows (due { I2cm.reset with sdaO := false } opStop 0 2) released = some (0x00000007, 0) := by decide
/-- V-P6: 0xA5 sends 1,0,1,0,0,1,0,1. -/
theorem test_sendb_bits :
    (i2cmTakes low 0x0000A504).map (fun r => r.2.filter fun op => op != .scl true && op != .scl false)
      = some [.sda true, .sda false, .sda true, .sda false, .sda false, .sda true, .sda false, .sda true] := by decide
/-- V-P8: SDA(0) at tick 1 while SCL is high. -/
theorem test_sendb_first_step :
    i2cmShows { due I2cm.reset opSendByte 0x00 0 with seqerr := true } released = some (0x00000803, 0) := by decide
/-- R165: the sample of bit 2 goes to `acc[2]`, and SDA_IN follows it. -/
theorem test_recvb_samples :
    (one { blank with i2cm := { due low opRecvByte 0 17 with acc := 0x30 } } released []).map
      (fun t => (t.i2cm.acc, t.i2cm.sdaIn, t.i2cm.rxdata)) = some (0x34, true, 0x00) := by decide
/-- V-P9: RXDATA is 0x3C from the completion tick. -/
theorem test_recvb_completes :
    i2cmShows { due low opRecvByte 0 25 with acc := 0x3C } released = some (0x00000004, 0x3C) := by decide
/-- V-P11: SEND_ACK 1 releases SDA. -/
theorem test_sack_accepted : i2cmTakes low 0x00000106 = some (0x00000005, [.sda true, .scl true, .scl false]) := by decide
/-- V-P10: SEND_ACK 0 drives SDA low at tick 1. -/
theorem test_sack_drives : i2cmShows (due low opSendAck 0 0) released = some (0x00000001, 0) := by decide
/-- V-P12: a sample of 0 is an acknowledge; a latched 1 is overwritten. -/
theorem test_rack_samples :
    (one { blank with i2cm := { due I2cm.reset opRecvAck 0 2 with acc := 1 } } sdaLow []).map
      (fun t => (t.i2cm.acc, t.i2cm.sdaIn)) = some (0, false) := by decide
/-- V-P13: ACK and NACKF at completion. -/
theorem test_rack_completes :
    i2cmShows { due low opRecvAck 0 4 with acc := 1, sdaIn := true } released = some (0x0000011C, 0) := by decide
/-- V-B1: SCL is released at tick 1 and SEQERR is unchanged. -/
theorem test_wscl_releases : i2cmShows (due low opWriteScl 1 0) released = some (0x00000007, 0) := by decide
/-- V-B2: WRITE_SCL 1 with the clock released sets no SEQERR. -/
theorem test_wscl_accepted : i2cmTakes I2cm.reset 0x00000108 = some (0x00000007, [.scl true]) := by decide
/-- V-B3: SDA is driven low at tick 1. -/
theorem test_wsda_drives : i2cmShows (due I2cm.reset opWriteSda 0 0) released = some (0x00000003, 0) := by decide
/-- V-B3: the word 0x00000009. -/
theorem test_wsda_accepted : i2cmTakes I2cm.reset 0x00000009 = some (0x00000007, [.sda false]) := by decide
/-- V-B5: the master's own drive wins. -/
theorem test_rsda_master_low :
    i2cmShows { due I2cm.reset opReadSda 0 0 with sdaO := false, sdaIn := true } released = some (0x00000003, 0) := by decide
/-- V-B6: a released line reads 1, before BUSY clears. -/
theorem test_rsda_high : i2cmShows (due I2cm.reset opReadSda 0 0) released = some (0x0000000F, 0) := by decide
/-- V-F2: a reserved word while busy sets BUSYERR only. -/
theorem test_busy_first :
    (i2cmTakes { due I2cm.reset opStart 0 1 with waitCnt := 5 } 0x0000000B).map Prod.fst = some 0x00000407 := by decide
/-- V-F3: a command written in the completion tick is accepted (BUSY is 1 again, OWNED set, no BUSYERR). -/
theorem test_accept_in_completion_tick :
    (i2cmTakes (due { low with sdaO := false } opStart 0 4) 0x00001204).map Prod.fst = some 0x00000021 := by decide

/-- V-L19, R214: UNLOCK sets no flag. -/
theorem test_unlock :
    (one State.reset released [command exampleParams .flcUnlock]).map (fun t => (t.flc.locked, flcStat t.flc))
      = some (false, 0) := by decide
/-- V-F9: LOCK while busy sets BUSYERR and leaves the unit unlocked. -/
theorem test_lock_while_busy :
    (one { blank with flc := { unlockedAt 0 0 with busy := true, curOp := opProgHalf, remaining := 4 } } released
      [command exampleParams .flcLock]).map (fun t => (t.flc.locked, flcStat t.flc)) = some (false, 0x1001) := by decide
/-- R215. -/
theorem test_lock :
    (one { blank with flc := unlockedAt 0 0 } released [command exampleParams .flcLock]).map
      (fun t => (t.flc.locked, flcStat t.flc)) = some (true, 0) := by decide
/-- V-L2: the lock is checked before the address. -/
theorem test_erasep_locked : flcTakes { Flc.reset with addr := 0x08000401 } 0x3 = some 0x00000200 := by decide
/-- V-L4, V-L5, V-L6: ADDRERR inside a page, just past and just before the window. -/
theorem test_erasep_addresses :
    flcTakes (unlockedAt 0x08000401 0) 0x3 = some 0x400 ∧ flcTakes (unlockedAt 0x08010000 0) 0x3 = some 0x400
      ∧ flcTakes (unlockedAt 0x07FFFC00 0) 0x3 = some 0x400 ∧ flcTakes (unlockedAt 0x08000400 0) 0x3 = some 0x1 := by decide
/-- V-L3: the page is 0xFF and EOP is set at completion; the bytes before and after the page are kept. -/
theorem test_erasep_completes :
    (one { blank with
        flc := { unlockedAt 0 0 with busy := true, curOp := opErasePage, curAddr := 0x08000400, remaining := 1 }
        mem := [(0x080003FF, 1), (0x08000400, 2), (0x080007FF, 3), (0x08000800, 4)] } released []).map
      (fun t => (t.mem, flcStat t.flc)) = some ([(0x080003FF, 1), (0x08000800, 4)], 0x4) := by decide
/-- V-L7. -/
theorem test_erasea_completes :
    (one { blank with
        flc := { unlockedAt 0 0 with busy := true, curOp := opEraseAll, remaining := 1 }
        mem := [(0x08000000, 1), (0x0800FFFF, 2)] } released []).map (fun t => (t.mem, flcStat t.flc)) = some ([], 0x4) := by
  decide
/-- R217: FLC_ADDR is ignored. -/
theorem test_erasea_accepted : flcTakes (unlockedAt 0xFFFFFFFF 0) 0x4 = some 0x1 := by decide
/-- V-L8: DATA[31:16] is ignored; little-endian. -/
theorem test_progh_completes :
    (one { blank with
        flc := { unlockedAt 0 0 with
          busy := true, curOp := opProgHalf, curAddr := 0x08000000, curData := 0xFFFFA5C3, remaining := 1 } } released
      []).map (fun t => (t.mem, flcStat t.flc)) = some ([(0x08000000, 0xC3), (0x08000001, 0xA5)], 0x4) := by decide
/-- V-L11, V-L12. -/
theorem test_progh_addresses :
    flcTakes (unlockedAt 0x08000001 0) 0x5 = some 0x400 ∧ flcTakes (unlockedAt 0x0800FFFE 0) 0x5 = some 0x1 := by decide
/-- V-L13. -/
theorem test_progw_completes :
    (one { blank with
        flc := { unlockedAt 0 0 with
          busy := true, curOp := opProgWord, curAddr := 0x08000008, curData := 0x11223344, remaining := 1 } } released
      []).map (fun t => (t.mem, flcStat t.flc))
      = some ([(0x08000008, 0x44), (0x08000009, 0x33), (0x0800000A, 0x22), (0x0800000B, 0x11)], 0x4) := by decide
/-- V-L14, V-L15, V-L16: one programmed byte of four makes `pg_fail`; alignment; the last word. -/
theorem test_progw_accepted :
    (one { blank with flc := unlockedAt 0x08000008 0, mem := [(0x0800000B, 0)] } released
        [command exampleParams .flcProgw]).map (fun t => (t.flc.pgFail, t.flc.remaining)) = some (true, 8)
      ∧ flcTakes (unlockedAt 0x08000002 0) 0x6 = some 0x400 ∧ flcTakes (unlockedAt 0x0800FFFC 0) 0x6 = some 0x1 := by decide

/-- The bytes of the flash-read vectors. -/
def readMem : State :=
  { blank with mem := [(0x08000010, 0x34), (0x08000011, 0x12), (0x08000012, 0x78), (0x08000013, 0x56)] }

/-- The answer to one read. -/
def answer (s : State) (i : Instr) : Option HostResp :=
  (one s released [command exampleParams i]).map fun t => t.host.resp

/-- V-R1, V-R2. -/
theorem test_rdb : answer readMem (.rdB 0x08000010) = some (.data .w8 0x34)
    ∧ answer readMem (.rdB 0x08000011) = some (.data .w8 0x12) := by decide
/-- V-R3, V-R4, V-R8. -/
theorem test_rdh : answer readMem (.rdH 0x08000010) = some (.data .w16 0x1234)
    ∧ answer readMem (.rdH 0x08000012) = some (.data .w16 0x5678)
    ∧ answer readMem (.rdH 0x08000020) = some (.data .w16 0xFFFF) := by decide
/-- V-R5, V-R12 (the unit is locked), V-R9. -/
theorem test_rdw : answer readMem (.rdW 0x08000010) = some (.data .w32 0x56781234)
    ∧ answer readMem (.rdW 0x0800FFFC) = some (.data .w32 0xFFFFFFFF) := by decide
/-- V-R6, V-R7. -/
theorem test_read_align :
    (performAccess (.read .w16 0x08000011) readMem matches .next { host := { resp := .fault .align, .. }, .. }) = true
      ∧ (performAccess (.read .w32 0x08000012) readMem matches .next { host := { resp := .fault .align, .. }, .. }) = true := by
  decide
/-- V-R10: a read during an erase stalls, and the host makes it again. -/
theorem test_read_stalls :
    (one { readMem with flc := { unlockedAt 0 0 with busy := true, curOp := opErasePage, curAddr := 0x08000000, remaining := 150 } }
        released [command exampleParams (.rdB 0x08000010)]).map (fun t => t.host)
      = some { prog := [command exampleParams (.rdB 0x08000010)], resp := .stalled, boot := [] } := by decide
/-- V-R10: it is performed in the completion tick, after the completion. -/
theorem test_read_in_completion_tick :
    (one { readMem with flc := { unlockedAt 0 0 with busy := true, curOp := opErasePage, curAddr := 0x08000000, remaining := 1 } }
        released [command exampleParams (.rdB 0x08000010)]).map (fun t => t.host)
      = some { prog := [], resp := .data .w8 0xFF, boot := [] } := by decide

/-- The answer to an access. -/
def answerTo (a : Access) : Option HostResp :=
  match performAccess a readMem with
  | .next t => some t.host.resp
  | .fault _ => none
  | .refused _ => none

/-- V-X1 to V-X6. -/
theorem test_host_faults :
    answerTo (.write .w8 0x40000004 0xFF) = some (.fault .width) ∧ answerTo (.read .w16 0x4000001C) = some (.fault .width)
      ∧ answerTo (.read .w32 0x40000002) = some (.fault .align) ∧ answerTo (.write .w32 0x08000000 0) = some (.fault .readOnly)
      ∧ answerTo (.write .w8 0x08000001 0) = some (.fault .readOnly)
      ∧ answerTo (.write .w16 0x08000001 0) = some (.fault .readOnly) := by decide

/-- R84: past the window, and between the regions. -/
theorem test_outside_is_refused :
    answerTo (.read .w8 0x08010000) = none ∧ answerTo (.write .w32 0x40000020 0) = none := by decide

/-- V-F5, V-F6, V-F7: W1C. -/
theorem test_w1c :
    i2cmClear 0x100 { I2cm.reset with nackf := true, seqerr := true } = { I2cm.reset with seqerr := true }
      ∧ i2cmClear 0x800 { I2cm.reset with nackf := true, seqerr := true } = { I2cm.reset with nackf := true }
      ∧ i2cmClear 0xFFFFFFFF { I2cm.reset with busy := true, nackf := true, cmderr := true, busyerr := true, seqerr := true }
        = { I2cm.reset with busy := true } := by decide

/-- V-F8: NACKF is set in step 3 and cleared in step 4 of one tick. -/
theorem test_nackf_set_and_cleared :
    (one { blank with i2cm := { due low opRecvAck 0 4 with acc := 1, sdaIn := true } } released
      [wrReg exampleParams .i2cmStat 0x100]).map (fun t => i2cmStat t.i2cm) = some 0x0000001C := by decide

/-- V-B7: a DLY of 0 latches a quantum of 1. -/
theorem test_delay_zero : dqOf 0 = 1 ∧ dqOf 65535 = 65535 ∧ dqOf 10 = 10 := by decide

/-- V-Z2, V-Z3: a reset in a tick; the host makes no access in it, and its program is not resumed (R258). -/
theorem test_reset_tick :
    (one { blank with i2cm := { due low opSendByte 0x55 3 with nackf := true, rxdata := 0x3C }, flc := unlockedAt 1 2 }
      { released with reset := true } [command exampleParams .i2cStart]).map
      (fun t => (t.i2cm == I2cm.reset, t.flc == Flc.reset, t.host.prog)) = some (true, true, []) := by
  decide

/-- V-Z4: a reset during a PROG_HALF draws its two bytes, and leaves the unit locked and its flags clear. -/
theorem test_reset_during_progh :
    (one { blank with
        flc := { unlockedAt 0 0 with busy := true, curOp := opProgHalf, curAddr := 0x08000000, remaining := 3, eop := true } }
      { released with reset := true } []).map (fun t => (t.flc.locked, flcStat t.flc, t.draws)) = some (true, 0, 2) := by
  decide

/-- R127, R124: the words of the table. -/
theorem test_table_words :
    decodeTableWord 32 0x0000D004 = some (.i2cSendb 0xD0) ∧ decodeTableWord 32 0x7 = some .i2cRack
      ∧ decodeTableWord 32 0x6 = some .flcProgw ∧ decodeTableWord 16 0x08000003 = some (.rdB 0x08000003)
      ∧ decodeTableWord 24 0x08000002 = some (.rdH 0x08000002) ∧ decodeTableWord 8 0x08000004 = some (.rdW 0x08000004) := by
  decide

/-- `withFetchWord` makes the next tick issue the word. -/
theorem test_fetch_word :
    (match step (State.reset.withFetchWord 32 0x0000A504) with
      | .next t => t.i2cm.curArg == 0xA5 && t.i2cm.busy && t.host.prog == []
      | .fault _ => false
      | .refused _ => false) = true := by decide

/-- V-A1 to V-A5. -/
theorem test_axis_value :
    axisValue 0x80 0x00 = -32768 ∧ axisValue 0x7F 0xFF = 32767 ∧ axisValue 0xFF 0xFF = -1 ∧ axisValue 0xFF 0x38 = -200 := by
  decide

/-- R191, R192: 91 and 123 quanta. -/
theorem test_sequence_lengths (c : SensorConfig) (a d : Byte) :
    totalSteps (writeRegisterCommands c a d) = 91 ∧ totalSteps (readRegisterCommands c a) = 123 := ⟨rfl, rfl⟩

/-- R315: right after reset no byte of the window has a known value. -/
theorem test_reset_array_is_free :
    State.reset.byteAt 0x08000000 = Config.flashInit 0x08000000
      ∧ State.reset.byteAt 0x0800FFFF = Config.flashInit 0x0800FFFF := by
  have h : ∀ a, inWindow exampleParams a = true → pageOf exampleParams a ∈ List.range 64 →
      State.reset.byteAt a = Config.flashInit a := by
    intro a h1 h2
    show (if _ then _ else _) = _
    rw [if_pos]
    rw [show inWindow State.reset.par a = true from h1, Bool.true_and]
    exact List.contains_iff_mem.2 h2
  exact ⟨h _ (by decide) (by decide), h _ (by decide) (by decide)⟩

/-- The memory after reset has the canonical form. -/
theorem test_reset_memory_wf : Memory.wf State.reset.unlisted State.reset.mem = true := by decide

/-! ### Witnesses: a state and operands that meet each statement's hypotheses -/

/-- Does the machine go on for `n` ticks? -/
def goesOn (n : Nat) (s : State) : Bool :=
  match Host.Core.run Sys2Proof.core n s with
  | .next _ => true
  | .fault _ => false
  | .refused _ => false

/-- The state after `n` ticks. -/
def after (n : Nat) (s : State) : State :=
  match Host.Core.run Sys2Proof.core n s with
  | .next t => t
  | .fault _ => s
  | .refused _ => s

theorem runs_after {n : Nat} {s : State} (h : goesOn n s = true) : Runs n s (after n s) := by
  unfold goesOn at h
  unfold Runs after
  split at h
  · next t e => rw [e]
  · cases h
  · cases h

/-- A machine with a settle delay of one tick, and a peer that releases both lines for 40 ticks. -/
def quick : State := { blank with i2cm := { low with delay := 1 }, env := List.replicate 40 released }

/-- `quick` after the acceptance of a command. -/
def issued (i : Instr) : State :=
  match exec i quick with
  | .next t => t
  | .fault _ => quick
  | .refused _ => quick

/-- An unlocked FLC of short durations, with its operand registers written. -/
def flashAt (a d : Word) (mem : Memory) : State :=
  { blank with
    par := { exampleParams with tErasePage := 3, tEraseAll := 4, tProgHalf := 1, tProgWord := 2 }
    flc := unlockedAt a d
    env := List.replicate 40 released
    mem := mem }

/-- A state after the acceptance of a command. -/
def accepted (i : Instr) (s : State) : State :=
  match exec i s with
  | .next t => t
  | .fault _ => s
  | .refused _ => s

/-- What `CompletesWith i n` assumes, met by an acceptance. -/
def CompletionMet (i : Instr) (n : Nat) (s₀ s₁ s t : State) : Prop :=
  s₀.i2cm.busy = false ∧ exec i s₀ = .next s₁ ∧ s.i2cm = s₁.i2cm ∧ s.noResetFor (n * max s₀.i2cm.delay.toNat 1)
    ∧ Runs (n * max s₀.i2cm.delay.toNat 1) s t

/-- The 40 scheduled ticks hold no reset. -/
theorem noReset_of_env {s : State} {n : Nat} (hn : n ≤ 40) (h : s.env = List.replicate 40 released) : s.noResetFor n := by
  intro j hj
  have hj' : j < 40 := by omega
  have : s.env[j]? = some released := by rw [h, List.getElem?_replicate, if_pos hj']
  unfold State.envAt
  rw [this]
  rfl

theorem completionMet {i : Instr} {n : Nat} (hn : n ≤ 40) (he : exec i quick = .next (issued i))
    (hv : (issued i).env = List.replicate 40 released) (hg : goesOn n (issued i) = true) :
    CompletionMet i n quick (issued i) (issued i) (after n (issued i)) :=
  ⟨rfl, he, rfl, noReset_of_env (by simpa [quick, low] using hn) hv, by
    have : n * max quick.i2cm.delay.toNat 1 = n := by simp [quick, low]
    rw [this]; exact runs_after hg⟩

theorem witness_DecodeOfEncode :
    exampleParams.ok = true ∧ Instr.inRegion exampleParams (.rdB 0x08000000) = true
      ∧ Instr.inRegion exampleParams (.rdW 0x0800FFFF) = true ∧ Instr.inRegion exampleParams (.i2cSendb 0xFF) = true := by decide

theorem witness_AcceptedWord : decodeI2cm 0x0000FF04 = .ok (.i2cSendb 0xFF) ∧ decodeFlc 0x6 = .ok .flcProgw := by decide

theorem witness_InvalidWord :
    State.reset.par.ok = true ∧ State.reset.i2cm.busy = false ∧ State.reset.flc.busy = false ∧ ¬ validI2cm 0x00000206
      ∧ ¬ validFlc 0x00000013 := by
  refine ⟨by decide, rfl, rfl, ?_, ?_⟩
  · unfold validI2cm; decide
  · unfold validFlc; decide

theorem witness_BusyUnit : (issued .i2cStart).par.ok = true ∧ (issued .i2cStart).i2cm.busy = true
    ∧ (accepted .flcErasea (flashAt 0 0 [])).par.ok = true ∧ (accepted .flcErasea (flashAt 0 0 [])).flc.busy = true := by decide

theorem witness_Acceptance : quick.i2cm.busy = false ∧ State.reset.i2cm.busy = false ∧ State.reset.i2cm.sclO = true := by decide

theorem fresh_issued : I2cm.Fresh (issued (.i2cSack true)).i2cm :=
  ⟨by decide, by decide, by decide, by decide⟩

/-- The first tick of the first micro-step and the last tick of the last. -/
theorem witness_MicroSteps :
    (I2cm.Fresh (issued (.i2cSack true)).i2cm ∧ 0 < (issued (.i2cSack true)).i2cm.steps.length
      ∧ 0 < (0 + 1) * (issued (.i2cSack true)).i2cm.dq.toNat ∧ (issued (.i2cSack true)).noResetFor 1
      ∧ Runs 1 (issued (.i2cSack true)) (after 1 (issued (.i2cSack true))))
    ∧ 2 < (issued (.i2cSack true)).i2cm.steps.length ∧ 2 * (issued (.i2cSack true)).i2cm.dq.toNat ≤ 2
      ∧ 2 < (2 + 1) * (issued (.i2cSack true)).i2cm.dq.toNat ∧ (issued (.i2cSack true)).noResetFor 3
      ∧ Runs 3 (issued (.i2cSack true)) (after 3 (issued (.i2cSack true))) :=
  ⟨⟨fresh_issued, by decide, by decide, noReset_of_env (by decide) rfl, runs_after (by decide)⟩, by decide, by decide,
    by decide, noReset_of_env (by decide) rfl, runs_after (by decide)⟩

/-- At `m = 0` and at `m = N * dq`. -/
theorem witness_BusyLasts :
    I2cm.Fresh (issued (.i2cSack true)).i2cm ∧ (issued (.i2cSack true)).noResetFor 3
      ∧ Runs 0 (issued (.i2cSack true)) (issued (.i2cSack true))
      ∧ 3 = (issued (.i2cSack true)).i2cm.steps.length * (issued (.i2cSack true)).i2cm.dq.toNat
      ∧ Runs 3 (issued (.i2cSack true)) (after 3 (issued (.i2cSack true))) :=
  ⟨fresh_issued, noReset_of_env (by decide) rfl, rfl, by decide, runs_after (by decide)⟩

/-- For InitStartStopComplete and EveryOperationButStopLeavesTheClockLow. -/
theorem witness_InitStartStop :
    (∃ s₀ s₁ s t, CompletionMet .i2cInit 2 s₀ s₁ s t) ∧ (∃ s₀ s₁ s t, CompletionMet .i2cStart 4 s₀ s₁ s t)
      ∧ ∃ s₀ s₁ s t, CompletionMet .i2cStop 3 s₀ s₁ s t :=
  ⟨⟨_, _, _, _, completionMet (by decide) rfl rfl (by decide)⟩, ⟨_, _, _, _, completionMet (by decide) rfl rfl (by decide)⟩,
    ⟨_, _, _, _, completionMet (by decide) rfl rfl (by decide)⟩⟩

/-- For SendByteAndSendAckComplete and EveryOperationButStopLeavesTheClockLow. -/
theorem witness_SendByteAndSendAck :
    (∃ s₀ s₁ s t, CompletionMet (.i2cSendb 0xA5) 24 s₀ s₁ s t) ∧ ∃ s₀ s₁ s t, CompletionMet (.i2cSack false) 3 s₀ s₁ s t :=
  ⟨⟨_, _, _, _, completionMet (by decide) rfl rfl (by decide)⟩, ⟨_, _, _, _, completionMet (by decide) rfl rfl (by decide)⟩⟩

/-- For RecvByteReturnsTheSampledByte, RecvAckRecordsTheAcknowledge and EveryOperationButStopLeavesTheClockLow. -/
theorem witness_Recv :
    (∃ s₀ s₁ s t, CompletionMet .i2cRecvb 25 s₀ s₁ s t) ∧ ∃ s₀ s₁ s t, CompletionMet .i2cRack 4 s₀ s₁ s t :=
  ⟨⟨_, _, _, _, completionMet (by decide) rfl rfl (by decide)⟩, ⟨_, _, _, _, completionMet (by decide) rfl rfl (by decide)⟩⟩

theorem witness_RawCommands :
    (∃ s₀ s₁ s t, CompletionMet (.i2cWscl true) 1 s₀ s₁ s t) ∧ (∃ s₀ s₁ s t, CompletionMet (.i2cWsda false) 1 s₀ s₁ s t)
      ∧ ∃ s₀ s₁ s t, CompletionMet .i2cRsda 1 s₀ s₁ s t :=
  ⟨⟨_, _, _, _, completionMet (by decide) rfl rfl (by decide)⟩, ⟨_, _, _, _, completionMet (by decide) rfl rfl (by decide)⟩,
    ⟨_, _, _, _, completionMet (by decide) rfl rfl (by decide)⟩⟩

/-- The first and the last clock pulse of SEND_BYTE. -/
theorem witness_SendByteHolds :
    quick.i2cm.busy = false ∧ exec (.i2cSendb 0xA5) quick = .next (issued (.i2cSendb 0xA5))
      ∧ ∀ j ∈ [0, 7], (3 * j + 1) * max quick.i2cm.delay.toNat 1 ≤ 3 * j + 1
        ∧ 3 * j + 1 < (3 * j + 2) * max quick.i2cm.delay.toNat 1 ∧ (issued (.i2cSendb 0xA5)).noResetFor (3 * j + 2)
        ∧ Runs (3 * j + 2) (issued (.i2cSendb 0xA5)) (after (3 * j + 2) (issued (.i2cSendb 0xA5))) := by
  refine ⟨rfl, rfl, ?_⟩
  intro j hj
  have h : j = 0 ∨ j = 7 := by simpa using hj
  rcases h with rfl | rfl <;>
    exact ⟨by decide, by decide, noReset_of_env (by decide) rfl, runs_after (by decide)⟩

/-- The byte 0xFF: the sender releases SDA at each pulse, and so does the receiver's peer at each sample. -/
theorem witness_ReceivedByte :
    (quick.i2cm.busy = false ∧ exec (.i2cSendb 0xFF) quick = .next (issued (.i2cSendb 0xFF)))
      ∧ (∀ j, j < 8 → (issued (.i2cSendb 0xFF)).noResetFor (3 * j + 2)
        ∧ Runs (3 * j + 2) (issued (.i2cSendb 0xFF)) (after (3 * j + 2) (issued (.i2cSendb 0xFF))))
      ∧ CompletionMet .i2cRecvb 25 quick (issued .i2cRecvb) (issued .i2cRecvb) (after 25 (issued .i2cRecvb))
      ∧ ∀ j, j < 8 → ((issued .i2cRecvb).envAt ((3 * j + 2) * 1)).sdaP
        = (after (3 * j + 2) (issued (.i2cSendb 0xFF))).i2cm.sdaO := by
  refine ⟨⟨rfl, rfl⟩, fun j hj => ⟨noReset_of_env (by omega) rfl, ?_⟩, completionMet (by decide) rfl rfl (by decide), ?_⟩
  · have h : ∀ j, j < 8 → goesOn (3 * j + 2) (issued (.i2cSendb 0xFF)) = true := by decide
    exact runs_after (h j hj)
  · intro j hj
    have h : j = 0 ∨ j = 1 ∨ j = 2 ∨ j = 3 ∨ j = 4 ∨ j = 5 ∨ j = 6 ∨ j = 7 := by omega
    rcases h with rfl | rfl | rfl | rfl | rfl | rfl | rfl | rfl <;> rfl

/-- At the acceptance and at the completion tick. -/
theorem witness_ClockLow :
    quick.i2cm.busy = false ∧ quick.i2cm.sclO = false
      ∧ exec (.i2cSack false) quick = .next (issued (.i2cSack false))
      ∧ (issued (.i2cSack false)).noResetFor 4 ∧ (∀ j, j < 4 → ((issued (.i2cSack false)).envAt j).sdaP = true)
      ∧ 3 ≤ (issued (.i2cSack false)).i2cm.steps.length * (issued (.i2cSack false)).i2cm.dq.toNat
      ∧ Runs 0 (issued (.i2cSack false)) (after 0 (issued (.i2cSack false)))
      ∧ (∃ u, step (after 0 (issued (.i2cSack false))) = .next u)
      ∧ Runs 3 (issued (.i2cSack false)) (after 3 (issued (.i2cSack false)))
      ∧ ∃ u, step (after 3 (issued (.i2cSack false))) = .next u :=
  ⟨rfl, rfl, rfl, noReset_of_env (by decide) rfl, by decide, by decide, rfl,
    ⟨_, (step_of_idle_host _ (by decide) (by decide) (by decide)).choose_spec.1⟩, runs_after (by decide),
    ⟨_, (step_of_idle_host _ (by decide) (by decide) (by decide)).choose_spec.1⟩⟩

/-- A peer that stretches the clock in every tick. -/
def stretched : State :=
  { issued .i2cStart with sclP := false, env := List.replicate 40 { reset := false, sclP := false, sdaP := true } }

theorem witness_PeerClockStretching :
    SameButScl (issued .i2cStart) stretched ∧ Runs 5 (issued .i2cStart) (after 5 (issued .i2cStart)) :=
  ⟨⟨rfl, rfl, by decide, rfl, rfl, rfl, rfl, rfl, rfl, rfl⟩, runs_after (by decide)⟩

/-- Machines that share one unit and differ in the other, and an instruction of each. -/
theorem witness_UnitsShareNoState :
    ({ quick with flc := unlockedAt 1 2 } : State).i2cm = quick.i2cm
      ∧ (({ quick with flc := unlockedAt 1 2 } : State).envAt 0).sdaP = (quick.envAt 0).sdaP
      ∧ ({ quick with i2cm := I2cm.reset } : State).flc = quick.flc
      ∧ ({ quick with i2cm := I2cm.reset } : State).par = quick.par ∧ ({ quick with i2cm := I2cm.reset } : State).mem = quick.mem
      ∧ ({ quick with i2cm := I2cm.reset } : State).draws = quick.draws
      ∧ exec .i2cStart quick = .next (issued .i2cStart) ∧ exec .flcUnlock quick = .next (issued .flcUnlock) :=
  ⟨rfl, rfl, rfl, rfl, rfl, rfl, rfl, rfl⟩

/-- For UnlockAndLockActAtOnce, ErasesAreAccepted and ProgramsAreAccepted: the first and the last page, halfword and word. -/
theorem witness_FlcAcceptance :
    ∀ a ∈ [0x08000000#32, 0x0800FC00#32], (flashAt a 0 []).flc.busy = false ∧ (flashAt a 0 []).flc.locked = false
      ∧ (flashAt a 0 []).par.flashBase ≤ (flashAt a 0 []).flc.addr.toNat
      ∧ ((flashAt a 0 []).flc.addr.toNat - (flashAt a 0 []).par.flashBase) % (flashAt a 0 []).par.pageSize = 0
      ∧ (flashAt a 0 []).flc.addr.toNat % 4 = 0
      ∧ (flashAt a 0 []).flc.addr.toNat + 4 ≤ (flashAt a 0 []).par.flashBase + (flashAt a 0 []).par.flashSize := by
  intro a h
  have h : a = 0x08000000#32 ∨ a = 0x0800FC00#32 := by simpa using h
  rcases h with rfl | rfl <;> exact ⟨rfl, rfl, by decide, by decide, by decide, by decide⟩

theorem witness_ProgramsAtTheLastAddress :
    (0x0800FFFE#32).toNat % 2 = 0 ∧ (0x0800FFFE#32).toNat + 2 ≤ exampleParams.flashBase + exampleParams.flashSize
      ∧ (0x0800FFFC#32).toNat % 4 = 0 ∧ (0x0800FFFC#32).toNat + 4 ≤ exampleParams.flashBase + exampleParams.flashSize := by decide

/-- Locked; and unlocked with an address just past the window, or misaligned by one. -/
theorem witness_MutatingCommandsAreRefused :
    State.reset.flc.busy = false ∧ State.reset.flc.locked = true
      ∧ (flashAt 0x08010000 0 []).flc.locked = false
      ∧ ¬ ((flashAt 0x08010000 0 []).flc.addr.toNat
        < (flashAt 0x08010000 0 []).par.flashBase + (flashAt 0x08010000 0 []).par.flashSize)
      ∧ ((flashAt 0x08000001 0 []).flc.addr.toNat - (flashAt 0x08000001 0 []).par.flashBase)
        % (flashAt 0x08000001 0 []).par.pageSize ≠ 0
      ∧ (flashAt 0x08000001 0 []).flc.addr.toNat % 2 ≠ 0 ∧ (flashAt 0x08000002 0 []).flc.addr.toNat % 4 ≠ 0 := by decide

/-- What `FlcCompletesWith i ok dur` assumes, met by an acceptance. -/
def FlcCompletionMet (i : Instr) (ok : State → Prop) (dur : Params → Nat) (s₀ s₁ s t : State) : Prop :=
  s₀.par.ok = true ∧ s₀.flc.busy = false ∧ s₀.flc.locked = false ∧ ok s₀ ∧ exec i s₀ = .next s₁ ∧ s.par = s₁.par
    ∧ s.flc = s₁.flc ∧ s.mem = s₁.mem ∧ s.unerased = s₁.unerased ∧ Memory.wf s.unlisted s.mem = true ∧ s.noResetFor (dur s.par - 1)
    ∧ Runs (dur s.par - 1) s t

theorem witness_Erases :
    (∃ s₀ s₁ s t, FlcCompletionMet .flcErasep (fun s => erasePageAddrOk s.par s.flc.addr.toNat = true) Params.tErasePage
      s₀ s₁ s t)
    ∧ ∃ s₀ s₁ s t, FlcCompletionMet .flcErasea (fun _ => True) Params.tEraseAll s₀ s₁ s t :=
  ⟨⟨flashAt 0x0800FC00 0 [(0x0800FBFF, 1), (0x0800FC00, 2)], accepted .flcErasep (flashAt 0x0800FC00 0 _), _, _, by decide, rfl,
      rfl, by decide, rfl, rfl, rfl, rfl, rfl, by decide, noReset_of_env (by decide) rfl, runs_after (by decide)⟩,
    ⟨flashAt 0 0 [(0x0800FFFF, 1)], accepted .flcErasea (flashAt 0 0 _), _, _, by decide, rfl, rfl, trivial, rfl, rfl, rfl, rfl, rfl,
      by decide, noReset_of_env (by decide) rfl, runs_after (by decide)⟩⟩

theorem witness_Programs :
    (∃ s₀ s₁ s t, FlcCompletionMet .flcProgh (fun s => progHalfAddrOk s.par s.flc.addr.toNat = true
      ∧ s.erasedAt 2 s.flc.addr.toNat = true) Params.tProgHalf s₀ s₁ s t)
    ∧ ∃ s₀ s₁ s t, FlcCompletionMet .flcProgw (fun s => progWordAddrOk s.par s.flc.addr.toNat = true
      ∧ s.erasedAt 4 s.flc.addr.toNat = true) Params.tProgWord s₀ s₁ s t :=
  ⟨⟨flashAt 0x0800FFFE 0xA5C3 [(0x0800FFFD, 1)], accepted .flcProgh (flashAt 0x0800FFFE 0xA5C3 _), _, _, by decide, rfl, rfl,
      by decide, rfl, rfl, rfl, rfl, rfl, by decide, noReset_of_env (by decide) rfl, runs_after (by decide)⟩,
    ⟨flashAt 0x08000000 0x11223344 [(0x08000004, 1)], accepted .flcProgw (flashAt 0x08000000 0x11223344 _), _, _, by decide,
      rfl, rfl, by decide, rfl, rfl, rfl, rfl, rfl, by decide, noReset_of_env (by decide) rfl, runs_after (by decide)⟩⟩

/-- One byte of the target programmed: the last of the two, the last of the four. -/
theorem witness_ProgramOfAnUnerasedTarget :
    (∃ s₀ s₁ s t, FlcCompletionMet .flcProgh (fun s => progHalfAddrOk s.par s.flc.addr.toNat = true
      ∧ s.erasedAt 2 s.flc.addr.toNat = false) Params.tProgHalf s₀ s₁ s t)
    ∧ ∃ s₀ s₁ s t, FlcCompletionMet .flcProgw (fun s => progWordAddrOk s.par s.flc.addr.toNat = true
      ∧ s.erasedAt 4 s.flc.addr.toNat = false) Params.tProgWord s₀ s₁ s t :=
  ⟨⟨flashAt 0x0800FFFE 0 [(0x0800FFFF, 1)], accepted .flcProgh (flashAt 0x0800FFFE 0 _), _, _, by decide, rfl, rfl,
      by decide, rfl, rfl, rfl, rfl, rfl, by decide, noReset_of_env (by decide) rfl, runs_after (by decide)⟩,
    ⟨flashAt 0x08000000 0 [(0x08000003, 1)], accepted .flcProgw (flashAt 0x08000000 0 _), _, _, by decide,
      rfl, rfl, by decide, rfl, rfl, rfl, rfl, rfl, by decide, noReset_of_env (by decide) rfl, runs_after (by decide)⟩⟩

/-- An ERASE_ALL of four ticks, right after its acceptance. -/
def erasing : State := accepted .flcErasea (flashAt 0 0 [(0x0800FFFF, 1)])

/-- At `m = 0` and in the last tick before the completion. -/
theorem witness_FlcBusyLasts :
    erasing.flc.busy = true ∧ 0 < erasing.flc.remaining ∧ 3 < erasing.flc.remaining ∧ erasing.noResetFor 3
      ∧ Runs 0 erasing erasing ∧ Runs 3 erasing (after 3 erasing) :=
  ⟨by decide, by decide, by decide, noReset_of_env (by decide) rfl, rfl, runs_after (by decide)⟩

/-- For FlashChangesOnlyAtACompletion (idle; busy with two ticks left) and LockedIdleUnitKeepsTheArray. -/
theorem witness_FlashKeeps :
    (∃ t, step State.reset = .next t) ∧ State.reset.flc.busy = false ∧ State.reset.flc.locked = true
      ∧ (∃ t, step (after 2 erasing) = .next t) ∧ (after 2 erasing).flc.remaining = 2
      ∧ ((after 2 erasing).envAt 0).reset = false :=
  ⟨⟨_, (step_of_idle_host _ (by decide) rfl rfl).choose_spec.1⟩, rfl, rfl,
    ⟨_, (step_of_idle_host _ (by decide) (by decide) (by decide)).choose_spec.1⟩, by decide, by decide⟩

/-- A machine whose host issues UNLOCK, one whose host issues LOCK, and one that is reset while unlocked. -/
theorem witness_LockChanges :
    ((one State.reset released [command exampleParams .flcUnlock]).map fun t => t.flc.locked) = some false
      ∧ ((one { blank with flc := unlockedAt 0 0 } released [command exampleParams .flcLock]).map fun t => t.flc.locked)
        = some true
      ∧ ((one { blank with flc := unlockedAt 0 0 } { released with reset := true } []).map fun t => t.flc.locked)
        = some true := by decide

/-- For FlashReadsReturnLittleEndianBytes and FlashReadsFaultStallOrAreRefused: the window's first and last addresses, a
misaligned one, one outside, and a busy unit. -/
theorem witness_FlashReads :
    readMem.flc.busy = false ∧ erasing.flc.busy = true ∧ inWindow readMem.par (0x08000000#32).toNat = true
      ∧ inWindow readMem.par (0x0800FFFF#32).toNat = true ∧ inWindow readMem.par (0x08010000#32).toNat = false
      ∧ (0x0800FFFF#32).toNat % 2 ≠ 0 ∧ (0x0800FFFE#32).toNat % 2 = 0 ∧ (0x0800FFFE#32).toNat % 4 ≠ 0
      ∧ (0x0800FFFC#32).toNat % 4 = 0 := by decide

/-- `erasing`, whose host reads the last word: at the first stalled tick, at the last one, and at the completion tick. -/
def readWhileErasing : State :=
  { erasing with host := { erasing.host with prog := [.access (.read .w32 0x0800FFFC)] } }

theorem witness_BusyFlashReads :
    readWhileErasing.flc.busy = true ∧ readWhileErasing.flc.remaining = 4
      ∧ inWindow readWhileErasing.par (0x0800FFFC#32).toNat = true ∧ (0x0800FFFC#32).toNat % widthBytes .w32 = 0
      ∧ readWhileErasing.host.prog = .access (.read .w32 0x0800FFFC) :: [] ∧ readWhileErasing.noResetFor 4
      ∧ Runs 1 readWhileErasing (after 1 readWhileErasing) ∧ Runs 3 readWhileErasing (after 3 readWhileErasing)
      ∧ Runs 4 readWhileErasing (after 4 readWhileErasing) ∧ State.reset.par.ok = true :=
  ⟨by decide, by decide, by decide, by decide, rfl, noReset_of_env (by decide) rfl, runs_after (by decide),
    runs_after (by decide), runs_after (by decide), by decide⟩

/-- For the register statements and WritesToTheFlashWindowAreReadOnlyFaults: an address of each region, one misaligned. -/
theorem witness_HostAccess :
    State.reset.par.ok = true ∧ inWindow State.reset.par (0x0800FFFF#32).toNat = true
      ∧ State.reset.par.i2cmBase ≤ (0x4000000F#32).toNat ∧ (0x4000000F#32).toNat < State.reset.par.i2cmBase + 16
      ∧ State.reset.par.flcBase ≤ (0x40000010#32).toNat ∧ (0x40000010#32).toNat < State.reset.par.flcBase + 16
      ∧ (0x4000000F#32).toNat % 4 ≠ 0 := by decide

/-- For FlagsAreClearedOnlyByWritingOneOrReset: a step that clears NACKF, and one that clears EOP. -/
theorem witness_FlagsAreCleared :
    (i2cmStat { I2cm.reset with nackf := true }).getLsbD 8 = true
      ∧ ((one { blank with i2cm := { I2cm.reset with nackf := true } } released
        [wrReg exampleParams .i2cmStat 0x100]).map fun t => (i2cmStat t.i2cm).getLsbD 8) = some false
      ∧ (flcStat { Flc.reset with eop := true }).getLsbD 2 = true
      ∧ ((one { blank with flc := { Flc.reset with eop := true } } released
        [wrReg exampleParams .flcStat 0x4]).map fun t => (flcStat t.flc).getLsbD 2) = some false := by decide

/-- For ResultsChangeOnlyAtTheirEvents: a step that changes each of RXDATA, ACK, OWNED (three ways), both drives, SDA_IN. -/
theorem witness_ResultsChange :
    ((one { blank with i2cm := { due low opRecvByte 0 25 with acc := 1 } } released []).map fun t => t.i2cm.rxdata) = some 1
      ∧ ((one { blank with i2cm := { due low opRecvAck 0 4 with acc := 1 } } released []).map fun t => t.i2cm.ack) = some true
      ∧ ((one { blank with i2cm := due low opStart 0 4 } released []).map fun t => t.i2cm.owned) = some true
      ∧ ((one { blank with i2cm := { due low opStop 0 3 with owned := true } } released []).map fun t => t.i2cm.owned)
        = some false
      ∧ ((one { blank with i2cm := { due low opInit 0 2 with owned := true } } released []).map fun t => t.i2cm.owned)
        = some false
      ∧ ((one { blank with i2cm := due low opWriteScl 1 0 } released []).map fun t => t.i2cm.sclO) = some true
      ∧ ((one { blank with i2cm := due low opWriteSda 0 0 } released []).map fun t => t.i2cm.sdaO) = some false
      ∧ ((one { blank with i2cm := due low opReadSda 0 0 } released []).map fun t => t.i2cm.sdaIn) = some true := by decide

/-- A machine that is reset in its next tick. -/
def resetNext (s : State) : State := { s with env := [{ released with reset := true }] }

theorem witness_ResetTick :
    (resetNext quick).par.ok = true ∧ ((resetNext quick).envAt 0).reset = true ∧ (resetNext quick).flc.busy = false := by decide

/-- A good machine in the middle of each FLC command, by its opcode. -/
def goodBusy (op : BitVec 4) : State :=
  { blank with
    flc := { unlockedAt 0 0 with busy := true, curOp := op, curAddr := 0x0800FC00, remaining := 1 }
    env := [{ released with reset := true }] }

theorem goodBusy_good (op : BitVec 4) (h : op = opErasePage ∨ op = opEraseAll ∨ op = opProgHalf ∨ op = opProgWord) :
    State.Good (goodBusy op) := by
  refine ⟨show exampleParams.ok = true by decide, ?_, ?_, rfl, fun c hc => (by cases hc), .nil,
    fun i hi => by cases hi⟩
  · constructor <;> simp [goodBusy, blank, State.reset, I2cm.reset]
  · rcases h with rfl | rfl | rfl | rfl
    · exact ⟨fun _ => rfl, fun _ => .inl ⟨rfl, by decide⟩, fun _ => by decide, nofun, nofun⟩
    · exact ⟨fun _ => rfl, fun _ => .inr (.inl rfl), fun _ => by decide, nofun, nofun⟩
    · exact ⟨fun _ => rfl, fun _ => .inr (.inr (.inl ⟨rfl, by decide⟩)), fun _ => by decide, nofun, nofun⟩
    · exact ⟨fun _ => rfl, fun _ => .inr (.inr (.inr ⟨rfl, by decide⟩)), fun _ => by decide, nofun, nofun⟩

/-- For ResetKeepsEveryByteOutsideTheTarget: each command, with a byte just before and just past its target. -/
theorem witness_ResetKeeps :
    (∀ op ∈ [opErasePage, opEraseAll, opProgHalf, opProgWord], State.Good (goodBusy op) ∧ ((goodBusy op).envAt 0).reset = true
      ∧ (goodBusy op).flc.busy = true ∧ ∃ t, step (goodBusy op) = .next t)
    ∧ 0x0800FBFF < (goodBusy opErasePage).flc.curAddr.toNat
    ∧ (goodBusy opErasePage).flc.curAddr.toNat + (goodBusy opErasePage).par.pageSize ≤ 0x08010000
    ∧ inWindow (goodBusy opEraseAll).par 0x08010000 = false := by
  refine ⟨fun op h => ⟨goodBusy_good op (by simpa using h), rfl, rfl, ⟨_, (step_of_idle_host _ (show exampleParams.ok = true by decide) rfl rfl).choose_spec.1⟩⟩,
    by decide, by decide, by decide⟩

/-- A machine whose host issues SEND_BYTE. -/
def issuing (a : Access) : State := { quick with host := { prog := [.access a], resp := .none, boot := [] } }

theorem witness_StepRuns :
    (issuing (writeOf exampleParams .i2cmCmd 0x0000A504)).par.ok = true
      ∧ ((issuing (writeOf exampleParams .i2cmCmd 0x0000A504)).envAt 0).reset = false
      ∧ decodeAccess exampleParams (writeOf exampleParams .i2cmCmd 0x0000A504) = .instr (.i2cSendb 0xA5) := by decide

/-- A good machine that steps, busy with a command of each unit. -/
theorem witness_GoodStates :
    State.Good (goodBusy opErasePage) ∧ ∃ t, step (goodBusy opErasePage) = .next t :=
  ⟨goodBusy_good _ (.inl rfl), _, (step_of_idle_host _ (by decide) rfl rfl).choose_spec.1⟩

/-- For EveryStepGoesOnUnlessTheAccessIsOutside: a write and a poll past the window, in a tick without reset. -/
theorem witness_EveryStep :
    (issuing (.write .w8 0x08010000 0)).par.ok = true ∧ (issuing (.write .w8 0x08010000 0)).nextAccess = some .outside
      ∧ ((issuing (.write .w8 0x08010000 0)).envAt 0).reset = false
      ∧ ({ quick with host := { prog := [.poll 0x08010000 1 0], resp := .none, boot := [] } } : State).nextAccess
        = some .outside := by decide

/-- For I2cmFlagsAreSetOnlyByTheirEvents and FlcFlagsAreSetOnlyByTheirEvents: a step that sets each flag. -/
theorem witness_FlagsAreSet :
    ((one { blank with i2cm := { due low opRecvAck 0 4 with acc := 1 } } released []).map fun t => t.i2cm.nackf) = some true
      ∧ ((one blank released [wrReg exampleParams .i2cmCmd 0xB]).map fun t => t.i2cm.cmderr) = some true
      ∧ ((one { blank with i2cm := { due low opStart 0 1 with waitCnt := 5 } } released [command exampleParams .i2cStop]).map
        fun t => t.i2cm.busyerr) = some true
      ∧ ((one blank released [command exampleParams .i2cRack]).map fun t => t.i2cm.seqerr) = some true
      ∧ ((one (goodBusy opErasePage) released []).map fun t => t.flc.eop) = some true
      ∧ ((one { goodBusy opErasePage with flc := { (goodBusy opProgHalf).flc with pgFail := true } } released []).map
        fun t => t.flc.pgerr) = some true
      ∧ ((one blank released [command exampleParams .flcErasea]).map fun t => t.flc.lockerr) = some true
      ∧ ((one { blank with flc := unlockedAt 1 0 } released [command exampleParams .flcProgh]).map fun t => t.flc.addrerr)
        = some true
      ∧ ((one blank released [wrReg exampleParams .flcCmd 0x13]).map fun t => t.flc.cmderr) = some true
      ∧ ((one { blank with flc := { (goodBusy opEraseAll).flc with remaining := 5 } } released
        [command exampleParams .flcLock]).map fun t => t.flc.busyerr) = some true := by decide

/-- For ResultsChangeOnlyAtTheirEvents: a step that changes each of I2CM_DELAY, FLC_ADDR and FLC_DATA. -/
theorem witness_RegistersChange :
    ((one blank released [wrReg exampleParams .i2cmDelay 0x12345]).map fun t => t.i2cm.delay) = some 0x2345
      ∧ ((one blank released [wrReg exampleParams .flcAddr 7]).map fun t => t.flc.addr) = some 7
      ∧ ((one blank released [wrReg exampleParams .flcData 9]).map fun t => t.flc.data) = some 9 := by decide

/-- For BusFaultsCarryTheirCodes, from the table of R274: each code, in each region, and an access without one. -/
theorem witness_BusFaultCodes :
    ((answerTo (.read .w8 0x40000004)).map faultCodeOf) = some (some 1)
      ∧ ((answerTo (.write .w32 0x40000012 0)).map faultCodeOf) = some (some 2)
      ∧ ((answerTo (.read .w16 0x08000011)).map faultCodeOf) = some (some 2)
      ∧ ((answerTo (.write .w16 0x08000011 0)).map faultCodeOf) = some (some 3)
      ∧ ((answerTo (.read .w8 0x08000011)).map faultCodeOf) = some none
      ∧ ((answerTo (.write .w32 0x40000014 0)).map faultCodeOf) = some none := by decide

/-! ### Host routines -/

/-- Where a routine's run ends: what it returned, and BUSY, LOCKED and how many ticks passed. -/
def returns {α : Type} (e : RoutineEnd α) : Option (α × Bool × Bool × Nat) :=
  match e with
  | .returned a s => some (a, s.flc.busy, s.flc.locked, s.now)
  | .running _ => none
  | .cut _ => none
  | .busFault _ _ => none
  | .stopped => none

/-- P5, the host's timing: a guarded PROG_HALF with T_PROG_HALF = 5 takes 10 ticks and leaves the unit locked. -/
theorem test_guarded_program :
    returns (runRoutine 10 ((Routine.done ()).after (programHalfWord exampleParams 0x0800FC00 0xA5A5)) blank)
      = some ((), false, true, 10) := by decide

/-- Two slots of the load: the mirror takes what the reads answer (R253, R259). -/
theorem test_load_fills_the_mirror (m : Mirror) :
    ∃ t, runRoutine 2 (storeLoad exampleParams 0x08000010 0 2 m) readMem
      = .returned ((m.setIfInBounds 0 0x1234).setIfInBounds 1 0x5678) t := ⟨_, rfl⟩

/-- R258: a reset ends a routine, and the host starts on its boot program. -/
theorem test_reset_cuts_a_routine :
    (match runRoutine 5 (storeSave exampleParams 0x0800FC00 (Vector.replicate 512 0))
        { blank with
          env := [released, { released with reset := true }]
          host := { prog := [], resp := .none, boot := [command exampleParams .flcLock] } } with
      | .cut t => t.host.prog == [command exampleParams .flcLock] && t.now == 2
      | .returned _ _ => false
      | .running _ => false
      | .busFault _ _ => false
      | .stopped => false) = true := by decide

/-- P5's count: 1 + 204 + 512 * 10 + 512 ticks for an Initialize that formats the page. -/
theorem test_initialize_ticks : 1 + saveTicks exampleParams + 512 = 5837 := by decide

/-- A machine whose store page begins with the sentinel. -/
def withSentinel : State := { blank with mem := [(0x0800FC00, 0xA5), (0x0800FC01, 0xA5)] }

/-- No reset comes when none is scheduled. -/
theorem noReset_of_nil {s : State} (n : Nat) (h : s.env = []) : s.noResetFor n := by
  intro j _
  unfold State.envAt
  rw [h]
  rfl

/-- For SaveAndClearLeaveTheMirrorInFlash and InitializeLoadsTheMirrorFromFlash, on either kind of page. -/
theorem witness_Store :
    (∀ s ∈ [blank, withSentinel], s.par.ok = true ∧ storeBaseOk s.par 0x0800FC00 = true ∧ s.flc.busy = false
      ∧ Memory.wf s.unlisted s.mem = true ∧ s.noResetFor 513 ∧ s.noResetFor (1 + saveTicks s.par + 512))
    ∧ blank.halfAt 0x0800FC00 ≠ 0xA5A5 ∧ withSentinel.halfAt 0x0800FC00 = 0xA5A5 := by
  refine ⟨fun s h => ?_, by decide, by decide⟩
  have h : s = blank ∨ s = withSentinel := by simpa using h
  rcases h with rfl | rfl <;> exact ⟨by decide, by decide, rfl, by decide, noReset_of_nil _ rfl, noReset_of_nil _ rfl⟩

/-- A machine with an erase of one tick and a program of one, reset in tick `r`. -/
def resetIn (r : Nat) : State :=
  { blank with
    par := { exampleParams with tErasePage := 1, tProgHalf := 1 }
    env := List.replicate r released ++ [{ released with reset := true }] }

/-- For ResetDuringSaveTearsThePage: during the erase, and at the first and the last tick of the second slot's program. -/
theorem witness_ResetDuringSave :
    ∀ r ∈ [2, 11, 16], (resetIn r).par.ok = true ∧ storeBaseOk (resetIn r).par 0x0800FC00 = true
      ∧ (resetIn r).flc.busy = false ∧ Memory.wf (resetIn r).unlisted (resetIn r).mem = true
      ∧ ((resetIn r).envAt r).reset = true ∧ r < saveTicks (resetIn r).par
      ∧ (∀ j, j < r → ((resetIn r).envAt j).reset = false)
      ∧ guardedTicks 3 (resetIn r).par.tErasePage + 1 * guardedTicks 4 (resetIn r).par.tProgHalf = 11 := by decide

end Sys2Proof.Tests
end

namespace Sys2Proof.Machine

/-! SUPPORT. What a host access does to each unit, with the access that does it (60_exceptions.md R280, R281): the layer
that the statements about flags, results, the lock and the acceptance of commands are assembled from. -/

/-! ### The words that the decoders accept -/

/-- The commands that are written to FLC_CMD (30_encoding.md R116). -/
def flcCommands : List Instr := [.flcUnlock, .flcLock, .flcErasep, .flcErasea, .flcProgh, .flcProgw]

/-- The FLC's mutating commands (10_state.md R67). -/
def mutatingCommands : List Instr := [.flcErasep, .flcErasea, .flcProgh, .flcProgw]

/-- The commands that are written to I2CM_CMD (30_encoding.md R115): neither a flash read nor one of the FLC. -/
def IsI2cmCommand (i : Instr) : Prop := i.readAddr? = none ∧ i ∉ flcCommands

/-- The five commands whose precondition is a low clock (10_state.md R50). -/
def IsClockLowCommand (i : Instr) : Prop :=
  i = .i2cStop ∨ (∃ b, i = .i2cSendb b) ∨ i = .i2cRecvb ∨ (∃ a, i = .i2cSack a) ∨ i = .i2cRack

theorem bits_eq_extractLsb' (w : Word) (hi lo n : Nat) (h : hi + 1 - lo = n) :
    bits w hi lo = (w.extractLsb' lo n).toNat := by
  subst h
  simp [bits, Nat.shiftRight_eq_div_pow]

theorem extractLsb'_eq_iff (w : Word) (hi lo n : Nat) (x : BitVec n) (h : hi + 1 - lo = n) :
    w.extractLsb' lo n = x ↔ bits w hi lo = x.toNat := by
  rw [bits_eq_extractLsb' w hi lo n h, BitVec.toNat_inj]

/-- R118's predicate on the fields that the decoder reads. -/
theorem validI2cm_iff (w : Word) : validI2cm w ↔
    bits w 31 16 = 0 ∧ bits w 7 4 = 0 ∧
      ((bits w 3 0 ∈ [1, 2, 3, 5, 7, 10] ∧ bits w 15 8 = 0) ∨ bits w 3 0 = 4
        ∨ (bits w 3 0 ∈ [6, 8, 9] ∧ bits w 15 8 / 2 = 0)) := by
  have harg : bits w 15 9 = bits w 15 8 / 2 := by simp only [bits]; omega
  simp only [validI2cm, List.mem_cons, List.not_mem_nil, or_false, extractLsb'_eq_iff w 31 16 16 _ rfl,
    extractLsb'_eq_iff w 7 4 4 _ rfl, extractLsb'_eq_iff w 3 0 4 _ rfl, extractLsb'_eq_iff w 15 8 8 _ rfl,
    extractLsb'_eq_iff w 15 9 7 _ rfl, harg]
  rfl

theorem validFlc_iff (w : Word) : validFlc w ↔ bits w 31 4 = 0 ∧ bits w 3 0 ∈ [1, 2, 3, 4, 5, 6] := by
  simp only [validFlc, List.mem_cons, List.not_mem_nil, or_false, extractLsb'_eq_iff w 31 4 28 _ rfl,
    extractLsb'_eq_iff w 3 0 4 _ rfl]
  rfl

theorem withoutArg_ok {arg : Nat} {i j : Instr} (h : withoutArg arg i = .ok j) : arg = 0 ∧ j = i := by
  unfold withoutArg at h
  split at h
  · next ha => exact ⟨ha, by injection h with h; exact h.symm⟩
  · cases h

theorem withBitArg_ok {arg : Nat} {f : Bool → Instr} {j : Instr} (h : withBitArg arg f = .ok j) :
    arg / 2 = 0 ∧ ∃ b, j = f b := by
  unfold withBitArg at h
  split at h
  · next ha => exact ⟨ha, _, by injection h with h; exact h.symm⟩
  · cases h

/-- What the I2CM decoder accepts: opcode, argument and command belong together (30_encoding.md R115, R118). -/
theorem decodeI2cm_ok_cases {w : Word} {i : Instr} (h : decodeI2cm w = .ok i) :
    (bits w 31 16 = 0 ∧ bits w 7 4 = 0) ∧
      ((bits w 3 0 ∈ [1, 2, 3, 5, 7, 10] ∧ bits w 15 8 = 0
          ∧ i ∈ [.i2cInit, .i2cStart, .i2cStop, .i2cRecvb, .i2cRack, .i2cRsda])
        ∨ (bits w 3 0 = 4 ∧ ∃ b, i = .i2cSendb b)
        ∨ (bits w 3 0 ∈ [6, 8, 9] ∧ bits w 15 8 / 2 = 0 ∧ ∃ b, i ∈ [.i2cSack b, .i2cWscl b, .i2cWsda b])) := by
  unfold decodeI2cm at h
  split at h
  · cases h
  · next hrsv =>
    refine ⟨by omega, ?_⟩
    split at h
    case h_1 ho | h_2 ho | h_3 ho | h_5 ho | h_7 ho | h_10 ho =>
      obtain ⟨ha, rfl⟩ := withoutArg_ok h
      exact .inl ⟨by simp [ho], ha, by simp⟩
    case h_4 ho =>
      injection h with h
      exact .inr (.inl ⟨ho, _, h.symm⟩)
    case h_6 ho | h_8 ho | h_9 ho =>
      obtain ⟨ha, b, rfl⟩ := withBitArg_ok h
      exact .inr (.inr ⟨by simp [ho], ha, b, by simp⟩)
    case h_11 => cases h

/-- What the FLC decoder accepts (30_encoding.md R116, R118). -/
theorem decodeFlc_ok_cases {w : Word} {i : Instr} (h : decodeFlc w = .ok i) :
    bits w 31 4 = 0 ∧ bits w 3 0 ∈ [1, 2, 3, 4, 5, 6] ∧ i ∈ flcCommands := by
  unfold decodeFlc at h
  split at h
  · cases h
  · next hrsv =>
    refine ⟨by omega, ?_⟩
    split at h
    case h_1 ho | h_2 ho | h_3 ho | h_4 ho | h_5 ho | h_6 ho =>
      injection h with h
      subst h
      exact ⟨by simp [ho], by simp [flcCommands]⟩
    case h_7 => cases h

theorem validI2cm_of_decodeI2cm {w : Word} {i : Instr} (h : decodeI2cm w = .ok i) : validI2cm w := by
  obtain ⟨⟨h1, h2⟩, ⟨ho, ha, -⟩ | ⟨ho, -⟩ | ⟨ho, ha, -⟩⟩ := decodeI2cm_ok_cases h
  · exact (validI2cm_iff w).2 ⟨h1, h2, .inl ⟨ho, ha⟩⟩
  · exact (validI2cm_iff w).2 ⟨h1, h2, .inr (.inl ho)⟩
  · exact (validI2cm_iff w).2 ⟨h1, h2, .inr (.inr ⟨ho, ha⟩)⟩

theorem validFlc_of_decodeFlc {w : Word} {i : Instr} (h : decodeFlc w = .ok i) : validFlc w := by
  obtain ⟨hr, ho, -⟩ := decodeFlc_ok_cases h
  exact (validFlc_iff w).2 ⟨hr, ho⟩

theorem isI2cmCommand_of_decodeI2cm {w : Word} {i : Instr} (h : decodeI2cm w = .ok i) : IsI2cmCommand i := by
  obtain ⟨-, ⟨-, -, hi⟩ | ⟨-, b, rfl⟩ | ⟨-, -, b, hi⟩⟩ := decodeI2cm_ok_cases h
  · simp only [List.mem_cons, List.not_mem_nil, or_false] at hi
    rcases hi with rfl | rfl | rfl | rfl | rfl | rfl <;> exact ⟨rfl, by decide⟩
  · exact ⟨rfl, by simp [flcCommands]⟩
  · simp only [List.mem_cons, List.not_mem_nil, or_false] at hi
    rcases hi with rfl | rfl | rfl <;> exact ⟨rfl, by simp [flcCommands]⟩

/-- An instruction is a command of the I2CM, a command of the FLC, or a flash read. -/
theorem instr_cases_unit (i : Instr) : IsI2cmCommand i ∨ i ∈ flcCommands ∨ ∃ a, i.readAddr? = some a := by
  cases h : i.readAddr? with
  | some a => exact .inr (.inr ⟨a, rfl⟩)
  | none => exact (em (i ∈ flcCommands)).elim (fun hi => .inr (.inl hi)) fun hi => .inl ⟨h, hi⟩

/-! ### What an instruction is, by unit -/

/-- A command of the I2CM is issued to it, with a low-clock precondition only if it is one of the five (10_state.md
R50). -/
theorem exec_i2cmCommand {i : Instr} (h : IsI2cmCommand i) :
    ∃ op arg steps cl, (cl = true → IsClockLowCommand i) ∧ ∀ s, exec i s = .next (issueI2cm op arg steps cl s) := by
  obtain ⟨hr, hf⟩ := h
  cases i with
  | i2cInit => exact ⟨_, _, _, false, nofun, fun _ => rfl⟩
  | i2cStart => exact ⟨_, _, _, false, nofun, fun _ => rfl⟩
  | i2cStop => exact ⟨_, _, _, true, fun _ => .inl rfl, fun _ => rfl⟩
  | i2cSendb b => exact ⟨_, _, _, true, fun _ => .inr (.inl ⟨b, rfl⟩), fun _ => rfl⟩
  | i2cRecvb => exact ⟨_, _, _, true, fun _ => .inr (.inr (.inl rfl)), fun _ => rfl⟩
  | i2cSack a => exact ⟨_, _, _, true, fun _ => .inr (.inr (.inr (.inl ⟨a, rfl⟩))), fun _ => rfl⟩
  | i2cRack => exact ⟨_, _, _, true, fun _ => .inr (.inr (.inr (.inr rfl))), fun _ => rfl⟩
  | i2cWscl b => exact ⟨_, _, _, false, nofun, fun _ => rfl⟩
  | i2cWsda b => exact ⟨_, _, _, false, nofun, fun _ => rfl⟩
  | i2cRsda => exact ⟨_, _, _, false, nofun, fun _ => rfl⟩
  | flcUnlock | flcLock | flcErasep | flcErasea | flcProgh | flcProgw => exact absurd (by decide) hf
  | rdB a | rdH a | rdW a => cases hr

/-- The address of FLC_ADDR is one that the command's check refuses (60_exceptions.md R281). -/
def AddrRefused (s : State) (i : Instr) : Prop :=
  (i = .flcErasep ∧ erasePageAddrOk s.par s.flc.addr.toNat = false)
    ∨ (i = .flcProgh ∧ progHalfAddrOk s.par s.flc.addr.toNat = false)
    ∨ (i = .flcProgw ∧ progWordAddrOk s.par s.flc.addr.toNat = false)

/-- A mutating command is issued to the FLC, with its address check (60_exceptions.md R281). -/
theorem exec_mutating {i : Instr} (h : i ∈ mutatingCommands) (s : State) :
    ∃ op ok pf t, (ok = false → AddrRefused s i) ∧ exec i s = .next (issueFlc op ok pf t s) := by
  simp only [mutatingCommands, List.mem_cons, List.not_mem_nil, or_false] at h
  rcases h with rfl | rfl | rfl | rfl
  · exact ⟨_, _, _, _, fun h => .inl ⟨rfl, h⟩, rfl⟩
  · exact ⟨_, true, _, _, nofun, rfl⟩
  · exact ⟨_, _, _, _, fun h => .inr (.inl ⟨rfl, h⟩), rfl⟩
  · exact ⟨_, _, _, _, fun h => .inr (.inr ⟨rfl, h⟩), rfl⟩

/-- A command of the FLC is UNLOCK, LOCK or a mutating one. -/
theorem mem_flcCommands_iff (i : Instr) : i ∈ flcCommands ↔ i = .flcUnlock ∨ i = .flcLock ∨ i ∈ mutatingCommands := by
  simp [flcCommands, mutatingCommands]

/-- A flash read is `readFlash` of its address (43_flash.md R211, R212, R213). -/
theorem exec_flashRead {i : Instr} {a : Word} (h : i.readAddr? = some a) :
    ∃ w n, ∀ s, exec i s = readFlash w n a s := by
  cases i with
  | rdB b => injection h with h; subst h; exact ⟨_, _, fun _ => rfl⟩
  | rdH b => injection h with h; subst h; exact ⟨_, _, fun _ => rfl⟩
  | rdW b => injection h with h; subst h; exact ⟨_, _, fun _ => rfl⟩
  | i2cInit | i2cStart | i2cStop | i2cSendb | i2cRecvb | i2cSack | i2cRack | i2cWscl | i2cWsda | i2cRsda => cases h
  | flcUnlock | flcLock | flcErasep | flcErasea | flcProgh | flcProgw => cases h

/-! ### What an access does to each unit -/

/-- The ways an access changes the I2CM unit, each with the access that does it; none is a tick without an access. -/
inductive AccessI2cm (m : I2cm) : Option Decoded → I2cm → Prop
  | same (o : Option Decoded) : AccessI2cm m o m
  | busyCommand (i : Instr) : IsI2cmCommand i → m.busy = true →
      AccessI2cm m (some (.instr i)) { m with busyerr := true }
  | busyInvalid (e : DecodeError) : m.busy = true →
      AccessI2cm m (some (.badCommand .i2cm e)) { m with busyerr := true }
  | invalid (e : DecodeError) : m.busy = false →
      AccessI2cm m (some (.badCommand .i2cm e)) { m with cmderr := true }
  | accepted (i : Instr) (op : BitVec 4) (arg : Byte) (steps : List MicroOp) (cl : Bool) :
      m.busy = false → (cl = true → IsClockLowCommand i) →
      AccessI2cm m (some (.instr i)) (acceptI2cm op arg steps cl m)
  | clear (v : Word) : AccessI2cm m (some (.writeReg .i2cmStat v)) (i2cmClear v m)
  | delay (v : Word) : AccessI2cm m (some (.writeReg .i2cmDelay v)) (i2cmSetDelay v m)

/-- The ways an access changes the FLC unit, each with the access that does it. -/
inductive AccessFlc (s : State) : Option Decoded → Flc → Prop
  | same (o : Option Decoded) : AccessFlc s o s.flc
  | busyCommand (i : Instr) : i ∈ flcCommands → s.flc.busy = true →
      AccessFlc s (some (.instr i)) { s.flc with busyerr := true }
  | busyInvalid (e : DecodeError) : s.flc.busy = true →
      AccessFlc s (some (.badCommand .flc e)) { s.flc with busyerr := true }
  | invalid (e : DecodeError) : s.flc.busy = false →
      AccessFlc s (some (.badCommand .flc e)) { s.flc with cmderr := true }
  | locked (i : Instr) : i ∈ mutatingCommands → s.flc.busy = false → s.flc.locked = true →
      AccessFlc s (some (.instr i)) { s.flc with lockerr := true }
  | address (i : Instr) : AddrRefused s i → s.flc.busy = false → s.flc.locked = false →
      AccessFlc s (some (.instr i)) { s.flc with addrerr := true }
  | accepted (i : Instr) (op : BitVec 4) (pf : Bool) (t : Nat) : s.flc.busy = false → s.flc.locked = false →
      AccessFlc s (some (.instr i)) (acceptFlc op pf t s.flc)
  | unlock : s.flc.busy = false → AccessFlc s (some (.instr .flcUnlock)) { s.flc with locked := false }
  | lock : s.flc.busy = false → AccessFlc s (some (.instr .flcLock)) { s.flc with locked := true }
  | clear (v : Word) : AccessFlc s (some (.writeReg .flcStat v)) (flcClear v s.flc)
  | addr (v : Word) : AccessFlc s (some (.writeReg .flcAddr v)) (flcSetAddr v s.flc)
  | data (v : Word) : AccessFlc s (some (.writeReg .flcData v)) (flcSetData v s.flc)

/-- A mutating command does to the FLC unit one of the things that `AccessFlc` lists for it, in R281's order. -/
theorem AccessFlc.of_issueFlc {i : Instr} {s : State} (hi : i ∈ mutatingCommands) (op : BitVec 4) (ok pf : Bool) (t : Nat)
    (ha : ok = false → AddrRefused s i) : AccessFlc s (some (.instr i)) (issueFlc op ok pf t s).flc := by
  rw [issueFlc_flc]
  cases hb : s.flc.busy with
  | true => exact .busyCommand i ((mem_flcCommands_iff i).2 (.inr (.inr hi))) hb
  | false =>
    cases hl : s.flc.locked with
    | true => exact .locked i hi hb hl
    | false =>
      cases ho : ok with
      | true => exact .accepted i op pf t hb hl
      | false => exact .address i (ha ho) hb hl

/-- UNLOCK and LOCK do to the FLC unit one of the things that `AccessFlc` lists. -/
theorem AccessFlc.of_issueLock (b : Bool) (s : State) :
    AccessFlc s (some (.instr (if b then .flcLock else .flcUnlock))) (issueLock b s).flc := by
  rw [issueLock_flc]
  cases hb : s.flc.busy with
  | true => exact .busyCommand _ (by cases b <;> decide) hb
  | false =>
    cases b with
    | true => exact .lock hb
    | false => exact .unlock hb

/-- Everything an access does to the units, by what it decodes to. -/
theorem performDecoded_access {d : Decoded} {s t : State} (h : performDecoded d s = .next t) :
    AccessI2cm s.i2cm (some d) t.i2cm ∧ AccessFlc s (some d) t.flc := by
  cases d with
  | instr i =>
    rcases instr_cases_unit i with hi | hi | ⟨a, ha⟩
    · obtain ⟨op, arg, steps, cl, hcl, he⟩ := exec_i2cmCommand hi
      obtain rfl : issueI2cm op arg steps cl s = t := by simpa [performDecoded, he] using h
      refine ⟨?_, .same _⟩
      rw [issueI2cm_i2cm]
      cases hb : s.i2cm.busy with
      | true => exact .busyCommand i hi hb
      | false => exact .accepted i op arg steps cl hb hcl
    · rcases (mem_flcCommands_iff i).1 hi with rfl | rfl | hi
      · injection h with h; subst h; exact ⟨.same _, .of_issueLock false s⟩
      · injection h with h; subst h; exact ⟨.same _, .of_issueLock true s⟩
      · obtain ⟨op, ok, pf, dur, hok, he⟩ := exec_mutating hi s
        obtain rfl : issueFlc op ok pf dur s = t := by simpa [performDecoded, he] using h
        exact ⟨.same _, .of_issueFlc hi op ok pf dur hok⟩
    · obtain ⟨w, n, he⟩ := exec_flashRead ha
      rcases (readFlash_next ((he s).symm.trans h)).2 with ⟨-, rfl⟩ | ⟨-, -, rfl⟩ | ⟨-, -, rfl⟩ <;>
        exact ⟨.same _, .same _⟩
  | badCommand u e =>
    injection h with h
    subst h
    cases u with
    | i2cm =>
      refine ⟨?_, .same _⟩
      rw [rejectCommand, rejectI2cm, State.respond_i2cm, State.setI2cm_i2cm]
      cases hb : s.i2cm.busy with
      | true => exact .busyInvalid e hb
      | false => exact .invalid e hb
    | flc =>
      refine ⟨.same _, ?_⟩
      rw [rejectCommand, rejectFlc, State.respond_flc, State.setFlc_flc]
      cases hb : s.flc.busy with
      | true => exact .busyInvalid e hb
      | false => exact .invalid e hb
  | readReg r => injection h with h; subst h; exact ⟨.same _, .same _⟩
  | writeReg r v =>
    injection h with h
    subst h
    cases r with
    | i2cmCmd | i2cmData | flcCmd => exact ⟨.same _, .same _⟩
    | i2cmStat => exact ⟨.clear v, .same _⟩
    | i2cmDelay => exact ⟨.delay v, .same _⟩
    | flcAddr => exact ⟨.same _, .addr v⟩
    | flcData => exact ⟨.same _, .data v⟩
    | flcStat => exact ⟨.same _, .clear v⟩
  | fault c => injection h with h; subst h; exact ⟨.same _, .same _⟩
  | outside => cases h

/-- Everything the host's turn does to the units, by the access it makes. -/
theorem hostTurn_access {s t : State} (h : hostTurn s = .next t) :
    AccessI2cm s.i2cm s.nextAccess t.i2cm ∧ AccessFlc s s.nextAccess t.flc := by
  have key : ∀ {line : HostOp} {rest : List HostOp} {a : Access},
      retireOutcome line rest (performAccess a s) = .next t →
      AccessI2cm s.i2cm (some (decodeAccess s.par a)) t.i2cm ∧ AccessFlc s (some (decodeAccess s.par a)) t.flc := by
    intro line rest a h
    cases ho : performAccess a s with
    | next u =>
      rw [ho] at h
      obtain rfl : retire line rest u = t := by injection h
      exact performDecoded_access (t := u) ho
    | fault r => rw [ho] at h; cases h
    | refused r => rw [ho] at h; cases h
  unfold hostTurn at h
  unfold State.nextAccess
  cases hp : s.host.prog with
  | nil =>
    rw [hp] at h
    injection h with h
    subst h
    exact ⟨.same _, .same _⟩
  | cons line rest =>
    rw [hp] at h
    cases line with
    | idle => injection h with h; subst h; exact ⟨.same _, .same _⟩
    | access a => exact key h
    | poll addr mask want => exact key h

theorem unitsTick_par (s : State) : (unitsTick s).par = s.par := (unitsTick_frame s).1

theorem unitsTick_host (s : State) : (unitsTick s).host = s.host := by
  obtain ⟨-, -, -, -, -, -, hh⟩ := unitsTick_frame s
  exact hh

theorem unitsTick_i2cm (s : State) : (unitsTick s).i2cm = i2cmTick (s.envAt 0).sdaP s.i2cm := by
  obtain ⟨-, -, -, -, -, hi, -⟩ := unitsTick_frame s
  exact hi

/-- What the units' turn leaves of the host's next access. -/
theorem unitsTick_nextAccess (s : State) : (unitsTick s).nextAccess = s.nextAccess := by
  unfold State.nextAccess
  rw [unitsTick_par, unitsTick_host]

/-- Everything a tick without reset does to the units, after they acted, by the access the host makes in it. -/
theorem step_access {s t : State} (h : step s = .next t) (hr : (s.envAt 0).reset = false) :
    AccessI2cm (i2cmTick (s.envAt 0).sdaP s.i2cm) s.nextAccess t.i2cm ∧ AccessFlc (unitsTick s) s.nextAccess t.flc := by
  rcases (step_cases h).2 with ⟨hr', -⟩ | ⟨-, ht, -⟩
  · rw [hr] at hr'; cases hr'
  · have := hostTurn_access ht
    rwa [unitsTick_nextAccess, unitsTick_i2cm] at this

end Sys2Proof.Machine

namespace Sys2Proof.Machine

/-! What sets each flag, what changes each result, the lock and the array: by an access (`AccessI2cm`, `AccessFlc`) or by
the units' own turn. -/

/-! ### What each access leaves, and what it sets -/

/-- No access changes a result, a drive or SDA_IN, and only a status write clears NACKF (10_state.md R43 to R46). -/
theorem AccessI2cm.results {m m' : I2cm} {o : Option Decoded} (h : AccessI2cm m o m') :
    m'.rxdata = m.rxdata ∧ m'.ack = m.ack ∧ m'.owned = m.owned ∧ m'.sclO = m.sclO ∧ m'.sdaO = m.sdaO
      ∧ m'.sdaIn = m.sdaIn ∧ (m'.nackf = true → m.nackf = true) := by
  cases h with
  | same | busyCommand | busyInvalid | invalid | accepted | delay => exact ⟨rfl, rfl, rfl, rfl, rfl, rfl, id⟩
  | clear v => exact ⟨rfl, rfl, rfl, rfl, rfl, rfl, by simp +contextual [i2cmClear]⟩

/-- The delay changes by a write of I2CM_DELAY alone (10_state.md R53). -/
theorem AccessI2cm.delay_ne {m m' : I2cm} {o : Option Decoded} (h : AccessI2cm m o m') (hne : m'.delay ≠ m.delay) :
    ∃ v, o = some (.writeReg .i2cmDelay v) ∧ m'.delay = v.extractLsb' 0 16 := by
  cases h with
  | same | busyCommand | busyInvalid | invalid | accepted | clear => exact absurd rfl hne
  | delay v => exact ⟨v, rfl, by simp [i2cmSetDelay, ← BitVec.setWidth_eq_extractLsb']⟩

/-- CMDERR is set by an invalid word on an idle unit alone (10_state.md R48). -/
theorem AccessI2cm.cmderr_set {m m' : I2cm} {o : Option Decoded} (h : AccessI2cm m o m') (h0 : m.cmderr = false)
    (h1 : m'.cmderr = true) : m.busy = false ∧ ∃ e, o = some (.badCommand .i2cm e) := by
  cases h with
  | same | busyCommand | busyInvalid | accepted | delay => exact absurd (h0.symm.trans h1) nofun
  | clear v => simp [i2cmClear, h0] at h1
  | invalid e hb => exact ⟨hb, e, rfl⟩

/-- BUSYERR is set by a word written while the unit is busy alone (10_state.md R49). -/
theorem AccessI2cm.busyerr_set {m m' : I2cm} {o : Option Decoded} (h : AccessI2cm m o m') (h0 : m.busyerr = false)
    (h1 : m'.busyerr = true) :
    m.busy = true ∧ ((∃ e, o = some (.badCommand .i2cm e)) ∨ ∃ i, o = some (.instr i) ∧ IsI2cmCommand i) := by
  cases h with
  | same | invalid | accepted | delay => exact absurd (h0.symm.trans h1) nofun
  | clear v => simp [i2cmClear, h0] at h1
  | busyCommand i hi hb => exact ⟨hb, .inr ⟨i, rfl, hi⟩⟩
  | busyInvalid e hb => exact ⟨hb, .inl ⟨e, rfl⟩⟩

/-- SEQERR is set by the acceptance of a clock-low command with the clock released alone (10_state.md R50). -/
theorem AccessI2cm.seqerr_set {m m' : I2cm} {o : Option Decoded} (h : AccessI2cm m o m') (h0 : m.seqerr = false)
    (h1 : m'.seqerr = true) :
    m.busy = false ∧ m.sclO = true ∧ ∃ i, o = some (.instr i) ∧ IsClockLowCommand i := by
  cases h with
  | same | busyCommand | busyInvalid | invalid | delay => exact absurd (h0.symm.trans h1) nofun
  | clear v => simp [i2cmClear, h0] at h1
  | accepted i op arg steps cl hb hcl =>
    obtain ⟨hc, hs⟩ : cl = true ∧ m.sclO = true := by simpa [acceptI2cm, h0] using h1
    exact ⟨hb, hs, i, rfl, hcl hc⟩

/-- FLC_ADDR changes by a write of it alone (10_state.md R61). -/
theorem AccessFlc.addr_ne {s : State} {f : Flc} {o : Option Decoded} (h : AccessFlc s o f) (hne : f.addr ≠ s.flc.addr) :
    ∃ v, o = some (.writeReg .flcAddr v) ∧ f.addr = v := by
  cases h with
  | same | busyCommand | busyInvalid | invalid | locked | address | accepted | unlock | lock | clear | data =>
    exact absurd rfl hne
  | addr v => exact ⟨v, rfl, rfl⟩

/-- FLC_DATA changes by a write of it alone (10_state.md R62). -/
theorem AccessFlc.data_ne {s : State} {f : Flc} {o : Option Decoded} (h : AccessFlc s o f) (hne : f.data ≠ s.flc.data) :
    ∃ v, o = some (.writeReg .flcData v) ∧ f.data = v := by
  cases h with
  | same | busyCommand | busyInvalid | invalid | locked | address | accepted | unlock | lock | clear | addr =>
    exact absurd rfl hne
  | data v => exact ⟨v, rfl, rfl⟩

/-- The lock changes by UNLOCK and LOCK alone (10_state.md R58). -/
theorem AccessFlc.locked_ne {s : State} {f : Flc} {o : Option Decoded} (h : AccessFlc s o f)
    (hne : f.locked ≠ s.flc.locked) :
    (o = some (.instr .flcUnlock) ∧ f.locked = false) ∨ (o = some (.instr .flcLock) ∧ f.locked = true) := by
  cases h with
  | same | busyCommand | busyInvalid | invalid | locked | address | accepted | clear | addr | data =>
    exact absurd rfl hne
  | unlock => exact .inl ⟨rfl, rfl⟩
  | lock => exact .inr ⟨rfl, rfl⟩

/-- No access sets EOP or PGERR (10_state.md R65, R66). -/
theorem AccessFlc.eop_pgerr {s : State} {f : Flc} {o : Option Decoded} (h : AccessFlc s o f) :
    (f.eop = true → s.flc.eop = true) ∧ (f.pgerr = true → s.flc.pgerr = true) := by
  cases h with
  | same | busyCommand | busyInvalid | invalid | locked | address | accepted | unlock | lock | addr | data =>
    exact ⟨id, id⟩
  | clear v => simp +contextual [flcClear]

/-- LOCKERR is set by a mutating command on an idle, locked unit alone (10_state.md R67). -/
theorem AccessFlc.lockerr_set {s : State} {f : Flc} {o : Option Decoded} (h : AccessFlc s o f)
    (h0 : s.flc.lockerr = false) (h1 : f.lockerr = true) :
    s.flc.busy = false ∧ s.flc.locked = true ∧ ∃ i, o = some (.instr i) ∧ i ∈ mutatingCommands := by
  cases h with
  | same | busyCommand | busyInvalid | invalid | address | accepted | unlock | lock | addr | data =>
    exact absurd (h0.symm.trans h1) nofun
  | clear v => simp [flcClear, h0] at h1
  | locked i hi hb hl => exact ⟨hb, hl, i, rfl, hi⟩

/-- ADDRERR is set by a command with a refused address on an idle, unlocked unit alone (10_state.md R68). -/
theorem AccessFlc.addrerr_set {s : State} {f : Flc} {o : Option Decoded} (h : AccessFlc s o f)
    (h0 : s.flc.addrerr = false) (h1 : f.addrerr = true) :
    s.flc.busy = false ∧ s.flc.locked = false ∧ ∃ i, o = some (.instr i) ∧ AddrRefused s i := by
  cases h with
  | same | busyCommand | busyInvalid | invalid | locked | accepted | unlock | lock | addr | data =>
    exact absurd (h0.symm.trans h1) nofun
  | clear v => simp [flcClear, h0] at h1
  | address i hi hb hl => exact ⟨hb, hl, i, rfl, hi⟩

/-- CMDERR is set by an invalid word on an idle unit alone (10_state.md R69). -/
theorem AccessFlc.cmderr_set {s : State} {f : Flc} {o : Option Decoded} (h : AccessFlc s o f)
    (h0 : s.flc.cmderr = false) (h1 : f.cmderr = true) :
    s.flc.busy = false ∧ ∃ e, o = some (.badCommand .flc e) := by
  cases h with
  | same | busyCommand | busyInvalid | locked | address | accepted | unlock | lock | addr | data =>
    exact absurd (h0.symm.trans h1) nofun
  | clear v => simp [flcClear, h0] at h1
  | invalid e hb => exact ⟨hb, e, rfl⟩

/-- BUSYERR is set by a word written while the unit is busy alone (10_state.md R70). -/
theorem AccessFlc.busyerr_set {s : State} {f : Flc} {o : Option Decoded} (h : AccessFlc s o f)
    (h0 : s.flc.busyerr = false) (h1 : f.busyerr = true) :
    s.flc.busy = true ∧ ((∃ e, o = some (.badCommand .flc e)) ∨ ∃ i, o = some (.instr i) ∧ i ∈ flcCommands) := by
  cases h with
  | same | invalid | locked | address | accepted | unlock | lock | addr | data =>
    exact absurd (h0.symm.trans h1) nofun
  | clear v => simp [flcClear, h0] at h1
  | busyCommand i hi hb => exact ⟨hb, .inr ⟨i, rfl, hi⟩⟩
  | busyInvalid e hb => exact ⟨hb, .inl ⟨e, rfl⟩⟩

/-- No access starts a command of a locked, idle FLC (10_state.md R58, R67). -/
theorem AccessFlc.idle_of_locked {s : State} {f : Flc} {o : Option Decoded} (h : AccessFlc s o f)
    (hb : s.flc.busy = false) (hl : s.flc.locked = true) : f.busy = false := by
  cases h with
  | same | busyCommand | busyInvalid | invalid | locked | address | unlock | lock | clear | addr | data => exact hb
  | accepted i op pf t _ hu => exact absurd (hl.symm.trans hu) nofun

/-! ### The units in one tick -/

/-- What a completion does to RXDATA, ACK, NACKF and OWNED (41_i2c_protocol.md R161, R162, R163, R165, R167). -/
theorem completeI2cm_results (m : I2cm) :
    (completeI2cm m).rxdata = (if m.curOp = opRecvByte then m.acc else m.rxdata)
      ∧ (completeI2cm m).ack = (if m.curOp = opRecvAck then m.acc.getLsbD 0 else m.ack)
      ∧ (completeI2cm m).nackf = (m.nackf || (decide (m.curOp = opRecvAck) && m.acc.getLsbD 0))
      ∧ (completeI2cm m).owned
        = (if m.curOp = opStart then true else if m.curOp = opStop ∨ m.curOp = opInit then false else m.owned) := by
  unfold completeI2cm
  split
  · next h => simp [h, completeInit, opInit, opStart, opRecvByte, opRecvAck]
  split
  · next h => simp [h, completeStart, opStart, opRecvByte, opRecvAck]
  split
  · next h => simp [h, completeStop, opStop, opRecvByte, opRecvAck]
  split
  · next h => simp [h, completeRecvByte, opInit, opStop, opRecvByte, opRecvAck]
  split
  · next h => simp [h, completeRecvAck, opInit, opStop, opRecvAck]
  · next hinit _ hstop _ hack => simp [hinit, hstop, hack]

@[simp] theorem perform_rxdata (d : Bool) (op : MicroOp) (m : I2cm) : (perform d op m).rxdata = m.rxdata := by
  cases op <;> rfl

@[simp] theorem perform_ack (d : Bool) (op : MicroOp) (m : I2cm) : (perform d op m).ack = m.ack := by
  cases op <;> rfl

@[simp] theorem perform_owned (d : Bool) (op : MicroOp) (m : I2cm) : (perform d op m).owned = m.owned := by
  cases op <;> rfl

@[simp] theorem perform_nackf (d : Bool) (op : MicroOp) (m : I2cm) : (perform d op m).nackf = m.nackf := by
  cases op <;> rfl

/-- What no micro-operation changes, a tick changes at the completion of a command alone (40_bitio.md R142). -/
theorem i2cmTick_ne_of_completion {α : Type} (f : I2cm → α)
    (hframe : ∀ m b k w, f { m with busy := b, k := k, waitCnt := w } = f m) (hperform : ∀ d op m, f (perform d op m) = f m)
    {d : Bool} {m : I2cm} (hne : f (i2cmTick d m) ≠ f m) :
    m.busy = true ∧ m.waitCnt ≤ 1 ∧ m.steps.length ≤ m.k ∧ f (i2cmTick d m) = f (completeI2cm m) := by
  rcases i2cmTick_cases d m with ⟨-, h⟩ | ⟨hb, -, h⟩ | ⟨hb, -, op, -, h⟩ | ⟨hb, hw, hs, h⟩
  · exact absurd (by rw [h]) hne
  · exact absurd (by rw [h]; exact hframe m m.busy m.k _) hne
  · exact absurd (by rw [h]; exact (hframe _ (perform d op m).busy _ _).trans (hperform d op m)) hne
  · exact ⟨hb, hw, List.getElem?_eq_none_iff.1 hs, by rw [h]; exact hframe _ _ _ _⟩

/-- What no completion changes, a tick changes at a micro-step alone (40_bitio.md R142). -/
theorem i2cmTick_ne_of_microStep {α : Type} (f : I2cm → α)
    (hframe : ∀ m b k w, f { m with busy := b, k := k, waitCnt := w } = f m) (hcomplete : ∀ m, f (completeI2cm m) = f m)
    {d : Bool} {m : I2cm} (hne : f (i2cmTick d m) ≠ f m) :
    m.busy = true ∧ m.waitCnt ≤ 1 ∧ ∃ op, m.steps[m.k]? = some op ∧ f (i2cmTick d m) = f (perform d op m) := by
  rcases i2cmTick_cases d m with ⟨-, h⟩ | ⟨hb, -, h⟩ | ⟨hb, hw, op, hs, h⟩ | ⟨hb, -, -, h⟩
  · exact absurd (by rw [h]) hne
  · exact absurd (by rw [h]; exact hframe m m.busy m.k _) hne
  · exact ⟨hb, hw, op, hs, by rw [h]; exact hframe _ (perform d op m).busy _ _⟩
  · exact absurd (by rw [h]; exact (hframe _ _ _ _).trans (hcomplete m)) hne

/-- RXDATA changes at the completion of a RECV_BYTE (10_state.md R44). -/
theorem i2cmTick_rxdata_ne {d : Bool} {m : I2cm} (hne : (i2cmTick d m).rxdata ≠ m.rxdata) :
    m.busy = true ∧ m.waitCnt ≤ 1 ∧ m.steps.length ≤ m.k ∧ m.curOp = opRecvByte ∧ (i2cmTick d m).rxdata = m.acc := by
  obtain ⟨hb, hw, hk, hv⟩ := i2cmTick_ne_of_completion I2cm.rxdata (fun _ _ _ _ => rfl) perform_rxdata hne
  obtain ⟨hc, -⟩ := completeI2cm_results m
  rw [hv, hc] at hne ⊢
  split at hne
  · next ho => exact ⟨hb, hw, hk, ho, if_pos ho⟩
  · exact absurd rfl hne

/-- ACK changes at the completion of a RECV_ACK (10_state.md R45). -/
theorem i2cmTick_ack_ne {d : Bool} {m : I2cm} (hne : (i2cmTick d m).ack ≠ m.ack) :
    m.busy = true ∧ m.waitCnt ≤ 1 ∧ m.steps.length ≤ m.k ∧ m.curOp = opRecvAck
      ∧ (i2cmTick d m).ack = m.acc.getLsbD 0 := by
  obtain ⟨hb, hw, hk, hv⟩ := i2cmTick_ne_of_completion I2cm.ack (fun _ _ _ _ => rfl) perform_ack hne
  obtain ⟨-, hc, -⟩ := completeI2cm_results m
  rw [hv, hc] at hne ⊢
  split at hne
  · next ho => exact ⟨hb, hw, hk, ho, if_pos ho⟩
  · exact absurd rfl hne

/-- OWNED changes at the completion of a START, STOP or INIT (10_state.md R43). -/
theorem i2cmTick_owned_ne {d : Bool} {m : I2cm} (hne : (i2cmTick d m).owned ≠ m.owned) :
    m.busy = true ∧ m.waitCnt ≤ 1 ∧ m.steps.length ≤ m.k
      ∧ ((m.curOp = opStart ∧ (i2cmTick d m).owned = true)
        ∨ ((m.curOp = opStop ∨ m.curOp = opInit) ∧ (i2cmTick d m).owned = false)) := by
  obtain ⟨hb, hw, hk, hv⟩ := i2cmTick_ne_of_completion I2cm.owned (fun _ _ _ _ => rfl) perform_owned hne
  obtain ⟨-, -, -, hc⟩ := completeI2cm_results m
  rw [hv, hc] at hne ⊢
  by_cases hstart : m.curOp = opStart
  · exact ⟨hb, hw, hk, .inl ⟨hstart, if_pos hstart⟩⟩
  · rw [if_neg hstart] at hne ⊢
    split at hne
    · next hstop => exact ⟨hb, hw, hk, .inr ⟨hstop, if_pos hstop⟩⟩
    · exact absurd rfl hne

/-- NACKF is set at the completion of a RECV_ACK that sampled 1 (10_state.md R47). -/
theorem i2cmTick_nackf_set {d : Bool} {m : I2cm} (h0 : m.nackf = false) (h1 : (i2cmTick d m).nackf = true) :
    m.busy = true ∧ m.waitCnt ≤ 1 ∧ m.steps.length ≤ m.k ∧ m.curOp = opRecvAck ∧ m.acc.getLsbD 0 = true := by
  obtain ⟨hb, hw, hk, hv⟩ := i2cmTick_ne_of_completion I2cm.nackf (fun _ _ _ _ => rfl) perform_nackf (d := d) (m := m)
    (by rw [h1, h0]; nofun)
  obtain ⟨-, -, hc, -⟩ := completeI2cm_results m
  rw [h1, hc, h0, Bool.false_or] at hv
  obtain ⟨ho, ha⟩ : m.curOp = opRecvAck ∧ m.acc.getLsbD 0 = true := by simpa using hv.symm
  exact ⟨hb, hw, hk, ho, ha⟩

/-- The drive of SCL changes at a micro-step SCL alone (40_bitio.md R144). -/
theorem i2cmTick_sclO_ne {d : Bool} {m : I2cm} (hne : (i2cmTick d m).sclO ≠ m.sclO) :
    m.busy = true ∧ m.waitCnt ≤ 1 ∧ m.steps[m.k]? = some (.scl (i2cmTick d m).sclO) := by
  obtain ⟨hb, hw, op, hs, hv⟩ := i2cmTick_ne_of_microStep I2cm.sclO (fun _ _ _ _ => rfl)
    (fun m => by rw [completeI2cm_frame]) hne
  rw [hv] at hne ⊢
  cases op with
  | scl b => exact ⟨hb, hw, hs⟩
  | sda b | sample dst => exact absurd rfl hne

/-- The drive of SDA changes at a micro-step SDA alone (40_bitio.md R145). -/
theorem i2cmTick_sdaO_ne {d : Bool} {m : I2cm} (hne : (i2cmTick d m).sdaO ≠ m.sdaO) :
    m.busy = true ∧ m.waitCnt ≤ 1 ∧ m.steps[m.k]? = some (.sda (i2cmTick d m).sdaO) := by
  obtain ⟨hb, hw, op, hs, hv⟩ := i2cmTick_ne_of_microStep I2cm.sdaO (fun _ _ _ _ => rfl)
    (fun m => by rw [completeI2cm_frame]) hne
  rw [hv] at hne ⊢
  cases op with
  | sda b => exact ⟨hb, hw, hs⟩
  | scl b | sample dst => exact absurd rfl hne

/-- SDA_IN changes at a sample alone (40_bitio.md R146). -/
theorem i2cmTick_sdaIn_ne {d : Bool} {m : I2cm} (hne : (i2cmTick d m).sdaIn ≠ m.sdaIn) :
    m.busy = true ∧ m.waitCnt ≤ 1 ∧ ∃ dst, m.steps[m.k]? = some (.sample dst) := by
  obtain ⟨hb, hw, op, hs, hv⟩ := i2cmTick_ne_of_microStep I2cm.sdaIn (fun _ _ _ _ => rfl)
    (fun m => by rw [completeI2cm_frame]) hne
  rw [hv] at hne
  cases op with
  | sample dst => exact ⟨hb, hw, dst, hs⟩
  | scl b | sda b => exact absurd rfl hne

/-- The FLC unit after the units acted is one of three things (43_flash.md R221). -/
theorem unitsTick_flc_cases (s : State) :
    (s.flc.busy = false ∧ (unitsTick s).flc = s.flc)
      ∨ (s.flc.busy = true ∧ 2 ≤ s.flc.remaining ∧ (unitsTick s).flc = { s.flc with remaining := s.flc.remaining - 1 })
      ∨ (s.flc.busy = true ∧ s.flc.remaining ≤ 1 ∧ (unitsTick s).flc = finishFlc s.flc) := by
  unfold unitsTick
  rcases flcTick_cases
    { s with
      now := s.now + 1, env := s.env.tail, sclP := (s.envAt 0).sclP, sdaP := (s.envAt 0).sdaP
      i2cm := i2cmTick (s.envAt 0).sdaP s.i2cm } with ⟨hb, h⟩ | ⟨hb, hr, h⟩ | ⟨hb, hr, h⟩
  · exact .inl ⟨hb, by rw [h]⟩
  · exact .inr (.inl ⟨hb, hr, by rw [h]; rfl⟩)
  · exact .inr (.inr ⟨hb, hr, by rw [h]; rfl⟩)

/-- What the FLC engine never touches of the unit. -/
theorem unitsTick_flc_frame (s : State) :
    (unitsTick s).flc.locked = s.flc.locked ∧ (unitsTick s).flc.addr = s.flc.addr ∧ (unitsTick s).flc.data = s.flc.data
      ∧ (unitsTick s).flc.lockerr = s.flc.lockerr ∧ (unitsTick s).flc.addrerr = s.flc.addrerr
      ∧ (unitsTick s).flc.cmderr = s.flc.cmderr ∧ (unitsTick s).flc.busyerr = s.flc.busyerr := by
  rcases unitsTick_flc_cases s with ⟨-, h⟩ | ⟨-, -, h⟩ | ⟨-, -, h⟩ <;> rw [h] <;> exact ⟨rfl, rfl, rfl, rfl, rfl, rfl, rfl⟩

/-- The engine sets EOP and PGERR at a completion alone, by whether the target was erased (10_state.md R65, R66). -/
theorem unitsTick_eop_pgerr (s : State) :
    (s.flc.eop = false → (unitsTick s).flc.eop = true → s.flc.busy = true ∧ s.flc.remaining ≤ 1 ∧ s.flc.pgFail = false)
    ∧ (s.flc.pgerr = false → (unitsTick s).flc.pgerr = true →
      s.flc.busy = true ∧ s.flc.remaining ≤ 1 ∧ s.flc.pgFail = true) := by
  rcases unitsTick_flc_cases s with ⟨-, h⟩ | ⟨-, -, h⟩ | ⟨hb, hr, h⟩ <;> rw [h]
  · exact ⟨fun h0 h1 => absurd (h0.symm.trans h1) nofun, fun h0 h1 => absurd (h0.symm.trans h1) nofun⟩
  · exact ⟨fun h0 h1 => absurd (h0.symm.trans h1) nofun, fun h0 h1 => absurd (h0.symm.trans h1) nofun⟩
  · exact ⟨fun h0 h1 => ⟨hb, hr, by simpa [finishFlc, h0] using h1⟩,
      fun h0 h1 => ⟨hb, hr, by simpa [finishFlc, h0] using h1⟩⟩

/-! ### Flags, results and the lock -/

/-- Settles O46: no access changes a result or a drive, so each is changed by the sequencer, at a completion or a micro-step;
the delay and the operands by the write of their register. -/
theorem resultsChangeOnlyAtTheirEvents : Obligations.ResultsChangeOnlyAtTheirEvents := by
  intro s t h hr
  obtain ⟨hi, hf⟩ := step_access h hr
  obtain ⟨hrx, hack, hown, hscl, hsda, hin, -⟩ := hi.results
  obtain ⟨-, -, -, hdelay, -⟩ := i2cmTick_frame (s.envAt 0).sdaP s.i2cm
  obtain ⟨-, haddr, hdata, -⟩ := unitsTick_flc_frame s
  rw [hrx, hack, hown, hscl, hsda, hin]
  exact ⟨i2cmTick_rxdata_ne, i2cmTick_ack_ne, i2cmTick_owned_ne, i2cmTick_sclO_ne, i2cmTick_sdaO_ne, i2cmTick_sdaIn_ne,
    fun hne => hi.delay_ne (by rwa [hdelay]), fun hne => hf.addr_ne (by rwa [haddr]), fun hne => hf.data_ne (by rwa [hdata])⟩

/-- Settles O47: NACKF by the completion of a RECV_ACK; the others by what the host's access is (`AccessI2cm`). -/
theorem i2cmFlagsAreSetOnlyByTheirEvents : Obligations.I2cmFlagsAreSetOnlyByTheirEvents := by
  intro s t h hr
  obtain ⟨hi, -⟩ := step_access h hr
  obtain ⟨-, -, -, -, -, -, hnackf⟩ := hi.results
  obtain ⟨hcmd, hbusy, hseq, -⟩ := i2cmTick_frame (s.envAt 0).sdaP s.i2cm
  rw [unitsTick_i2cm]
  exact ⟨fun h0 h1 => i2cmTick_nackf_set h0 (hnackf h1), fun h0 h1 => hi.cmderr_set (by rwa [hcmd]) h1,
    fun h0 h1 => hi.busyerr_set (by rwa [hbusy]) h1, fun h0 h1 => hi.seqerr_set (by rwa [hseq]) h1⟩

/-- Settles O48: EOP and PGERR by a completion; the others by what the host's access is (`AccessFlc`). -/
theorem flcFlagsAreSetOnlyByTheirEvents : Obligations.FlcFlagsAreSetOnlyByTheirEvents := by
  intro s t h hr
  obtain ⟨-, hf⟩ := step_access h hr
  obtain ⟨hlocked, haddr, -, hlockerr, haddrerr, hcmderr, hbusyerr⟩ := unitsTick_flc_frame s
  obtain ⟨heop, hpgerr⟩ := unitsTick_eop_pgerr s
  refine ⟨fun h0 h1 => heop h0 (hf.eop_pgerr.1 h1), fun h0 h1 => hpgerr h0 (hf.eop_pgerr.2 h1), fun h0 h1 => ?_,
    fun h0 h1 => ?_, fun h0 h1 => hf.cmderr_set (by rwa [hcmderr]) h1, fun h0 h1 => hf.busyerr_set (by rwa [hbusyerr]) h1⟩
  · have := hf.lockerr_set (by rwa [hlockerr]) h1
    rwa [hlocked] at this
  · obtain ⟨hb, hl, i, hi, hrefused⟩ := hf.addrerr_set (by rwa [haddrerr]) h1
    rw [AddrRefused, unitsTick_par, haddr] at hrefused
    rw [hlocked] at hl
    rw [hi]
    rcases hrefused with ⟨rfl, ha⟩ | ⟨rfl, ha⟩ | ⟨rfl, ha⟩
    · exact ⟨hb, hl, .inl ⟨rfl, ha⟩⟩
    · exact ⟨hb, hl, .inr (.inl ⟨rfl, ha⟩)⟩
    · exact ⟨hb, hl, .inr (.inr ⟨rfl, ha⟩)⟩

/-- A read decodes to a command only as a flash read (30_encoding.md R117). -/
theorem decodeAccess_read_instr {p : Params} {w : Width} {a : Word} {i : Instr}
    (h : decodeAccess p (.read w a) = .instr i) : i = flashRead w a ∧ inWindow p a.toNat = true := by
  have reg : ∀ off r, decodeRegAccess w off (.readReg r) ≠ .instr i := by
    intro off r
    unfold decodeRegAccess
    cases w
    · nofun
    · nofun
    · dsimp only; split <;> nofun
  rcases regionOf_cases p a.toNat with ⟨off, -, -, hr⟩ | ⟨off, -, -, hr⟩ | ⟨hw, hr⟩ | ⟨-, hr⟩ <;>
    rw [decodeAccess, hr] at h
  · exact absurd h (reg _ _)
  · exact absurd h (reg _ _)
  · injection h with h
    exact ⟨h.symm, hw⟩
  · cases h

/-- An access that issues an instruction that is no flash read is the line `access` of the host's program: a poll reads. -/
theorem nextAccess_command {s : State} {i : Instr} (h : s.nextAccess = some (.instr i)) (hi : i.readAddr? = none) :
    ∃ a rest, s.host.prog = .access a :: rest ∧ decodeAccess s.par a = .instr i := by
  unfold State.nextAccess at h
  cases hp : s.host.prog with
  | nil => rw [hp] at h; cases h
  | cons line rest =>
    rw [hp] at h
    cases line with
    | idle => cases h
    | access a => exact ⟨a, rest, rfl, Option.some.inj h⟩
    | poll addr mask want =>
      obtain ⟨rfl, -⟩ := decodeAccess_read_instr (Option.some.inj h)
      cases hi

/-- Settles O34. -/
theorem lockChangesOnlyByUnlockLockAndReset : Obligations.LockChangesOnlyByUnlockLockAndReset := by
  intro s t h hne
  cases hr : (s.envAt 0).reset with
  | true =>
    rcases (step_cases h).2 with ⟨-, rfl⟩ | ⟨hr', -⟩
    · exact .inl ⟨rfl, rfl⟩
    · exact absurd (hr.symm.trans hr') nofun
  | false =>
    obtain ⟨-, hf⟩ := step_access h hr
    rcases hf.locked_ne (by rwa [(unitsTick_flc_frame s).1]) with ⟨ho, hl⟩ | ⟨ho, hl⟩ <;>
      obtain ⟨a, rest, hp, hd⟩ := nextAccess_command ho rfl
    · exact .inr (.inl ⟨a, rest, hp, hd, hl⟩)
    · exact .inr (.inr ⟨a, rest, hp, hd, hl⟩)

/-! ### The flash array outside a completion -/

/-- A reset in which the FLC is idle leaves the array (70_reset_and_hazards.md R310, R314). -/
theorem resetTick_idle (s : State) (hb : s.flc.busy = false) : SameArray s (resetTick s) := by
  have hf : resetFlash s = s := by rw [resetFlash, hb]; rfl
  rw [resetTick, hf]
  exact ⟨rfl, rfl, rfl⟩

/-- A step in which the FLC is idle leaves the array (20_memory.md R92). -/
theorem step_idle {s t : State} (h : step s = .next t) (hb : s.flc.busy = false) : SameArray s t := by
  rcases (step_cases h).2 with ⟨-, rfl⟩ | ⟨-, -, hs⟩
  · exact resetTick_idle s hb
  · obtain ⟨-, hu⟩ := unitsTick_flc_idle s hb
    exact ⟨hs.mem.trans hu.mem, hs.unerased.trans hu.unerased, hs.draws.trans hu.draws⟩

/-- Settles O32. -/
theorem flashChangesOnlyAtACompletion : Obligations.FlashChangesOnlyAtACompletion := by
  intro s t h hcase
  cases hb : s.flc.busy with
  | false => exact ⟨(step_idle h hb).mem, (step_idle h hb).unerased⟩
  | true =>
    rcases hcase with hb' | ⟨hrem, hr⟩
    · exact absurd (hb.symm.trans hb') nofun
    rcases (step_cases h).2 with ⟨hr', -⟩ | ⟨-, -, hs⟩
    · exact absurd (hr.symm.trans hr') nofun
    · obtain ⟨-, hm, hu, -⟩ := unitsTick_flc_wait s hb hrem
      exact ⟨hs.mem.trans hm, hs.unerased.trans hu⟩

/-- Settles O33. -/
theorem lockedIdleUnitKeepsTheArray : Obligations.LockedIdleUnitKeepsTheArray := by
  intro s t hb hl h
  have ha := step_idle h hb
  refine ⟨?_, ha.mem, ha.unerased, State.byteAt_congr (step_par h) ha⟩
  cases hr : (s.envAt 0).reset with
  | true =>
    rcases (step_cases h).2 with ⟨-, rfl⟩ | ⟨hr', -⟩
    · rfl
    · exact absurd (hr.symm.trans hr') nofun
  | false =>
    obtain ⟨hu, -⟩ := unitsTick_flc_idle s hb
    exact (step_access h hr).2.idle_of_locked (by rwa [hu]) (by rwa [hu])

end Sys2Proof.Machine

namespace Sys2Proof.Machine

/-! One access or one tick: command words, acceptance and refusal, the registers, reset, and the instruction a step runs. -/

/-! ### Command words -/

/-- Any word written to I2CM_CMD while the unit is busy (10_state.md R49). -/
theorem performAccess_i2cmCmd_busy (s : State) (w : Word) (hp : s.par.ok = true) (hb : s.i2cm.busy = true) :
    performAccess (writeOf s.par .i2cmCmd w) s
      = .next ((s.setI2cm { s.i2cm with busyerr := true }).respond .written) := by
  rw [performAccess, decodeAccess_writeOf _ ((Params.ok_iff _).1 hp), decodeRegWrite]
  cases hd : decodeI2cm w with
  | error e => simp [decodeCommand, performDecoded, rejectCommand, rejectI2cm, hb]
  | ok i =>
    obtain ⟨op, arg, steps, cl, -, he⟩ := exec_i2cmCommand (isI2cmCommand_of_decodeI2cm hd)
    simp [decodeCommand, performDecoded, he, issueI2cm, hb]

/-- Any command of the FLC, while it is busy (10_state.md R70). -/
theorem exec_flcCommand_busy {i : Instr} (hi : i ∈ flcCommands) (s : State) (hb : s.flc.busy = true) :
    exec i s = .next ((s.setFlc { s.flc with busyerr := true }).respond .written) := by
  rcases (mem_flcCommands_iff i).1 hi with rfl | rfl | hi
  · simp [exec, execFlcUnlock, issueLock, hb]
  · simp [exec, execFlcLock, issueLock, hb]
  · obtain ⟨op, ok, pf, t, -, he⟩ := exec_mutating hi s
    simp [he, issueFlc, hb]

/-- Any word written to FLC_CMD while the unit is busy (10_state.md R70). -/
theorem performAccess_flcCmd_busy (s : State) (w : Word) (hp : s.par.ok = true) (hb : s.flc.busy = true) :
    performAccess (writeOf s.par .flcCmd w) s = .next ((s.setFlc { s.flc with busyerr := true }).respond .written) := by
  rw [performAccess, decodeAccess_writeOf _ ((Params.ok_iff _).1 hp), decodeRegWrite]
  cases hd : decodeFlc w with
  | error e => simp [decodeCommand, performDecoded, rejectCommand, rejectFlc, hb]
  | ok i =>
    obtain ⟨-, -, hi⟩ := decodeFlc_ok_cases hd
    exact exec_flcCommand_busy hi s hb

/-- Settles O6. -/
theorem busyUnitDiscardsAnyWord : Obligations.BusyUnitDiscardsAnyWord := fun s w hp =>
  ⟨performAccess_i2cmCmd_busy s w hp, performAccess_flcCmd_busy s w hp⟩

/-- Settles O5: a decoder accepts valid words only, so an invalid one is rejected. -/
theorem invalidWordSetsCmderrAndNothingElse : Obligations.InvalidWordSetsCmderrAndNothingElse := by
  intro s w hp
  have hwrite := fun r => decodeAccess_writeOf s.par ((Params.ok_iff _).1 hp) r w
  refine ⟨fun hb hw => ?_, fun hb hw => ?_⟩
  · rw [performAccess, hwrite, decodeRegWrite]
    cases hd : decodeI2cm w with
    | ok i => exact absurd (validI2cm_of_decodeI2cm hd) hw
    | error e => simp [decodeCommand, performDecoded, rejectCommand, rejectI2cm, hb, State.respond, State.setI2cm]
  · rw [performAccess, hwrite, decodeRegWrite]
    cases hd : decodeFlc w with
    | ok i => exact absurd (validFlc_of_decodeFlc hd) hw
    | error e => simp [decodeCommand, performDecoded, rejectCommand, rejectFlc, hb, State.respond, State.setFlc]

/-! ### Acceptance and refusal -/

/-- The latched quantum is `max(delay, 1)` (40_bitio.md R141). -/
theorem dqOf_eq (delay : BitVec 16) : dqOf delay = BitVec.ofNat 17 (max delay.toNat 1) := by
  unfold dqOf
  split
  · next h => subst h; rfl
  · next h =>
    have hpos : 1 ≤ delay.toNat := Nat.pos_of_ne_zero fun h0 => h (BitVec.eq_of_toNat_eq h0)
    rw [max_eq_left hpos]

theorem dqOf_toNat (delay : BitVec 16) : (dqOf delay).toNat = max delay.toNat 1 := by
  have := delay.isLt
  rw [dqOf_eq, BitVec.toNat_ofNat, Nat.mod_eq_of_lt (by omega)]

/-- A command that an idle I2CM is issued is accepted (40_bitio.md R141). -/
theorem issueI2cm_idle (op : BitVec 4) (arg : Byte) (steps : List MicroOp) (cl : Bool) (s : State)
    (hb : s.i2cm.busy = false) :
    issueI2cm op arg steps cl s = acceptedI2cm op arg steps (s.i2cm.seqerr || (cl && s.i2cm.sclO)) s := by
  rw [issueI2cm, hb, acceptedI2cm, ← dqOf_eq]
  rfl

/-- Settles O8. -/
theorem clockLowCommandsAreAccepted : Obligations.ClockLowCommandsAreAccepted := by
  intro s hb
  have accept : ∀ op arg steps, Host.Outcome.next (issueI2cm op arg steps true s)
      = (.next (acceptedI2cm op arg steps (s.i2cm.seqerr || s.i2cm.sclO) s) : Host.Outcome State Fault Refusal) :=
    fun op arg steps => by rw [issueI2cm_idle op arg steps true s hb, Bool.true_and]
  exact ⟨accept opStop 0 stepsStop, fun b => accept opSendByte b (stepsSendByte b), accept opRecvByte 0 stepsRecvByte,
    fun a => accept opSendAck (bitArg a) (stepsSendAck a), accept opRecvAck 0 stepsRecvAck⟩

/-- A mutating command on an idle, locked FLC is refused with LOCKERR (60_exceptions.md R281). -/
theorem exec_mutating_locked {i : Instr} (hi : i ∈ mutatingCommands) (s : State) (hb : s.flc.busy = false)
    (hl : s.flc.locked = true) : exec i s = .next ((s.setFlc { s.flc with lockerr := true }).respond .written) := by
  obtain ⟨op, ok, pf, t, -, he⟩ := exec_mutating hi s
  simp [he, issueFlc, hb, hl]

/-- A mutating command whose address is refused sets ADDRERR on an idle, unlocked FLC (60_exceptions.md R281). -/
theorem issueFlc_addrRefused (op : BitVec 4) (pf : Bool) (t : Nat) (s : State) {ok : Bool} (hb : s.flc.busy = false)
    (hl : s.flc.locked = false) (ho : ¬ ok = true) :
    issueFlc op ok pf t s = (s.setFlc { s.flc with addrerr := true }).respond .written := by
  simp [issueFlc, hb, hl, ho]

theorem erasePageAddrOk_iff (p : Params) (a : Nat) : erasePageAddrOk p a = true ↔
    p.flashBase ≤ a ∧ a < p.flashBase + p.flashSize ∧ (a - p.flashBase) % p.pageSize = 0 := by
  simp [erasePageAddrOk, inWindow_iff, and_assoc]

theorem progHalfAddrOk_iff (p : Params) (a : Nat) : progHalfAddrOk p a = true ↔
    a % 2 = 0 ∧ p.flashBase ≤ a ∧ a + 2 ≤ p.flashBase + p.flashSize := by
  simp only [progHalfAddrOk, Bool.and_eq_true, beq_iff_eq, inWindow_iff]
  omega

theorem progWordAddrOk_iff (p : Params) (a : Nat) : progWordAddrOk p a = true ↔
    a % 4 = 0 ∧ p.flashBase ≤ a ∧ a + 4 ≤ p.flashBase + p.flashSize := by
  simp only [progWordAddrOk, Bool.and_eq_true, beq_iff_eq, inWindow_iff]
  omega

/-- Settles O25. -/
theorem mutatingCommandsAreRefusedInOrder : Obligations.MutatingCommandsAreRefusedInOrder := by
  intro s hb
  refine ⟨fun hl i hi => exec_mutating_locked hi s hb hl, fun hl => ⟨fun ha => ?_, fun ha => ?_, fun ha => ?_⟩⟩
  · rw [← erasePageAddrOk_iff] at ha
    exact congrArg Host.Outcome.next (issueFlc_addrRefused _ _ _ s hb hl ha)
  · rw [← progHalfAddrOk_iff] at ha
    exact congrArg Host.Outcome.next (issueFlc_addrRefused _ _ _ s hb hl ha)
  · rw [← progWordAddrOk_iff] at ha
    exact congrArg Host.Outcome.next (issueFlc_addrRefused _ _ _ s hb hl ha)

/-! ### The registers -/

/-- The one bit of a field at position `k` of a register. -/
theorem getLsbD_flagBit (b : Bool) {k : Nat} (hk : k < 32) (n : Nat) :
    (flagBit b k).getLsbD n = (b && decide (n = k)) := by
  cases b with
  | false => simp [flagBit]
  | true =>
    have : flagBit true k = BitVec.twoPow 32 k := BitVec.eq_of_toNat_eq (by simp [flagBit, BitVec.toNat_twoPow])
    rw [this, BitVec.getLsbD_twoPow]
    simp [hk, eq_comm]

/-- Settles O41. -/
theorem statusRegistersHaveTheirFields : Obligations.StatusRegistersHaveTheirFields := by
  intro m f n
  simp only [i2cmStat, flcStat, BitVec.getLsbD_or, getLsbD_flagBit, Nat.reduceLT]
  constructor
  · split <;> simp_all
  · split <;> simp_all

theorem performAccess_readOf (s : State) (hp : s.par.ok = true) (r : Reg) :
    performAccess (readOf s.par r) s = .next (s.respond (.data .w32 (regValue r s))) := by
  rw [performAccess, decodeAccess_readOf _ ((Params.ok_iff _).1 hp)]
  rfl

/-- Settles O42. -/
theorem registerReadsHaveNoSideEffect : Obligations.RegisterReadsHaveNoSideEffect := by
  intro s hp r
  rw [performAccess_readOf s hp]
  cases r with
  | i2cmData => rw [regValue, i2cmData, BitVec.ofNat_toNat]
  | i2cmDelay => rw [regValue, i2cmDelay, BitVec.ofNat_toNat]
  | i2cmCmd | i2cmStat | flcCmd | flcAddr | flcData | flcStat => rfl

/-- The write of a register other than CMD. -/
theorem performAccess_writeOf (s : State) (hp : s.par.ok = true) {r : Reg} (v : Word)
    (hr : decodeRegWrite r v = .writeReg r v) :
    performAccess (writeOf s.par r v) s = .next (writeReg r v s) := by
  rw [performAccess, decodeAccess_writeOf _ ((Params.ok_iff _).1 hp), hr]
  rfl

/-- Writing 1 clears (10_state.md R51, R71). -/
theorem and_not_eq_ite (b c : Bool) : (b && !c) = if c then false else b := by
  cases c <;> simp

/-- Settles O43. -/
theorem statusWritesClearTheFlagsWrittenOne : Obligations.StatusWritesClearTheFlagsWrittenOne := by
  intro s v hp
  simp only [← and_not_eq_ite]
  exact ⟨performAccess_writeOf s hp v rfl, performAccess_writeOf s hp v rfl⟩

/-- Settles O44. -/
theorem otherRegisterWritesStoreTheirValue : Obligations.OtherRegisterWritesStoreTheirValue := by
  intro s v hp
  have hdelay : v.extractLsb' 0 16 = BitVec.ofNat 16 v.toNat := by
    rw [BitVec.ofNat_toNat, BitVec.setWidth_eq_extractLsb' (by omega)]
  rw [hdelay]
  exact ⟨performAccess_writeOf s hp v rfl, performAccess_writeOf s hp v rfl, performAccess_writeOf s hp v rfl,
    performAccess_writeOf s hp v rfl⟩

/-! ### Reset and the step -/

/-- Settles O49. -/
theorem resetTickLeavesTheResetValues : Obligations.ResetTickLeavesTheResetValues := by
  intro s hp hr
  obtain ⟨hpar, -, -, hi, hf, -, hu, hh⟩ := resetTick_fields s
  have hstep : step s = .next (resetTick s) := by rw [step, if_pos hp, tick, if_pos hr]
  refine ⟨resetTick s, hstep, hpar, hh, hi, hf, hu, fun hb => ?_⟩
  exact ⟨(resetTick_idle s hb).mem, (resetTick_idle s hb).draws⟩

/-- Settles O51: every part is a value of `State.reset`. -/
theorem resetRegistersReadTheirResetValues : Obligations.ResetRegistersReadTheirResetValues := by
  refine ⟨rfl, ?_, ?_, ?_, ?_, ?_, ?_, ?_, ?_, ?_⟩ <;> decide

/-- Settles O55: both units are idle, no byte is listed, and the pages are in order. -/
theorem resetStateIsGood : Obligations.ResetStateIsGood where
  params := by decide
  i2cm := ⟨nofun, nofun, nofun, nofun, nofun, fun _ => ⟨rfl, rfl⟩⟩
  flc := ⟨nofun, nofun, nofun, nofun, fun _ => rfl⟩
  memCanonical := rfl
  memInside := nofun
  unerasedSorted := List.pairwise_lt_range
  unerasedInside := fun _ hi => List.mem_range.1 hi

/-- A register write decodes to an instruction only as a command word (30_encoding.md R110). -/
theorem readAddr?_of_decodeRegWrite {r : Reg} {v : Word} {i : Instr} (h : decodeRegWrite r v = .instr i) :
    i.readAddr? = none := by
  cases r with
  | i2cmCmd =>
    rw [decodeRegWrite] at h
    cases hd : decodeI2cm v with
    | ok j =>
      rw [hd] at h
      injection h with h
      exact h ▸ (isI2cmCommand_of_decodeI2cm hd).1
    | error e => rw [hd] at h; cases h
  | flcCmd =>
    rw [decodeRegWrite] at h
    cases hd : decodeFlc v with
    | ok j =>
      rw [hd] at h
      injection h with h
      subst h
      obtain ⟨-, -, hi⟩ := decodeFlc_ok_cases hd
      have none_of_mem : ∀ i ∈ flcCommands, i.readAddr? = none := by decide
      exact none_of_mem j hi
    | error e => rw [hd] at h; cases h
  | i2cmStat | i2cmData | i2cmDelay | flcAddr | flcData | flcStat => cases h

/-- An access to a register block is performed, or is a fault. -/
theorem decodeRegAccess_instr {w : Width} {off : Nat} {d : Decoded} {i : Instr} (h : decodeRegAccess w off d = .instr i) :
    d = .instr i := by
  unfold decodeRegAccess at h
  cases w with
  | w8 | w16 => cases h
  | w32 =>
    dsimp only at h
    split at h
    · exact h
    · cases h

/-- An access that decodes to an instruction is one whose flash address, if it has one, is in the window. -/
theorem inRegion_of_decodeAccess {p : Params} {a : Access} {i : Instr} (h : decodeAccess p a = .instr i) :
    i.inRegion p = true := by
  cases a with
  | read w a =>
    obtain ⟨rfl, hw⟩ := decodeAccess_read_instr h
    cases w <;> exact hw
  | write w a v =>
    suffices hn : i.readAddr? = none by rw [Instr.inRegion, hn]
    rcases regionOf_cases p a.toNat with ⟨off, -, -, hr⟩ | ⟨off, -, -, hr⟩ | ⟨-, hr⟩ | ⟨-, hr⟩ <;>
      rw [decodeAccess, hr] at h
    · exact readAddr?_of_decodeRegWrite (decodeRegAccess_instr h)
    · exact readAddr?_of_decodeRegWrite (decodeRegAccess_instr h)
    · cases h
    · cases h

/-- An instruction whose flash address, if it has one, is in the window goes on. -/
theorem exec_next_of_inRegion {i : Instr} {s : State} (h : i.inRegion s.par = true) : ∃ t, exec i s = .next t := by
  rcases instr_cases_unit i with hi | hi | ⟨a, ha⟩
  · obtain ⟨op, arg, steps, cl, -, he⟩ := exec_i2cmCommand hi
    exact ⟨_, he s⟩
  · rcases (mem_flcCommands_iff i).1 hi with rfl | rfl | hi
    · exact ⟨_, rfl⟩
    · exact ⟨_, rfl⟩
    · obtain ⟨op, ok, pf, t, -, he⟩ := exec_mutating hi s
      exact ⟨_, he⟩
  · obtain ⟨w, n, he⟩ := exec_flashRead ha
    rw [Instr.inRegion, ha] at h
    rw [he, readFlash, if_pos h]
    split
    · split <;> exact ⟨_, rfl⟩
    · exact ⟨_, rfl⟩

/-- Settles O52. -/
theorem stepRunsTheDecodedInstruction : Obligations.StepRunsTheDecodedInstruction := by
  intro s a rest i hp hr hprog hd
  obtain ⟨t, ht⟩ := exec_next_of_inRegion (s := unitsTick s) (i := i)
    (by rw [unitsTick_par]; exact inRegion_of_decodeAccess hd)
  have haccess : performAccess a (unitsTick s) = .next t := by rw [performAccess, unitsTick_par, hd, performDecoded, ht]
  have hstep : step s = .next (retire (.access a) rest t) := by
    rw [step, if_pos hp, tick, if_neg (by rw [hr]; nofun), hostTurn, unitsTick_host, hprog]
    dsimp only
    rw [haccess, retireOutcome]
  refine ⟨t, ht, hstep.trans ?_⟩
  rw [retire]
  cases t.host.resp <;> rfl

end Sys2Proof.Machine

namespace Sys2Proof.Machine

/-! The erases and programs: what the FLC and the array are after the completion tick, whatever the host did meanwhile. -/

/-! ### The completion of an FLC command -/

theorem flcEffect_par (s : State) : (flcEffect s).par = s.par := by rw [flcEffect_frame]

/-- The completion tick: the unit finishes, and the array takes the command's effect (43_flash.md R221). -/
theorem unitsTick_flc_complete (s : State) (hb : s.flc.busy = true) (hr : s.flc.remaining ≤ 1) :
    (unitsTick s).flc = finishFlc s.flc ∧ ∀ a, (unitsTick s).byteAt a = (flcEffect s).byteAt a := by
  unfold unitsTick
  generalize hx : ({ s with
      now := s.now + 1, env := s.env.tail, sclP := (s.envAt 0).sclP, sdaP := (s.envAt 0).sdaP
      i2cm := i2cmTick (s.envAt 0).sdaP s.i2cm } : State) = x
  have hpar : x.par = s.par := by rw [← hx]
  have hf : x.flc = s.flc := by rw [← hx]
  have heffect : SameArray (flcEffect s) (flcEffect x) :=
    flcEffect_congr hpar (by rw [hf]) (by rw [hf]) (by rw [hf]) (by rw [hf]) (by rw [← hx]; exact ⟨rfl, rfl, rfl⟩)
  have hpar' : ((flcEffect x).setFlc (finishFlc x.flc)).par = (flcEffect s).par := by
    rw [State.setFlc_par, flcEffect_par, flcEffect_par, hpar]
  rcases flcTick_cases x with ⟨h, -⟩ | ⟨-, h, -⟩ | ⟨-, -, h⟩
  · rw [hf, hb] at h; cases h
  · rw [hf] at h; omega
  · rw [h]
    exact ⟨by rw [State.setFlc_flc, hf], State.byteAt_congr hpar' ⟨heffect.mem, heffect.unerased, heffect.draws⟩⟩

/-- The FLC `n + 1` ticks before its completion, which is not reset: the command completes with the effect that it has on the
array of now (43_flash.md R221). -/
theorem runs_flc_complete {n : Nat} {s t : State} (hb : s.flc.busy = true) (hn : s.flc.remaining = n + 1)
    (hr : s.noResetFor n) (h : Runs n s t) :
    (unitsTick t).flc = finishFlc t.flc ∧ t.flc.pgFail = s.flc.pgFail
      ∧ ∀ a, (unitsTick t).byteAt a = (flcEffect s).byteAt a := by
  obtain ⟨hbusy, -, hop, haddr, hdata, hfail, hrem, hmem, hun, hdraws⟩ := runs_flc hb (by omega) hr h
  obtain ⟨hfinish, hbytes⟩ := unitsTick_flc_complete t hbusy (by omega)
  have heffect := flcEffect_congr (runs_par h) hop haddr hdata hfail ⟨hmem, hun, hdraws⟩
  have hpar : (flcEffect t).par = (flcEffect s).par := by rw [flcEffect_par, flcEffect_par, runs_par h]
  exact ⟨hfinish, hfail, fun a => (hbytes a).trans (State.byteAt_congr hpar heffect a)⟩

/-- What the statements about one command leave to prove: that it is accepted where its check passes, and what its effect on
the array is. The machine `s` after the acceptance has latched the operation, the address and the data. -/
theorem FlcCompletesWith.of_effect {i : Instr} {ok : State → Prop} {dur : Params → Nat}
    {post : State → State → State → Prop} (op : BitVec 4) (pf : Bool)
    (haccept : ∀ s, s.flc.busy = false → s.flc.locked = false → ok s →
      exec i s = .next ((s.setFlc (acceptFlc op pf (dur s.par) s.flc)).respond .written))
    (hdur : ∀ p : Params, p.Ok → 1 ≤ dur p)
    (hpost : ∀ s₀ s t u : State, ok s₀ → s.par = s₀.par → s.flc = acceptFlc op pf (dur s₀.par) s₀.flc →
      Memory.wf s.unlisted s.mem = true → u.flc.pgerr = (t.flc.pgerr || pf) → u.flc.eop = (t.flc.eop || !pf) →
      (∀ a, u.byteAt a = (flcEffect s).byteAt a) → post s t u) :
    FlcCompletesWith i ok dur post := by
  intro s₀ s₁ s t hp hb hl hok hexec hpar hflc _ _ hwf hr hrun
  obtain rfl : (s₀.setFlc (acceptFlc op pf (dur s₀.par) s₀.flc)).respond .written = s₁ := by
    simpa [haccept s₀ hb hl hok] using hexec
  have hpar : s.par = s₀.par := hpar
  have hflc : s.flc = acceptFlc op pf (dur s₀.par) s₀.flc := hflc
  have hpos := hdur _ ((Params.ok_iff _).1 hp)
  rw [← hpar] at hpos
  obtain ⟨hfinish, hfail, hbytes⟩ := runs_flc_complete (n := dur s.par - 1) (by rw [hflc]; rfl)
    (by rw [hflc, ← hpar]; show dur s.par = _; omega) hr hrun
  have hfail : t.flc.pgFail = pf := by rw [hfail, hflc]; rfl
  refine ⟨by rw [hfinish]; rfl, hpost s₀ s t _ hok hpar hflc hwf ?_ ?_ hbytes⟩
  · rw [hfinish, finishFlc, hfail]
  · rw [hfinish, finishFlc, hfail]

/-- A mutating command that an idle, unlocked FLC does not refuse (43_flash.md R210). -/
theorem issueFlc_accepted (op : BitVec 4) {ok pf pf' : Bool} (t : Nat) (s : State) (hb : s.flc.busy = false)
    (hl : s.flc.locked = false) (ho : ok = true) (hpf : pf = pf') :
    issueFlc op ok pf t s = (s.setFlc (acceptFlc op pf' t s.flc)).respond .written := by
  simp [issueFlc, hb, hl, ho, hpf]

/-- The first byte of the page that a page's first byte lies in is that byte. -/
theorem pageStart_pageOf (p : Params) {a : Nat} (h : erasePageAddrOk p a = true) : pageStart p (pageOf p a) = a := by
  obtain ⟨hbase, -, hmod⟩ := (erasePageAddrOk_iff p a).1 h
  rw [pageStart, pageOf, Nat.div_mul_cancel (Nat.dvd_of_mod_eq_zero hmod)]
  omega

/-! The effect of each command on the bytes of the array (43_flash.md R216 to R219). -/

theorem byteAt_flcEffect_erasePage (s : State) (ho : s.flc.curOp = opErasePage)
    (ha : erasePageAddrOk s.par s.flc.curAddr.toNat = true) (a : Nat) :
    (flcEffect s).byteAt a = if s.flc.curAddr.toNat ≤ a ∧ a < s.flc.curAddr.toNat + s.par.pageSize
      then s.par.erasedByte else s.byteAt a := by
  rw [flcEffect, if_pos ho, effectErasePage, targetErasePage, State.byteAt_eraseRange s (page_whole s.par _),
    pageStart_pageOf s.par ha]

theorem byteAt_flcEffect_eraseAll (s : State) (ho : s.flc.curOp = opEraseAll) (a : Nat) :
    (flcEffect s).byteAt a = if inWindow s.par a = true then s.par.erasedByte else s.byteAt a := by
  have heffect : flcEffect s = effectEraseAll s := by simp [flcEffect, ho, opEraseAll, opErasePage]
  rw [heffect, effectEraseAll, targetEraseAll, State.byteAt_eraseRange s (window_whole s.par),
    if_congr (inWindow_iff ..).symm rfl rfl]

theorem flcEffect_progHalf (s : State) (ho : s.flc.curOp = opProgHalf) : flcEffect s = effectProgHalf s := by
  simp [flcEffect, ho, opErasePage, opEraseAll, opProgHalf]

theorem flcEffect_progWord (s : State) (ho : s.flc.curOp = opProgWord) : flcEffect s = effectProgWord s := by
  simp [flcEffect, ho, opErasePage, opEraseAll, opProgHalf, opProgWord]

theorem flcTarget_progHalf (s : State) (ho : s.flc.curOp = opProgHalf) : flcTarget s = (s.flc.curAddr.toNat, 2) := by
  simp [flcTarget, ho, opErasePage, opEraseAll, opProgHalf, targetProgHalf]

theorem flcTarget_progWord (s : State) (ho : s.flc.curOp = opProgWord) : flcTarget s = (s.flc.curAddr.toNat, 4) := by
  simp [flcTarget, ho, opErasePage, opEraseAll, opProgHalf, opProgWord, targetProgWord]

/-- Settles O26. -/
theorem erasePageErasesThatPageOnly : Obligations.ErasePageErasesThatPageOnly := by
  refine .of_effect opErasePage false (fun s hb hl hok => ?_) (fun p hp => hp.erasePagePos)
    fun s₀ s t u hok hpar hflc _ hpgerr heop hbytes => ?_
  · exact congrArg Host.Outcome.next (issueFlc_accepted _ _ s hb hl hok rfl)
  · have hbyte := fun a => (hbytes a).trans
      (byteAt_flcEffect_erasePage s (by rw [hflc]; rfl) (by rw [hpar, hflc]; exact hok) a)
    refine ⟨by simpa using heop, by simpa using hpgerr, fun a h1 h2 => ?_, fun a ha => ?_⟩
    · rw [hbyte, if_pos ⟨h1, h2⟩]
    · rw [hbyte, if_neg (by omega)]

/-- Settles O27. -/
theorem eraseAllErasesTheWindow : Obligations.EraseAllErasesTheWindow := by
  refine .of_effect opEraseAll false (fun s hb hl _ => ?_) (fun p hp => hp.eraseAllPos)
    fun s₀ s t u _ _ hflc _ hpgerr heop hbytes => ?_
  · exact congrArg Host.Outcome.next (issueFlc_accepted _ _ s hb hl rfl rfl)
  · have hbyte := fun a => (hbytes a).trans (byteAt_flcEffect_eraseAll s (by rw [hflc]; rfl) a)
    refine ⟨by simpa using heop, by simpa using hpgerr, fun a ha => ?_, fun a ha => ?_⟩
    · rw [hbyte, if_pos ha]
    · rw [hbyte, if_neg (by rw [ha]; nofun)]

/-- Byte `i` of the number that a program writes is that byte of the word. -/
theorem ofNat_div_eq_extractLsb' (v : Word) (x i : Nat) (h : x / 2 ^ (8 * i) % 256 = v.toNat / 2 ^ (8 * i) % 256) :
    BitVec.ofNat 8 (x / 256 ^ i) = v.extractLsb' (8 * i) 8 := by
  apply BitVec.eq_of_toNat_eq
  rw [BitVec.extractLsb'_toNat, BitVec.toNat_ofNat, Nat.shiftRight_eq_div_pow, show 256 = 2 ^ 8 from rfl, ← Nat.pow_mul]
  exact h

/-- Settles O28. -/
theorem progHalfWritesTheHalfword : Obligations.ProgHalfWritesTheHalfword := by
  refine .of_effect opProgHalf false (fun s hb hl hok => ?_) (fun p hp => hp.progHalfPos)
    fun s₀ s t u hok hpar hflc hwf hpgerr heop hbytes => ?_
  · obtain ⟨haddr, herased⟩ := hok
    exact congrArg Host.Outcome.next (issueFlc_accepted _ _ s hb hl haddr (by rw [herased]; rfl))
  · have heffect : flcEffect s = s.writeFlash 2 s.flc.curAddr.toNat (progHalfValue s.flc.curData) := by
      rw [flcEffect_progHalf s (by rw [hflc]; rfl), effectProgHalf, if_neg (by rw [hflc]; nofun)]
      rfl
    have hbyte : ∀ a, u.byteAt a = _ := fun a =>
      (hbytes a).trans ((congrArg (·.byteAt a) heffect).trans (State.byteAt_writeFlash s _ _ _ hwf a))
    refine ⟨by simpa using heop, by simpa using hpgerr, ?_, ?_, fun a ha => ?_⟩
    · rw [hbyte, if_pos (by omega), Nat.sub_self]
      exact ofNat_div_eq_extractLsb' _ _ 0 (by simp only [progHalfValue]; omega)
    · rw [hbyte, if_pos (by omega), Nat.add_sub_cancel_left]
      exact ofNat_div_eq_extractLsb' _ _ 1 (by simp only [progHalfValue]; omega)
    · rw [hbyte, if_neg (by omega)]

/-- Settles O29. -/
theorem progWordWritesTheWord : Obligations.ProgWordWritesTheWord := by
  refine .of_effect opProgWord false (fun s hb hl hok => ?_) (fun p hp => hp.progWordPos)
    fun s₀ s t u hok hpar hflc hwf hpgerr heop hbytes => ?_
  · obtain ⟨haddr, herased⟩ := hok
    exact congrArg Host.Outcome.next (issueFlc_accepted _ _ s hb hl haddr (by rw [herased]; rfl))
  · have heffect : flcEffect s = s.writeFlash 4 s.flc.curAddr.toNat s.flc.curData.toNat := by
      rw [flcEffect_progWord s (by rw [hflc]; rfl), effectProgWord, if_neg (by rw [hflc]; nofun)]
      rfl
    have hbyte : ∀ a, u.byteAt a = _ := fun a =>
      (hbytes a).trans ((congrArg (·.byteAt a) heffect).trans (State.byteAt_writeFlash s _ _ _ hwf a))
    have hword : ∀ i, i < 4 → u.byteAt (s.flc.curAddr.toNat + i) = s.flc.curData.extractLsb' (8 * i) 8 := fun i hi => by
      rw [hbyte, if_pos (by omega), Nat.add_sub_cancel_left]
      exact ofNat_div_eq_extractLsb' _ _ i rfl
    refine ⟨by simpa using heop, by simpa using hpgerr, hword 0 (by omega), hword 1 (by omega), hword 2 (by omega),
      hword 3 (by omega), fun a ha => ?_⟩
    rw [hbyte, if_neg (by omega)]

/-- Settles O30: the draws are in the target, and a program with `pg_fail` sets PGERR and not EOP. -/
theorem programOfAnUnerasedTargetSetsPgerr : Obligations.ProgramOfAnUnerasedTargetSetsPgerr := by
  constructor
  · refine .of_effect opProgHalf true (fun s hb hl hok => ?_) (fun p hp => hp.progHalfPos)
      fun s₀ s t u _ _ hflc hwf hpgerr heop hbytes => ?_
    · obtain ⟨haddr, herased⟩ := hok
      exact congrArg Host.Outcome.next (issueFlc_accepted _ _ s hb hl haddr (by rw [herased]; rfl))
    · have htarget := flcTarget_progHalf s (by rw [hflc]; rfl)
      refine ⟨by simpa using hpgerr, by simpa using heop, fun a ha => ?_⟩
      rw [hbytes, flcEffect_outside s hwf a (by rw [htarget]; exact ha)]
  · refine .of_effect opProgWord true (fun s hb hl hok => ?_) (fun p hp => hp.progWordPos)
      fun s₀ s t u _ _ hflc hwf hpgerr heop hbytes => ?_
    · obtain ⟨haddr, herased⟩ := hok
      exact congrArg Host.Outcome.next (issueFlc_accepted _ _ s hb hl haddr (by rw [herased]; rfl))
    · have htarget := flcTarget_progWord s (by rw [hflc]; rfl)
      refine ⟨by simpa using hpgerr, by simpa using heop, fun a ha => ?_⟩
      rw [hbytes, flcEffect_outside s hwf a (by rw [htarget]; exact ha)]

end Sys2Proof.Machine

namespace Sys2Proof.Machine

/-! The I2CM over many ticks: what a completed command leaves, and that the peer's drive of SCL is read by nothing. -/

/-! ### The completion of an I2CM command -/

/-- A unit that has just accepted a command of which nothing is performed yet (40_bitio.md R141). -/
theorem fresh_acceptI2cm (op : BitVec 4) (arg : Byte) (steps : List MicroOp) (cl : Bool) (m : I2cm) :
    I2cm.Fresh (acceptI2cm op arg steps cl m) :=
  ⟨rfl, rfl, rfl, by rw [acceptI2cm, dqOf_toNat]; exact le_max_right ..⟩

/-- The unit in the tick of its last countdown: every micro-step is performed (40_bitio.md R142). -/
theorem i2cmAfter_all (ds : Nat → Bool) (m : I2cm) (hm : I2cm.Fresh m) (hpos : 0 < m.steps.length) :
    i2cmAfter ds m (m.steps.length * m.dq.toNat)
      = { performed m.steps ds m.dq.toNat m m.steps.length with k := m.steps.length, waitCnt := 1 } := by
  have hq := hm.quantum
  obtain ⟨n, hn⟩ : ∃ n, m.steps.length = n + 1 := ⟨_, (Nat.succ_pred_eq_of_pos hpos).symm⟩
  obtain ⟨p, hp⟩ : ∃ p, m.dq.toNat = p + 1 := ⟨_, (Nat.succ_pred_eq_of_pos hq).symm⟩
  have hticks : m.steps.length * m.dq.toNat = (p + m.dq.toNat * n) + 1 := by rw [hn, hp]; ring
  have hdiv : (p + m.dq.toNat * n) / m.dq.toNat = n := by
    rw [Nat.add_mul_div_left _ _ hq, Nat.div_eq_of_lt (by omega), Nat.zero_add]
  have hmod : (p + m.dq.toNat * n) % m.dq.toNat = p := by
    rw [Nat.add_mul_mod_self_left, Nat.mod_eq_of_lt (by omega)]
  have hwait : m.dq.toNat - p = 1 := by omega
  rw [hticks, i2cmAfter, hdiv, hmod, hwait, hn]

/-- The unit when all quanta of its command have passed: every micro-step is performed, and the next tick completes the
command (40_bitio.md R142). -/
theorem runs_i2cm_complete {s t : State} (hm : I2cm.Fresh s.i2cm) (hpos : 0 < s.i2cm.steps.length)
    (hr : s.noResetFor (s.i2cm.steps.length * s.i2cm.dq.toNat)) (h : Runs (s.i2cm.steps.length * s.i2cm.dq.toNat) s t) :
    t.i2cm.view
        = { performed s.i2cm.steps (fun j => (s.envAt j).sdaP) s.i2cm.dq.toNat s.i2cm s.i2cm.steps.length with
            k := s.i2cm.steps.length, waitCnt := 1 }.view
      ∧ (unitsTick t).i2cm = { completeI2cm t.i2cm with busy := false, k := 0, waitCnt := 0 } := by
  have hview := runs_i2cm hm (le_refl _) hr h
  rw [i2cmAfter_all _ _ hm hpos] at hview
  refine ⟨hview, ?_⟩
  obtain ⟨-, -, hbusy, -, -, hsteps, hk, -, hwait, -⟩ := (I2cm.view_eq_iff _ _).1 hview
  obtain ⟨fbusy, -, -, fsteps, -⟩ := performed_frame s.i2cm.steps (fun j => (s.envAt j).sdaP) s.i2cm.dq.toNat s.i2cm
    s.i2cm.steps.length
  have hdone : t.i2cm.steps[t.i2cm.k]? = none := by
    rw [hsteps, hk]
    exact List.getElem?_eq_none (by rw [fsteps])
  have hdue : t.i2cm.waitCnt - 1 = 0 := by rw [show t.i2cm.waitCnt = 1 from hwait]
  rw [unitsTick_i2cm, i2cmTick, if_pos (hbusy.trans (fbusy.trans hm.busy)), if_pos hdue, hdone]

/-- What the statements about one command leave to prove: that it is issued with its micro-steps, and what they and its
completion leave. The unit of `s` is the one right after the acceptance. -/
theorem CompletesWith.of_performed {i : Instr} {n : Nat} {post : Nat → State → State → I2cm → Prop} (op : BitVec 4)
    (arg : Byte) (steps : List MicroOp) (cl : Bool) (hn : steps.length = n) (hpos : 0 < n)
    (hexec : ∀ s, exec i s = .next (issueI2cm op arg steps cl s))
    (hpost : ∀ q s t, s.i2cm.curOp = op →
      t.i2cm.view = { performed steps (fun j => (s.envAt j).sdaP) q s.i2cm n with k := n, waitCnt := 1 }.view →
      ((t.i2cm.nackf = true → s.i2cm.nackf = true) ∧ (t.i2cm.cmderr = true → s.i2cm.cmderr = true)
        ∧ (t.i2cm.seqerr = true → s.i2cm.seqerr = true)) →
      post q s t { completeI2cm t.i2cm with busy := false, k := 0, waitCnt := 0 }) :
    CompletesWith i n post := by
  intro s₀ s₁ s t hb hex hs hr hrun
  obtain rfl : issueI2cm op arg steps cl s₀ = s₁ := by simpa [hexec] using hex
  have hs : s.i2cm = acceptI2cm op arg steps cl s₀.i2cm := by
    rw [hs, issueI2cm_i2cm, if_neg (by rw [hb]; nofun)]
  have hm : I2cm.Fresh s.i2cm := by rw [hs]; exact fresh_acceptI2cm ..
  have hdq : s.i2cm.dq.toNat = max s₀.i2cm.delay.toNat 1 := by rw [hs]; exact dqOf_toNat _
  have hsteps : s.i2cm.steps = steps := by rw [hs]; rfl
  rw [← hdq, ← hn, ← hsteps] at hr hrun
  obtain ⟨hview, hunit⟩ := runs_i2cm_complete hm (by rw [hsteps, hn]; exact hpos) hr hrun
  rw [hsteps, hn] at hview
  rw [hunit, ← hdq]
  exact ⟨rfl, hpost _ s t (by rw [hs]; rfl) hview (runs_i2cm_sticky hm (le_refl _) hr hrun)⟩

/-- The micro-steps of RECV_ACK leave the clock low, SDA released, and the sample of the peer's drive in SDA_IN and in the
accumulator (41_i2c_protocol.md R167). -/
theorem performed_recvAck (ds : Nat → Bool) (q : Nat) (m : I2cm) :
    performed stepsRecvAck ds q m 4 = { m with
      sclO := false, sdaO := true, sdaIn := ds (2 * q), acc := sampleAcc .ackbit (ds (2 * q)) m.acc } := rfl

theorem getLsbD_sampleAcc_ackbit (b : Bool) (acc : Byte) : (sampleAcc .ackbit b acc).getLsbD 0 = b := by
  cases b <;> simp [sampleAcc]

theorem completeI2cm_recvAck (m : I2cm) (ho : m.curOp = opRecvAck) : completeI2cm m = completeRecvAck m := by
  simp [completeI2cm, ho, opInit, opStart, opStop, opRecvByte, opRecvAck]

/-- Settles O14. -/
theorem recvAckRecordsTheAcknowledge : Obligations.RecvAckRecordsTheAcknowledge := by
  refine .of_performed opRecvAck 0 stepsRecvAck true rfl (by omega) (fun s => rfl) fun q s t hop hview hsticky => ?_
  rw [performed_recvAck] at hview
  obtain ⟨hscl, hsda, -, hcur, -, -, -, -, -, hacc, howned, hrx, hin, -⟩ := (I2cm.view_eq_iff _ _).1 hview
  rw [completeI2cm_recvAck t.i2cm (hcur.trans hop)]
  have hsample : t.i2cm.acc.getLsbD 0 = (s.envAt (2 * q)).sdaP := by rw [hacc]; exact getLsbD_sampleAcc_ackbit _ _
  obtain ⟨hnackf, hcmderr, hseqerr⟩ := hsticky
  exact ⟨hsample, congrArg (t.i2cm.nackf || ·) hsample, hin, hscl, hsda, howned, hrx, ⟨rfl, rfl, rfl, rfl, rfl⟩, hnackf,
    hcmderr, hseqerr⟩

/-! ### What the peer does to SCL -/

/-- The machine with another history and future of the peer's SCL drive. -/
def State.withScl (env : List EnvTick) (sclP : Bool) (s : State) : State := { s with env := env, sclP := sclP }

/-- The next state of an outcome, changed by `g`. -/
def mapNext (g : State → State) (o : Host.Outcome State Fault Refusal) : Host.Outcome State Fault Refusal :=
  match o with
  | .next s => .next (g s)
  | .fault r => .fault r
  | .refused r => .refused r

@[simp] theorem State.withScl_par (e : List EnvTick) (p : Bool) (s : State) : (s.withScl e p).par = s.par := rfl
@[simp] theorem State.withScl_host (e : List EnvTick) (p : Bool) (s : State) : (s.withScl e p).host = s.host := rfl

/-- What of a tick's environment is not the peer's drive of SCL. -/
def envButScl (t : EnvTick) : Bool × Bool := (t.reset, t.sdaP)

/-- A machine that differs in what the peer does to SCL is the machine with that changed. -/
theorem sameButScl_iff (s s' : State) : SameButScl s s' ↔
    s' = s.withScl s'.env s'.sclP ∧ s'.env.map envButScl = s.env.map envButScl := by
  constructor
  · rintro ⟨h1, h2, h3, h4, h5, h6, h7, h8, h9, h10⟩
    refine ⟨?_, h3⟩
    cases s'
    simp_all [State.withScl]
  · rintro ⟨h, he⟩
    rw [h] at he ⊢
    exact ⟨rfl, rfl, he, rfl, rfl, rfl, rfl, rfl, rfl, rfl⟩

/-- Such machines agree on reset and on the peer's drive of SDA in every tick to come. -/
theorem envAt_withScl {e : List EnvTick} {s : State} (he : e.map envButScl = s.env.map envButScl) (p : Bool)
    (j : Nat) : envButScl ((s.withScl e p).envAt j) = envButScl (s.envAt j) := by
  have hj : e[j]?.map envButScl = s.env[j]?.map envButScl := by
    rw [← List.getElem?_map, ← List.getElem?_map, he]
  unfold State.envAt
  rw [show (s.withScl e p).env = e from rfl, show (s.withScl e p).now = s.now from rfl]
  cases h : e[j]? with
  | none =>
    rw [h, Option.map_none] at hj
    rw [Option.map_eq_none_iff.1 hj.symm]
  | some x =>
    rw [h, Option.map_some] at hj
    obtain ⟨y, hy, hxy⟩ := Option.map_eq_some_iff.1 hj.symm
    rw [hy]
    exact hxy.symm

/-! No operation reads or writes the drive of SCL: each commutes with a change of it. -/

theorem readFlash_withScl (w : Width) (n : Nat) (a : Word) (e : List EnvTick) (p : Bool) (s : State) :
    readFlash w n a (s.withScl e p) = mapNext (State.withScl e p) (readFlash w n a s) := by
  simp only [readFlash, apply_ite (mapNext (State.withScl e p))]
  rfl

theorem exec_withScl (i : Instr) (e : List EnvTick) (p : Bool) (s : State) :
    exec i (s.withScl e p) = mapNext (State.withScl e p) (exec i s) := by
  cases i with
  | i2cInit | i2cStart | i2cStop | i2cSendb | i2cRecvb | i2cSack | i2cRack | i2cWscl | i2cWsda | i2cRsda => rfl
  | flcUnlock | flcLock | flcErasep | flcErasea | flcProgh | flcProgw => rfl
  | rdB a | rdH a | rdW a => exact readFlash_withScl _ _ a e p s

theorem performAccess_withScl (a : Access) (e : List EnvTick) (p : Bool) (s : State) :
    performAccess a (s.withScl e p) = mapNext (State.withScl e p) (performAccess a s) := by
  rw [performAccess, performAccess, State.withScl_par]
  cases decodeAccess s.par a with
  | instr i => exact exec_withScl i e p s
  | badCommand u err => cases u <;> rfl
  | readReg r => cases r <;> rfl
  | writeReg r v => cases r <;> rfl
  | fault c => rfl
  | outside => rfl

theorem retireOutcome_mapNext (line : HostOp) (rest : List HostOp) (e : List EnvTick) (p : Bool)
    (o : Host.Outcome State Fault Refusal) :
    retireOutcome line rest (mapNext (State.withScl e p) o) = mapNext (State.withScl e p) (retireOutcome line rest o) := by
  cases o <;> rfl

theorem hostTurn_withScl (e : List EnvTick) (p : Bool) (s : State) :
    hostTurn (s.withScl e p) = mapNext (State.withScl e p) (hostTurn s) := by
  rw [hostTurn, hostTurn, State.withScl_host]
  cases s.host.prog with
  | nil => rfl
  | cons line rest =>
    cases line with
    | idle => rfl
    | access a => dsimp only; rw [performAccess_withScl, retireOutcome_mapNext]
    | poll addr mask want => dsimp only; rw [performAccess_withScl, retireOutcome_mapNext]

theorem flcEffect_withScl (e : List EnvTick) (p : Bool) (s : State) :
    flcEffect (s.withScl e p) = (flcEffect s).withScl e p := by
  simp only [flcEffect, effectProgHalf, effectProgWord, apply_ite (State.withScl e p)]
  rfl

theorem flcTick_withScl (e : List EnvTick) (p : Bool) (s : State) :
    flcTick (s.withScl e p) = (flcTick s).withScl e p := by
  simp only [flcTick, flcEffect_withScl, apply_ite (State.withScl e p)]
  rfl

theorem unitsTick_withScl {e : List EnvTick} {s : State} (he : e.map envButScl = s.env.map envButScl)
    (p : Bool) : unitsTick (s.withScl e p) = (unitsTick s).withScl e.tail ((s.withScl e p).envAt 0).sclP := by
  have hsda : ((s.withScl e p).envAt 0).sdaP = (s.envAt 0).sdaP := congrArg Prod.snd (envAt_withScl he p 0)
  rw [unitsTick, unitsTick, ← flcTick_withScl, hsda]
  rfl

theorem resetTick_withScl (e : List EnvTick) (p : Bool) (s : State) :
    resetTick (s.withScl e p) = (resetTick s).withScl e.tail p := by
  have hflash : resetFlash (s.withScl e p) = (resetFlash s).withScl e p := by
    simp only [resetFlash, apply_ite (State.withScl e p)]
    rfl
  rw [resetTick, hflash]
  rfl

/-- A step uses up one tick of the environment. -/
theorem step_env {s t : State} (h : step s = .next t) : t.env = s.env.tail := by
  rcases (step_cases h).2 with ⟨-, rfl⟩ | ⟨-, -, hs⟩
  · obtain ⟨-, -, henv, -⟩ := resetTick_fields s
    exact henv
  · obtain ⟨-, -, henv, -⟩ := unitsTick_frame s
    exact hs.env.trans henv

/-- One step of two machines that differ in what the peer does to SCL. -/
theorem SameButScl.step {s s' t : State} (h : SameButScl s s') (hs : Machine.step s = .next t) :
    ∃ t', Machine.step s' = .next t' ∧ SameButScl t t' := by
  obtain ⟨heq, he⟩ := (sameButScl_iff s s').1 h
  suffices hnext : ∃ p, Machine.step s' = .next (t.withScl s'.env.tail p) by
    obtain ⟨p, hp⟩ := hnext
    refine ⟨_, hp, (sameButScl_iff _ _).2 ⟨rfl, ?_⟩⟩
    rw [step_env hs]
    exact (List.map_tail ..).trans ((congrArg List.tail he).trans (List.map_tail ..).symm)
  generalize s'.env = e, s'.sclP = p at heq he ⊢
  subst heq
  have hreset : ((s.withScl e p).envAt 0).reset = (s.envAt 0).reset := congrArg Prod.fst (envAt_withScl he p 0)
  obtain ⟨hok, ⟨hr, rfl⟩ | ⟨hr, hturn, -⟩⟩ := step_cases hs
  · refine ⟨p, ?_⟩
    rw [Machine.step, State.withScl_par, if_pos hok, tick, if_pos (hreset.trans hr), resetTick_withScl]
  · refine ⟨((s.withScl e p).envAt 0).sclP, ?_⟩
    rw [Machine.step, State.withScl_par, if_pos hok, tick, if_neg (by rw [hreset, hr]; nofun), unitsTick_withScl he,
      hostTurn_withScl, hturn, mapNext]

/-- Settles O20, by induction on the number of ticks. -/
theorem peerClockStretchingChangesNothing : Obligations.PeerClockStretchingChangesNothing := by
  intro n
  induction n with
  | zero =>
    intro s s' t h hrun
    cases hrun
    exact ⟨s', rfl, h⟩
  | succ n ih =>
    intro s s' t h hrun
    obtain ⟨u, hu, hut⟩ := run_succ hrun
    obtain ⟨u', hu', hsame⟩ := h.step hu
    obtain ⟨t', ht', hsame'⟩ := ih u u' t hsame hut
    exact ⟨t', run_of_step hu' ht', hsame'⟩

end Sys2Proof.Machine

namespace Sys2Proof.Machine

/-! The host's accesses and the two units: that the units share nothing, what a flash read answers, when it stalls, which
accesses are bus faults, and which tick does not go on. -/

/-! ### The units apart -/

/-- The FLC engine acts on its own unit, the parameters and the array alone. -/
theorem flcTick_congr {s s' : State} (hf : s'.flc = s.flc) (hp : s'.par = s.par) (ha : SameArray s s') :
    (flcTick s').flc = (flcTick s).flc ∧ SameArray (flcTick s) (flcTick s') := by
  have heffect := flcEffect_congr hp (by rw [hf]) (by rw [hf]) (by rw [hf]) (by rw [hf]) ha
  unfold flcTick
  rw [hf]
  split
  · split
    · exact ⟨rfl, heffect.mem, heffect.unerased, heffect.draws⟩
    · exact ⟨rfl, ha.mem, ha.unerased, ha.draws⟩
  · exact ⟨hf, ha⟩

/-- A command of the FLC leaves the I2CM, and any other instruction leaves the FLC (20_memory.md R105). -/
theorem exec_keeps_other_unit {i : Instr} {s t : State} (h : exec i s = .next t) :
    (i ∈ flcCommands → t.i2cm = s.i2cm) ∧ (i ∉ flcCommands → t.flc = s.flc) := by
  rcases instr_cases_unit i with hi | hi | ⟨a, ha⟩
  · obtain ⟨op, arg, steps, cl, -, he⟩ := exec_i2cmCommand hi
    obtain rfl : issueI2cm op arg steps cl s = t := by simpa [he] using h
    exact ⟨fun hm => absurd hm hi.2, fun _ => rfl⟩
  · refine ⟨fun _ => ?_, fun hn => absurd hi hn⟩
    rcases (mem_flcCommands_iff i).1 hi with rfl | rfl | hi
    · injection h with h; subst h; rfl
    · injection h with h; subst h; rfl
    · obtain ⟨op, ok, pf, dur, -, he⟩ := exec_mutating hi s
      obtain rfl : issueFlc op ok pf dur s = t := by simpa [he] using h
      rfl
  · obtain ⟨w, n, he⟩ := exec_flashRead ha
    rcases (readFlash_next ((he s).symm.trans h)).2 with ⟨-, rfl⟩ | ⟨-, -, rfl⟩ | ⟨-, -, rfl⟩ <;>
      exact ⟨fun _ => rfl, fun _ => rfl⟩

/-- Settles O21. -/
theorem unitsShareNoState : Obligations.UnitsShareNoState := by
  refine ⟨fun s s' hi hd => ?_, fun s s' hf hp hm hu hd => ?_, fun i s t h => ?_⟩
  · rw [unitsTick_i2cm, unitsTick_i2cm, hi, hd]
  · unfold unitsTick
    obtain ⟨hflc, hmem, hunerased, hdraws⟩ := flcTick_congr
      (s := { s with
        now := s.now + 1, env := s.env.tail, sclP := (s.envAt 0).sclP, sdaP := (s.envAt 0).sdaP
        i2cm := i2cmTick (s.envAt 0).sdaP s.i2cm })
      (s' := { s' with
        now := s'.now + 1, env := s'.env.tail, sclP := (s'.envAt 0).sclP, sdaP := (s'.envAt 0).sdaP
        i2cm := i2cmTick (s'.envAt 0).sdaP s'.i2cm }) hf hp ⟨hm, hu, hd⟩
    exact ⟨hflc, hmem, hunerased, hdraws⟩
  · have hs := HostStep.of_exec h
    obtain ⟨hflc, hother⟩ := exec_keeps_other_unit h
    exact ⟨hs.mem, hs.unerased, hs.draws, hs.par, (em (i ∈ flcCommands)).imp hflc hother, hflc, hother⟩

/-! ### Flash reads -/

/-- A flash read is `readFlash` of the bytes of its width (30_encoding.md R117). -/
theorem exec_flashRead_width (w : Width) (a : Word) (s : State) :
    exec (flashRead w a) s = readFlash w (widthBytes w) a s := by
  cases w <;> rfl

/-- What an aligned read of the window answers (43_flash.md R211, R212, R213, 20_memory.md R96). -/
def flashAnswer (w : Width) (a : Word) (s : State) : HostResp :=
  if s.flc.busy then .stalled else .data w (BitVec.ofNat 32 (s.readBytes (widthBytes w) a.toNat))

theorem flashAnswer_busy (w : Width) (a : Word) {s : State} (hb : s.flc.busy = true) : flashAnswer w a s = .stalled :=
  if_pos hb

theorem flashAnswer_idle (w : Width) (a : Word) {s : State} (hb : s.flc.busy = false) :
    flashAnswer w a s = .data w (BitVec.ofNat 32 (s.readBytes (widthBytes w) a.toNat)) :=
  if_neg (by rw [hb]; nofun)

theorem exec_flashRead_aligned (w : Width) (a : Word) (s : State) (hw : inWindow s.par a.toNat = true)
    (ha : a.toNat % widthBytes w = 0) : exec (flashRead w a) s = .next (s.respond (flashAnswer w a s)) := by
  rw [exec_flashRead_width, readFlash, if_pos hw, if_pos ha, flashAnswer]
  split <;> rfl

theorem exec_flashRead_misaligned (w : Width) (a : Word) (s : State) (hw : inWindow s.par a.toNat = true)
    (ha : a.toNat % widthBytes w ≠ 0) : exec (flashRead w a) s = .next (s.respond (.fault .align)) := by
  rw [exec_flashRead_width, readFlash, if_pos hw, if_neg ha, takeBusFault]

theorem exec_flashRead_outside (w : Width) (a : Word) (s : State) (hw : inWindow s.par a.toNat = false) :
    exec (flashRead w a) s = .refused .outsidePeriph := by
  rw [exec_flashRead_width, readFlash, if_neg (by rw [hw]; nofun)]

/-- Every address is a multiple of one byte. -/
theorem widthBytes_w8_aligned (a : Nat) : a % widthBytes .w8 = 0 := Nat.mod_one a

/-- Settles O36. -/
theorem flashReadsFaultStallOrAreRefused : Obligations.FlashReadsFaultStallOrAreRefused := by
  intro s a
  refine ⟨fun hw => ⟨fun ha => exec_flashRead_misaligned .w16 a s hw ha,
    fun ha => exec_flashRead_misaligned .w32 a s hw ha, fun hb => ?_⟩, fun hw => ?_⟩
  · have stall : ∀ w, a.toNat % widthBytes w = 0 → exec (flashRead w a) s = .next (s.respond .stalled) := fun w ha =>
      flashAnswer_busy w a hb ▸ exec_flashRead_aligned w a s hw ha
    exact ⟨stall .w8 (widthBytes_w8_aligned _), stall .w16, stall .w32⟩
  · exact ⟨exec_flashRead_outside .w8 a s hw, exec_flashRead_outside .w16 a s hw, exec_flashRead_outside .w32 a s hw⟩

/-- `MemRead`, by its first byte: the least significant one (20_memory.md R86). -/
theorem State.readBytes_succ (s : State) (n a : Nat) :
    s.readBytes (n + 1) a = (s.byteAt a).toNat + 256 * s.readBytes n (a + 1) := rfl

theorem State.readBytes_lt (s : State) (n a : Nat) : s.readBytes n a < 2 ^ (8 * n) := by
  induction n generalizing a with
  | zero => exact Nat.one_pos
  | succ n ih =>
    have hbyte := (s.byteAt a).isLt
    have hrest := ih (a + 1)
    rw [State.readBytes_succ, Nat.mul_succ, Nat.pow_add]
    omega

/-- The bits of `MemRead` are the bytes, little-endian. -/
theorem State.ofNat_readBytes_succ (s : State) (k n a : Nat) :
    BitVec.ofNat (k + 8) (s.readBytes (n + 1) a) = BitVec.ofNat k (s.readBytes n (a + 1)) ++ s.byteAt a := by
  have hbyte := (s.byteAt a).isLt
  have hlow : ((s.byteAt a).toNat + 256 * s.readBytes n (a + 1)) % 2 ^ 8 = (s.byteAt a).toNat := by omega
  have hhigh : ((s.byteAt a).toNat + 256 * s.readBytes n (a + 1)) / 2 ^ 8 = s.readBytes n (a + 1) := by omega
  apply BitVec.eq_of_toNat_eq
  rw [BitVec.toNat_append, ← Nat.shiftLeft_add_eq_or_of_lt hbyte, Nat.shiftLeft_eq, State.readBytes_succ,
    BitVec.toNat_ofNat, BitVec.toNat_ofNat, Nat.add_comm k 8, Nat.pow_add, Nat.mod_mul, hlow, hhigh]
  omega

/-- The value of a read is that of its own bits, zero-extended in the answer. -/
theorem State.ofNat_readBytes_zeroExtend (s : State) (n a : Nat) :
    BitVec.ofNat 32 (s.readBytes n a) = (BitVec.ofNat (8 * n) (s.readBytes n a)).zeroExtend 32 := by
  have hlt := s.readBytes_lt n a
  apply BitVec.eq_of_toNat_eq
  simp [Nat.mod_eq_of_lt hlt]

theorem State.ofNat_readBytes_one (s : State) (a : Nat) : BitVec.ofNat 8 (s.readBytes 1 a) = s.byteAt a := by
  rw [State.readBytes_succ]
  simp [State.readBytes, memRead]

/-- Settles O35. -/
theorem flashReadsReturnLittleEndianBytes : Obligations.FlashReadsReturnLittleEndianBytes := by
  intro s a hb hw
  have answer : ∀ w v, a.toNat % widthBytes w = 0 → BitVec.ofNat 32 (s.readBytes (widthBytes w) a.toNat) = v →
      exec (flashRead w a) s = .next (s.respond (.data w v)) := fun w v ha hv => by
    rw [exec_flashRead_aligned w a s hw ha, flashAnswer_idle w a hb, hv]
  have half : BitVec.ofNat 16 (s.readBytes 2 a.toNat) = s.byteAt (a.toNat + 1) ++ s.byteAt a.toNat :=
    (s.ofNat_readBytes_succ 8 1 a.toNat).trans (by rw [s.ofNat_readBytes_one])
  refine ⟨answer .w8 _ (widthBytes_w8_aligned _) ?_, fun ha => answer .w16 _ ha ?_, fun ha => answer .w32 _ ha ?_⟩
  · rw [← s.ofNat_readBytes_one]
    exact s.ofNat_readBytes_zeroExtend 1 a.toNat
  · rw [← half]
    exact s.ofNat_readBytes_zeroExtend 2 a.toNat
  · calc BitVec.ofNat 32 (s.readBytes 4 a.toNat)
        = BitVec.ofNat 24 (s.readBytes 3 (a.toNat + 1)) ++ s.byteAt a.toNat := s.ofNat_readBytes_succ 24 3 _
      _ = BitVec.ofNat 16 (s.readBytes 2 (a.toNat + 2)) ++ s.byteAt (a.toNat + 1) ++ s.byteAt a.toNat :=
        congrArg (· ++ s.byteAt a.toNat) (s.ofNat_readBytes_succ 16 2 _)
      _ = BitVec.ofNat 8 (s.readBytes 1 (a.toNat + 3)) ++ s.byteAt (a.toNat + 2) ++ s.byteAt (a.toNat + 1)
          ++ s.byteAt a.toNat :=
        congrArg (· ++ s.byteAt (a.toNat + 1) ++ s.byteAt a.toNat) (s.ofNat_readBytes_succ 8 1 _)
      _ = _ := by rw [s.ofNat_readBytes_one]

/-! ### A flash read while the FLC is busy -/

/-- A tick without reset in which the host makes an aligned flash read (20_memory.md R96). -/
theorem step_flashRead {s t : State} {w : Width} {a : Word} {rest : List HostOp} (h : step s = .next t)
    (hr : (s.envAt 0).reset = false) (hw : inWindow s.par a.toNat = true) (ha : a.toNat % widthBytes w = 0)
    (hprog : s.host.prog = .access (.read w a) :: rest) :
    t = retire (.access (.read w a)) rest ((unitsTick s).respond (flashAnswer w a (unitsTick s))) := by
  obtain ⟨hp, ⟨hr', -⟩ | ⟨-, hturn, -⟩⟩ := step_cases h
  · exact absurd (hr.symm.trans hr') nofun
  have hperform : performAccess (.read w a) (unitsTick s)
      = .next ((unitsTick s).respond (flashAnswer w a (unitsTick s))) := by
    rw [performAccess, unitsTick_par, decodeAccess, regionOf_flash _ ((Params.ok_iff _).1 hp) _ hw]
    exact exec_flashRead_aligned w a _ (by rw [unitsTick_par]; exact hw) ha
  rw [hostTurn, unitsTick_host, hprog] at hturn
  dsimp only at hturn
  rw [hperform] at hturn
  injection hturn with hturn
  exact hturn.symm

/-- Such a tick before the completion: the read stalls and stays at the head of the host's program. -/
theorem step_flashRead_stalls {s t : State} {w : Width} {a : Word} {rest : List HostOp} (h : step s = .next t)
    (hr : (s.envAt 0).reset = false) (hw : inWindow s.par a.toNat = true) (ha : a.toNat % widthBytes w = 0)
    (hprog : s.host.prog = .access (.read w a) :: rest) (hb : s.flc.busy = true) (hrem : 2 ≤ s.flc.remaining) :
    t.host.prog = .access (.read w a) :: rest ∧ t.host.resp = .stalled := by
  obtain ⟨hflc, -⟩ := unitsTick_flc_wait s hb hrem
  rw [step_flashRead h hr hw ha hprog, flashAnswer_busy w a (by rw [hflc]; exact hb)]
  exact ⟨rfl, rfl⟩

/-- The completion tick: the read is performed on the array as the command leaves it, and the host's program moves on. -/
theorem step_flashRead_completes {s t : State} {w : Width} {a : Word} {rest : List HostOp} (h : step s = .next t)
    (hr : (s.envAt 0).reset = false) (hw : inWindow s.par a.toNat = true) (ha : a.toNat % widthBytes w = 0)
    (hprog : s.host.prog = .access (.read w a) :: rest) (hb : s.flc.busy = true) (hrem : s.flc.remaining ≤ 1) :
    t.flc.busy = false ∧ t.host.prog = rest
      ∧ t.host.resp = .data w (BitVec.ofNat 32 (t.readBytes (widthBytes w) a.toNat)) := by
  obtain ⟨hflc, -⟩ := unitsTick_flc_complete s hb hrem
  have hidle : (unitsTick s).flc.busy = false := by rw [hflc]; rfl
  rw [step_flashRead h hr hw ha hprog, flashAnswer_idle w a hidle]
  exact ⟨hidle, rfl, rfl⟩

/-- The host's next access is an aligned read of the flash window. -/
structure ReadsNext (w : Width) (a : Word) (rest : List HostOp) (s : State) : Prop where
  window : inWindow s.par a.toNat = true
  aligned : a.toNat % widthBytes w = 0
  prog : s.host.prog = .access (.read w a) :: rest

/-- Before the completion the host makes no progress: the read stays next, and from the first tick on it has stalled. -/
theorem runs_flashRead_stalls {n : Nat} {s t : State} {w : Width} {a : Word} {rest : List HostOp}
    (hs : ReadsNext w a rest s) (hb : s.flc.busy = true) (hn : n < s.flc.remaining) (hr : s.noResetFor n)
    (h : Runs n s t) : ReadsNext w a rest t ∧ (1 ≤ n → t.host.resp = .stalled) := by
  induction n generalizing t with
  | zero => cases h; exact ⟨hs, nofun⟩
  | succ n ih =>
    obtain ⟨u, hu, hut⟩ := run_succ_last h
    have hr' : s.noResetFor n := fun j hj => hr j (by omega)
    obtain ⟨⟨hw, ha, hprog⟩, -⟩ := ih (by omega) hr' hu
    obtain ⟨hbusy, -, -, -, -, -, hrem, -⟩ := runs_flc hb (by omega) hr' hu
    obtain ⟨hprog', hresp⟩ := step_flashRead_stalls hut (by rw [runs_envAt hu]; exact hr n (by omega)) hw ha hprog hbusy
      (by omega)
    exact ⟨⟨by rw [step_par hut]; exact hw, ha, hprog'⟩, fun _ => hresp⟩

/-- Settles O37. -/
theorem busyFlashReadsStallUntilTheCompletionTick : Obligations.BusyFlashReadsStallUntilTheCompletionTick := by
  refine ⟨fun s w a rest hb hpos hw ha hprog => ?_, fun s r hp => ⟨_, performAccess_readOf s hp r⟩⟩
  have hs : ReadsNext w a rest s := ⟨hw, ha, hprog⟩
  refine ⟨fun m t hm hlt hr h => ?_, fun t hr h => ?_⟩
  · obtain ⟨hnext, hresp⟩ := runs_flashRead_stalls hs hb hlt hr h
    exact ⟨hnext.prog, hresp hm⟩
  · obtain ⟨n, hn⟩ : ∃ n, s.flc.remaining = n + 1 := ⟨s.flc.remaining - 1, by omega⟩
    rw [hn] at hr h
    obtain ⟨u, hu, hut⟩ := run_succ_last h
    have hr' : s.noResetFor n := fun j hj => hr j (by omega)
    obtain ⟨⟨hw', ha', hprog'⟩, -⟩ := runs_flashRead_stalls hs hb (by omega) hr' hu
    obtain ⟨hbusy, -, -, -, -, -, hrem, -⟩ := runs_flc hb (by omega) hr' hu
    exact step_flashRead_completes hut (by rw [runs_envAt hu]; exact hr n (by omega)) hw' ha' hprog' hbusy (by omega)

/-! ### Bus faults -/

/-- Settles O38. -/
theorem writesToTheFlashWindowAreReadOnlyFaults : Obligations.WritesToTheFlashWindowAreReadOnlyFaults := by
  intro s w a v hp hw
  rw [performAccess, decodeAccess, regionOf_flash _ ((Params.ok_iff _).1 hp) _ hw]
  rfl

/-- An access whose first byte is in a register block is checked there, at an offset that is as aligned as the address
(20_memory.md R93). -/
theorem decodeAccess_regBlock (p : Params) (h : p.Ok) (a v : Word)
    (ha : (p.i2cmBase ≤ a.toNat ∧ a.toNat < p.i2cmBase + 16) ∨ (p.flcBase ≤ a.toNat ∧ a.toNat < p.flcBase + 16)) :
    ∃ off r, off % 4 = a.toNat % 4 ∧ ∀ w, decodeAccess p (.read w a) = decodeRegAccess w off (.readReg r)
      ∧ decodeAccess p (.write w a v) = decodeRegAccess w off (decodeRegWrite r v) := by
  have hi := h.i2cmAligned
  have hf := h.flcAligned
  rcases ha with ⟨hlo, hhi⟩ | ⟨hlo, hhi⟩
  · have hregion : regionOf p a.toNat = .i2cm (a.toNat - p.i2cmBase) := by
      rw [← regionOf_i2cm p (a.toNat - p.i2cmBase) (by omega), Nat.add_sub_cancel' hlo]
    exact ⟨a.toNat - p.i2cmBase, i2cmRegAt _, by omega, fun w =>
      ⟨by rw [decodeAccess, hregion], by rw [decodeAccess, hregion]⟩⟩
  · have hregion : regionOf p a.toNat = .flc (a.toNat - p.flcBase) := by
      rw [← regionOf_flc p h (a.toNat - p.flcBase) (by omega), Nat.add_sub_cancel' hlo]
    exact ⟨a.toNat - p.flcBase, flcRegAt _, by omega, fun w =>
      ⟨by rw [decodeAccess, hregion], by rw [decodeAccess, hregion]⟩⟩

theorem decodeRegAccess_width {w : Width} (hw : w ≠ .w32) (off : Nat) (d : Decoded) :
    decodeRegAccess w off d = .fault .width := by
  cases w with
  | w8 | w16 => rfl
  | w32 => exact absurd rfl hw

theorem decodeRegAccess_align {off : Nat} (ho : off % 4 ≠ 0) (d : Decoded) :
    decodeRegAccess .w32 off d = .fault .align := if_neg ho

/-- An access that decodes to a bus fault is not performed (60_exceptions.md R276). -/
theorem performAccess_fault {s : State} {a : Access} {c : BusFault} (h : decodeAccess s.par a = .fault c) :
    performAccess a s = .next (s.respond (.fault c)) := by
  rw [performAccess, h]
  rfl

/-- Settles O39. -/
theorem registerAccessesOfTheWrongWidthOrAlignmentFault :
    Obligations.RegisterAccessesOfTheWrongWidthOrAlignmentFault := by
  intro s a v hp ha
  obtain ⟨off, r, hoff, hdecode⟩ := decodeAccess_regBlock s.par ((Params.ok_iff _).1 hp) a v ha
  refine ⟨fun w hw => ?_, fun hmis => ?_⟩
  · obtain ⟨hread, hwrite⟩ := hdecode w
    rw [decodeRegAccess_width hw] at hread hwrite
    exact ⟨performAccess_fault hread, performAccess_fault hwrite⟩
  · obtain ⟨hread, hwrite⟩ := hdecode .w32
    rw [decodeRegAccess_align (by omega)] at hread hwrite
    exact ⟨performAccess_fault hread, performAccess_fault hwrite⟩

/-! ### Which tick goes on -/

/-- An access goes on, unless it is outside the three regions (20_memory.md R84). -/
theorem performAccess_goes_on {s : State} {a : Access} (h : decodeAccess s.par a ≠ .outside) :
    ∃ t, performAccess a s = .next t := by
  unfold performAccess
  cases hd : decodeAccess s.par a with
  | instr i => exact exec_next_of_inRegion (inRegion_of_decodeAccess hd)
  | badCommand | readReg | writeReg | fault => exact ⟨_, rfl⟩
  | outside => exact absurd hd h

theorem performAccess_outside {s : State} {a : Access} (h : decodeAccess s.par a = .outside) :
    performAccess a s = .refused .outsidePeriph := by
  rw [performAccess, h]
  rfl

/-- The host's turn is refused exactly for an access outside, and goes on otherwise. -/
theorem hostTurn_goes_on_or_outside (s : State) :
    (s.nextAccess ≠ some .outside ∧ ∃ t, hostTurn s = .next t)
      ∨ (s.nextAccess = some .outside ∧ hostTurn s = .refused .outsidePeriph) := by
  have access : ∀ line rest a,
      (some (decodeAccess s.par a) ≠ some .outside ∧ ∃ t, retireOutcome line rest (performAccess a s) = .next t)
        ∨ (some (decodeAccess s.par a) = some .outside
          ∧ retireOutcome line rest (performAccess a s) = .refused .outsidePeriph) := by
    intro line rest a
    by_cases h : decodeAccess s.par a = .outside
    · exact .inr ⟨congrArg some h, by rw [performAccess_outside h]; rfl⟩
    · obtain ⟨t, ht⟩ := performAccess_goes_on h
      exact .inl ⟨fun he => h (Option.some.inj he), retire line rest t, by rw [ht]; rfl⟩
  unfold hostTurn State.nextAccess
  cases s.host.prog with
  | nil => exact .inl ⟨nofun, _, rfl⟩
  | cons line rest =>
    cases line with
    | idle => exact .inl ⟨nofun, _, rfl⟩
    | access a => exact access _ rest a
    | poll addr mask want => exact access _ rest (.read .w32 addr)

/-- Settles O53. -/
theorem everyStepGoesOnUnlessTheAccessIsOutside : Obligations.EveryStepGoesOnUnlessTheAccessIsOutside := by
  intro s hp
  rw [step, if_pos hp, tick]
  cases hr : (s.envAt 0).reset with
  | true => exact ⟨.inl ⟨_, rfl⟩, nofun, nofun⟩
  | false =>
    rw [if_neg nofun, ← unitsTick_nextAccess]
    rcases hostTurn_goes_on_or_outside (unitsTick s) with ⟨hne, t, ht⟩ | ⟨heq, ht⟩
    · exact ⟨.inl ⟨t, ht⟩, fun h => absurd (ht.symm.trans h) nofun, fun h => absurd h.2 hne⟩
    · exact ⟨.inr ht, fun _ => ⟨rfl, heq⟩, fun _ => ht⟩

end Sys2Proof.Machine

namespace Sys2Proof.Machine

/-! The encoding: each command's word decodes back to it, each valid word (30_encoding.md R118) is the word of a command,
and the access that issues an instruction decodes to it. -/

/-! ### The word of a command decodes to the command -/

/-- The word of every instruction is read back (30_encoding.md R110, R117): the table of `Laws/PerInstr.lean`. -/
theorem wordRoundTrip : ∀ i : Instr, Laws.WordRoundTrip.Statement i
  | .i2cInit => Laws.WordRoundTrip.i2cInit
  | .i2cStart => Laws.WordRoundTrip.i2cStart
  | .i2cStop => Laws.WordRoundTrip.i2cStop
  | .i2cSendb byte => Laws.WordRoundTrip.i2cSendb byte
  | .i2cRecvb => Laws.WordRoundTrip.i2cRecvb
  | .i2cSack a => Laws.WordRoundTrip.i2cSack a
  | .i2cRack => Laws.WordRoundTrip.i2cRack
  | .i2cWscl b => Laws.WordRoundTrip.i2cWscl b
  | .i2cWsda b => Laws.WordRoundTrip.i2cWsda b
  | .i2cRsda => Laws.WordRoundTrip.i2cRsda
  | .flcUnlock => Laws.WordRoundTrip.flcUnlock
  | .flcLock => Laws.WordRoundTrip.flcLock
  | .flcErasep => Laws.WordRoundTrip.flcErasep
  | .flcErasea => Laws.WordRoundTrip.flcErasea
  | .flcProgh => Laws.WordRoundTrip.flcProgh
  | .flcProgw => Laws.WordRoundTrip.flcProgw
  | .rdB a => Laws.WordRoundTrip.rdB a
  | .rdH a => Laws.WordRoundTrip.rdH a
  | .rdW a => Laws.WordRoundTrip.rdW a

/-- One of the two decoders reads the word back, and the FLC's accepts commands of the FLC only. -/
theorem decodeI2cm_encodeWord {i : Instr} (hi : IsI2cmCommand i) : decodeI2cm (encodeWord i) = .ok i := by
  obtain ⟨hread, hflc⟩ := hi
  obtain ⟨-, hword⟩ := wordRoundTrip i
  refine (hword hread).resolve_right fun h => ?_
  obtain ⟨-, -, hmem⟩ := decodeFlc_ok_cases h
  exact hflc hmem

/-- One of the two decoders reads the word back, and the I2CM's accepts commands of the I2CM only. -/
theorem decodeFlc_encodeWord {i : Instr} (hi : i ∈ flcCommands) : decodeFlc (encodeWord i) = .ok i := by
  have hread : ∀ j ∈ flcCommands, j.readAddr? = none := by decide
  obtain ⟨-, hword⟩ := wordRoundTrip i
  refine (hword (hread i hi)).resolve_left fun h => ?_
  obtain ⟨-, hflc⟩ := isI2cmCommand_of_decodeI2cm h
  exact hflc hi

/-! ### A valid word is the word of a command -/

/-- A word of the I2CM format is its opcode and its argument, where the reserved fields are zero (30_encoding.md R111). -/
theorem ofNat_i2cmFields {w : Word} (hrsv1 : bits w 31 16 = 0) (hrsv0 : bits w 7 4 = 0) :
    BitVec.ofNat 32 (bits w 3 0 + 256 * bits w 15 8) = w := by
  apply BitVec.eq_of_toNat_eq
  rw [BitVec.toNat_ofNat]
  simp only [bits] at *
  omega

/-- A word of the FLC format is its opcode, where the reserved field is zero (30_encoding.md R112). -/
theorem ofNat_flcFields {w : Word} (hrsv : bits w 31 4 = 0) : BitVec.ofNat 32 (bits w 3 0) = w := by
  apply BitVec.eq_of_toNat_eq
  rw [BitVec.toNat_ofNat]
  simp only [bits] at *
  omega

/-- The opcodes of R115 that take no argument. -/
theorem exists_command_of_noArgOpcode {op : Nat} (h : op ∈ [1, 2, 3, 5, 7, 10]) :
    ∃ i, IsI2cmCommand i ∧ encodeWord i = BitVec.ofNat 32 op := by
  simp only [List.mem_cons, List.not_mem_nil, or_false] at h
  rcases h with rfl | rfl | rfl | rfl | rfl | rfl
  · exact ⟨.i2cInit, ⟨rfl, by decide⟩, rfl⟩
  · exact ⟨.i2cStart, ⟨rfl, by decide⟩, rfl⟩
  · exact ⟨.i2cStop, ⟨rfl, by decide⟩, rfl⟩
  · exact ⟨.i2cRecvb, ⟨rfl, by decide⟩, rfl⟩
  · exact ⟨.i2cRack, ⟨rfl, by decide⟩, rfl⟩
  · exact ⟨.i2cRsda, ⟨rfl, by decide⟩, rfl⟩

/-- The opcodes of R115 that take one bit. -/
theorem exists_command_of_bitArgOpcode {op : Nat} (h : op ∈ [6, 8, 9]) (b : Bool) :
    ∃ i, IsI2cmCommand i ∧ encodeWord i = BitVec.ofNat 32 (op + 256 * b.toNat) := by
  simp only [List.mem_cons, List.not_mem_nil, or_false] at h
  rcases h with rfl | rfl | rfl
  · exact ⟨.i2cSack b, ⟨rfl, by simp [flcCommands]⟩, rfl⟩
  · exact ⟨.i2cWscl b, ⟨rfl, by simp [flcCommands]⟩, rfl⟩
  · exact ⟨.i2cWsda b, ⟨rfl, by simp [flcCommands]⟩, rfl⟩

/-- A word valid for the I2CM (30_encoding.md R118) is the word of one of its commands. -/
theorem exists_encodeWord_of_validI2cm {w : Word} (h : validI2cm w) : ∃ i, IsI2cmCommand i ∧ encodeWord i = w := by
  obtain ⟨hrsv1, hrsv0, hop⟩ := (validI2cm_iff w).1 h
  rw [← ofNat_i2cmFields hrsv1 hrsv0]
  rcases hop with ⟨hop, harg⟩ | hop | ⟨hop, harg⟩
  · rw [harg]
    exact exists_command_of_noArgOpcode hop
  · have hbyte : bits w 15 8 < 2 ^ 8 := Nat.mod_lt _ (by decide)
    refine ⟨.i2cSendb (BitVec.ofNat 8 (bits w 15 8)), ⟨rfl, by simp [flcCommands]⟩, ?_⟩
    rw [encodeWord, BitVec.toNat_ofNat, Nat.mod_eq_of_lt hbyte, hop]
  · obtain harg | harg : bits w 15 8 = false.toNat ∨ bits w 15 8 = true.toNat := by
      simp only [Bool.toNat_false, Bool.toNat_true]
      omega
    all_goals
      rw [harg]
      exact exists_command_of_bitArgOpcode hop _

/-- A word valid for the FLC (30_encoding.md R118) is the word of one of its commands (R116). -/
theorem exists_encodeWord_of_validFlc {w : Word} (h : validFlc w) : ∃ i ∈ flcCommands, encodeWord i = w := by
  obtain ⟨hrsv, hop⟩ := (validFlc_iff w).1 h
  rw [← ofNat_flcFields hrsv]
  have table : ∀ op ∈ [1, 2, 3, 4, 5, 6], ∃ i ∈ flcCommands, encodeWord i = BitVec.ofNat 32 op := by decide
  exact table _ hop

/-- Settles O3: a valid word is the word of a command, and that word decodes. -/
theorem decodersAcceptExactlyTheValidWords : Obligations.DecodersAcceptExactlyTheValidWords := by
  refine fun w => ⟨⟨fun ⟨_, h⟩ => validI2cm_of_decodeI2cm h, fun h => ?_⟩,
    ⟨fun ⟨_, h⟩ => validFlc_of_decodeFlc h, fun h => ?_⟩⟩
  · obtain ⟨i, hi, rfl⟩ := exists_encodeWord_of_validI2cm h
    exact ⟨i, decodeI2cm_encodeWord hi⟩
  · obtain ⟨i, hi, rfl⟩ := exists_encodeWord_of_validFlc h
    exact ⟨i, decodeFlc_encodeWord hi⟩

/-- Settles O2: an accepted word is valid, so it is the word of a command, and it decodes to that command alone. -/
theorem acceptedWordIsTheWordOfItsCommand : Obligations.AcceptedWordIsTheWordOfItsCommand := by
  refine fun w i => ⟨fun h => ?_, fun h => ?_⟩
  · obtain ⟨j, hj, rfl⟩ := exists_encodeWord_of_validI2cm (validI2cm_of_decodeI2cm h)
    rw [Except.ok.inj ((decodeI2cm_encodeWord hj).symm.trans h)]
  · obtain ⟨j, hj, rfl⟩ := exists_encodeWord_of_validFlc (validFlc_of_decodeFlc h)
    rw [Except.ok.inj ((decodeFlc_encodeWord hj).symm.trans h)]

/-! ### The access that issues an instruction -/

theorem encode_i2cmCommand {i : Instr} (hi : IsI2cmCommand i) (p : Params) :
    encode p i = writeOf p .i2cmCmd (encodeWord i) := by
  obtain ⟨hread, hflc⟩ := hi
  cases i with
  | i2cInit | i2cStart | i2cStop | i2cSendb | i2cRecvb | i2cSack | i2cRack | i2cWscl | i2cWsda | i2cRsda => rfl
  | flcUnlock | flcLock | flcErasep | flcErasea | flcProgh | flcProgw => exact absurd (by decide) hflc
  | rdB | rdH | rdW => cases hread

theorem encode_flcCommand {i : Instr} (hi : i ∈ flcCommands) (p : Params) :
    encode p i = writeOf p .flcCmd (encodeWord i) := by
  simp only [flcCommands, List.mem_cons, List.not_mem_nil, or_false] at hi
  rcases hi with rfl | rfl | rfl | rfl | rfl | rfl <;> rfl

/-- A flash read is issued by the read whose width names it (30_encoding.md R117). -/
theorem encode_flashRead {i : Instr} {a : Word} (h : i.readAddr? = some a) (p : Params) :
    ∃ w, i = flashRead w a ∧ encode p i = .read w a := by
  cases i with
  | rdB b => injection h with h; subst h; exact ⟨.w8, rfl, rfl⟩
  | rdH b => injection h with h; subst h; exact ⟨.w16, rfl, rfl⟩
  | rdW b => injection h with h; subst h; exact ⟨.w32, rfl, rfl⟩
  | i2cInit | i2cStart | i2cStop | i2cSendb | i2cRecvb | i2cSack | i2cRack | i2cWscl | i2cWsda | i2cRsda => cases h
  | flcUnlock | flcLock | flcErasep | flcErasea | flcProgh | flcProgw => cases h

/-- Settles O1, by the unit that the instruction is issued to: the CMD register names the unit, and the unit's decoder
reads the word back; a flash read is in the window. -/
theorem decodeOfEncodeIsTheInstruction : Obligations.DecodeOfEncodeIsTheInstruction := by
  intro p i hp hregion
  have ok := (Params.ok_iff p).1 hp
  rcases instr_cases_unit i with hi | hi | ⟨a, ha⟩
  · rw [encode_i2cmCommand hi, decodeAccess_writeOf p ok, decodeRegWrite, decodeI2cm_encodeWord hi, decodeCommand]
  · rw [encode_flcCommand hi, decodeAccess_writeOf p ok, decodeRegWrite, decodeFlc_encodeWord hi, decodeCommand]
  · obtain ⟨w, rfl, hread⟩ := encode_flashRead ha p
    rw [Instr.inRegion, ha] at hregion
    rw [hread, decodeAccess, regionOf_flash p ok a.toNat hregion]

/-- Settles O4: the words of R127, each evaluated. -/
theorem encodingExamplesDecode : Obligations.EncodingExamplesDecode := by
  unfold Obligations.EncodingExamplesDecode
  decide

end Sys2Proof.Machine

namespace Sys2Proof.Machine

/-! The invariant of the machine, kept by each part of a tick (10_state.md R31): the units' turn, the host's turn, a reset. -/

/-! ### The I2CM unit -/

/-- The invariant reads nothing that a host access can change while the unit is busy. -/
theorem I2cm.Good.of_view_eq {m m' : I2cm} (h : I2cm.Good m) (hv : m'.view = m.view) : I2cm.Good m' := by
  obtain ⟨-, -, hbusy, hop, harg, hsteps, hk, hdq, hwait, -⟩ := (I2cm.view_eq_iff _ _).1 hv
  constructor <;> simp only [hbusy, hop, harg, hsteps, hk, hdq, hwait]
  · exact h.opcode
  · exact h.steps
  · exact h.position
  · exact h.quantum
  · exact h.countdown
  · exact h.idle

/-- An acceptance of a command with its own micro-steps (40_bitio.md R141). -/
theorem I2cm.good_acceptI2cm {op : BitVec 4} (arg : Byte) (cl : Bool) (m : I2cm) (hop : i2cmOpcode op) :
    I2cm.Good (acceptI2cm op arg (microSteps op arg) cl m) := by
  have hdq : (dqOf m.delay).toNat = max m.delay.toNat 1 := dqOf_toNat _
  have hdelay := m.delay.isLt
  exact ⟨fun _ => hop, fun _ => rfl, fun _ => Nat.zero_le _, fun _ => by rw [acceptI2cm, hdq]; omega,
    fun _ => ⟨le_refl 1, by rw [acceptI2cm, hdq]; exact le_max_right ..⟩, nofun⟩

/-- A host access keeps the invariant of the unit. -/
theorem HostI2cm.good {m m' : I2cm} (h : HostI2cm m m') (hm : I2cm.Good m) : I2cm.Good m' := by
  cases h with
  | same | refused | invalid | clear | delay => exact hm.of_view_eq rfl
  | accepted op arg cl _ hlo hhi => exact I2cm.good_acceptI2cm arg cl m ⟨hlo, hhi⟩

/-- A tick of the sequencer keeps the invariant of the unit (40_bitio.md R142). -/
theorem i2cmTick_good (d : Bool) {m : I2cm} (hm : I2cm.Good m) : I2cm.Good (i2cmTick d m) := by
  rcases i2cmTick_cases d m with ⟨-, h⟩ | ⟨hb, hw, h⟩ | ⟨hb, -, op, hop, h⟩ | ⟨-, -, -, h⟩ <;> rw [h]
  · exact hm
  · obtain ⟨-, hle⟩ := hm.countdown hb
    exact ⟨hm.opcode, hm.steps, hm.position, hm.quantum, fun _ => by dsimp only; omega,
      fun hidle => absurd (hb.symm.trans hidle) nofun⟩
  · obtain ⟨fbusy, fop, farg, fsteps, -, fdq, -⟩ := perform_frame d op m
    obtain ⟨hk, -⟩ := List.getElem?_eq_some_iff.1 hop
    have hq := hm.quantum hb
    constructor <;> simp only [fbusy, fop, farg, fsteps, fdq]
    · exact hm.opcode
    · exact hm.steps
    · exact fun _ => hk
    · exact hm.quantum
    · exact fun _ => ⟨hq.1, le_refl _⟩
    · exact fun hidle => absurd (hb.symm.trans hidle) nofun
  · exact ⟨nofun, nofun, nofun, nofun, nofun, fun _ => ⟨rfl, rfl⟩⟩

/-! ### The FLC unit -/

/-- An idle FLC whose countdown is over is good, whatever it holds. -/
theorem Flc.Good.of_idle {p : Params} {f : Flc} (hb : f.busy = false) (hr : f.remaining = 0) : Flc.Good p f :=
  have hn : f.busy ≠ true := by rw [hb]; nofun
  ⟨fun h => absurd h hn, fun h => absurd h hn, fun h => absurd h hn, fun h => absurd h hn, fun _ => hr⟩

/-- The acceptance of a command by an unlocked FLC whose address check it passed (43_flash.md R210). -/
theorem Flc.good_acceptFlc {p : Params} {op : BitVec 4} {pf : Bool} {f : Flc} (hl : f.locked = false)
    (ha : flcAddrOk p op f.addr.toNat) (hpos : 1 ≤ flcDuration p op)
    (hpf : pf = true → op = opProgHalf ∨ op = opProgWord) : Flc.Good p (acceptFlc op pf (flcDuration p op) f) :=
  ⟨fun _ => hl, fun _ => ha, fun _ => ⟨hpos, le_refl _⟩, fun _ => hpf, nofun⟩

/-- A host access keeps the invariant of the unit: a busy unit keeps what the invariant reads, an idle one stays idle or
accepts a command. -/
theorem HostFlc.good {s : State} {f : Flc} (h : HostFlc s f) (hp : s.par.Ok) (hf : Flc.Good s.par s.flc) :
    Flc.Good s.par f := by
  cases hb : s.flc.busy with
  | true =>
    obtain ⟨hbusy, hlocked, hop, haddr, -, hfail, hrem⟩ := h.busy_frame hb
    refine ⟨fun _ => ?_, fun _ => ?_, fun _ => ?_, fun _ => ?_, fun hidle => absurd (hbusy.symm.trans hidle) nofun⟩
    · rw [hlocked]; exact hf.unlocked hb
    · rw [hop, haddr]; exact hf.address hb
    · rw [hop, hrem]; exact hf.countdown hb
    · rw [hop, hfail]; exact hf.failure hb
  | false =>
    have hrem := hf.idle hb
    cases h with
    | same | refused | invalid | locked | address | setLock | clear | addr | data => exact .of_idle hb hrem
    | erasePage _ hl ha => exact Flc.good_acceptFlc (op := opErasePage) hl (.inl ⟨rfl, ha⟩) hp.erasePagePos nofun
    | eraseAll _ hl => exact Flc.good_acceptFlc (op := opEraseAll) hl (.inr (.inl rfl)) hp.eraseAllPos nofun
    | progHalf _ hl ha =>
      exact Flc.good_acceptFlc (op := opProgHalf) hl (.inr (.inr (.inl ⟨rfl, ha⟩))) hp.progHalfPos fun _ => .inl rfl
    | progWord _ hl ha =>
      exact Flc.good_acceptFlc (op := opProgWord) hl (.inr (.inr (.inr ⟨rfl, ha⟩))) hp.progWordPos fun _ => .inr rfl

/-- The engine keeps the invariant of the unit (43_flash.md R221). -/
theorem unitsTick_flc_good {s : State} (hf : Flc.Good s.par s.flc) : Flc.Good s.par (unitsTick s).flc := by
  rcases unitsTick_flc_cases s with ⟨-, h⟩ | ⟨hb, hr, h⟩ | ⟨-, -, h⟩ <;> rw [h]
  · exact hf
  · obtain ⟨-, hle⟩ := hf.countdown hb
    exact ⟨hf.unlocked, hf.address, fun _ => by dsimp only; omega, hf.failure,
      fun hidle => absurd (hb.symm.trans hidle) nofun⟩
  · exact .of_idle rfl rfl

/-! ### The flash array -/

/-- The part of the invariant that is about the flash array. -/
structure ArrayGood (s : State) : Prop where
  canonical : Memory.wf s.unlisted s.mem = true
  inside : memInWindow s.par s.mem
  sorted : s.unerased.Pairwise (· < ·)
  pages : ∀ i ∈ s.unerased, i < s.par.numPages

theorem State.good_iff (s : State) :
    State.Good s ↔ s.par.ok = true ∧ I2cm.Good s.i2cm ∧ Flc.Good s.par s.flc ∧ ArrayGood s :=
  ⟨fun h => ⟨h.params, h.i2cm, h.flc, h.memCanonical, h.memInside, h.unerasedSorted, h.unerasedInside⟩,
    fun ⟨hp, hi, hf, ha⟩ => ⟨hp, hi, hf, ha.canonical, ha.inside, ha.sorted, ha.pages⟩⟩

theorem ArrayGood.congr {s t : State} (h : ArrayGood s) (hp : t.par = s.par) (hm : t.mem = s.mem)
    (hu : t.unerased = s.unerased) : ArrayGood t := by
  have hc := h.canonical
  have hi := h.inside
  have hs := h.sorted
  have hn := h.pages
  rw [← hm, ← State.unlisted_congr hp hu] at hc
  rw [← hp, ← hm] at hi
  rw [← hu] at hs
  rw [← hp, ← hu] at hn
  exact ⟨hc, hi, hs, hn⟩

/-- The bytes that a command with a checked address targets are bytes of the window (60_exceptions.md R281). -/
theorem flcTarget_inWindow {s : State} (h : flcAddrOk s.par s.flc.curOp s.flc.curAddr.toNat) {a : Nat}
    (hlo : (flcTarget s).1 ≤ a) (hhi : a < (flcTarget s).1 + (flcTarget s).2) : inWindow s.par a = true := by
  rw [inWindow_iff]
  rcases h with ⟨ho, ha⟩ | ho | ⟨ho, ha⟩ | ⟨ho, ha⟩
  · rw [flcTarget, if_pos ho, targetErasePage, pageStart_pageOf _ ha] at hlo hhi
    obtain ⟨hbase, htop, hmod⟩ := (erasePageAddrOk_iff _ _).1 ha
    obtain ⟨i, hi⟩ := Nat.dvd_of_mod_eq_zero hmod
    have hpage : i < s.par.numPages := by
      refine Nat.lt_of_mul_lt_mul_left (a := s.par.pageSize) ?_
      rw [← hi, Nat.mul_comm, ← Params.flashSize]
      omega
    have hend : s.par.pageSize * (i + 1) ≤ s.par.flashSize := by
      rw [Params.flashSize, Nat.mul_comm s.par.numPages]
      exact Nat.mul_le_mul_left _ hpage
    rw [Nat.mul_succ] at hend
    dsimp only at hlo hhi
    omega
  · rw [flcTarget, ho] at hlo hhi
    exact ⟨hlo, hhi⟩
  · rw [flcTarget_progHalf s ho] at hlo hhi
    obtain ⟨-, hbase, htop⟩ := (progHalfAddrOk_iff _ _).1 ha
    dsimp only at hlo hhi
    omega
  · rw [flcTarget_progWord s ho] at hlo hhi
    obtain ⟨-, hbase, htop⟩ := (progWordAddrOk_iff _ _).1 ha
    dsimp only at hlo hhi
    omega

/-- A completion erases, programs or draws, in each case the bytes that the command targets (43_flash.md R216 to R219). -/
theorem flcEffect_cases {s : State} (h : flcAddrOk s.par s.flc.curOp s.flc.curAddr.toNat) :
    flcEffect s = s.eraseRange (flcTarget s).1 (flcTarget s).2
      ∨ (∃ v, flcEffect s = s.writeFlash (flcTarget s).2 (flcTarget s).1 v)
      ∨ flcEffect s = s.drawRange (flcTarget s).2 (flcTarget s).1 := by
  rcases h with ⟨ho, -⟩ | ho | ⟨ho, -⟩ | ⟨ho, -⟩
  · rw [flcEffect, flcTarget, ho]
    exact .inl rfl
  · rw [flcEffect, flcTarget, ho]
    exact .inl rfl
  · rw [flcEffect_progHalf s ho, flcTarget_progHalf s ho, effectProgHalf]
    split
    · exact .inr (.inr rfl)
    · exact .inr (.inl ⟨_, rfl⟩)
  · rw [flcEffect_progWord s ho, flcTarget_progWord s ho, effectProgWord]
    split
    · exact .inr (.inr rfl)
    · exact .inr (.inl ⟨_, rfl⟩)

/-- Draws in bytes of the window keep the invariant of the array. -/
theorem ArrayGood.drawRange {s : State} (h : ArrayGood s) {n a : Nat}
    (hw : ∀ b, a ≤ b → b < a + n → inWindow s.par b = true) : ArrayGood (s.drawRange n a) :=
  ⟨Memory.wf_memDraw n a s.draws s.mem h.canonical,
    fun c hc => (memDraw_addr n a s.draws s.mem c hc).elim (fun hr => hw c.1 hr.1 hr.2) (h.inside c), h.sorted, h.pages⟩

/-- So does a write to bytes of the window. -/
theorem ArrayGood.writeFlash {s : State} (h : ArrayGood s) {n a v : Nat}
    (hw : ∀ b, a ≤ b → b < a + n → inWindow s.par b = true) : ArrayGood (s.writeFlash n a v) :=
  ⟨Memory.wf_memWrite n a v s.mem h.canonical,
    fun c hc => (memWrite_addr n a v s.mem c hc).elim (fun hr => hw c.1 hr.1 hr.2) (h.inside c), h.sorted, h.pages⟩

/-- A completion keeps the invariant of the array. -/
theorem ArrayGood.flcEffect {s : State} (h : ArrayGood s) (ha : flcAddrOk s.par s.flc.curOp s.flc.curAddr.toNat) :
    ArrayGood (flcEffect s) := by
  have hwf := wf_flcEffect s h.canonical
  rcases flcEffect_cases ha with he | ⟨v, he⟩ | he <;> rw [he] at hwf ⊢
  · exact ⟨hwf, fun c hc => h.inside c (memErase_subset _ _ _ c hc), h.sorted.filter _,
      fun i hi => h.pages i (List.mem_filter.1 hi).1⟩
  · exact h.writeFlash fun _ => flcTarget_inWindow ha
  · exact h.drawRange fun _ => flcTarget_inWindow ha

/-- A tick of the FLC engine keeps the invariant of the array (43_flash.md R221). -/
theorem ArrayGood.flcTick {s : State} (h : ArrayGood s) (hf : Flc.Good s.par s.flc) : ArrayGood (flcTick s) := by
  rcases flcTick_cases s with ⟨-, he⟩ | ⟨-, -, he⟩ | ⟨hb, -, he⟩ <;> rw [he]
  · exact h
  · exact h.congr rfl rfl rfl
  · exact (h.flcEffect (hf.address hb)).congr rfl rfl rfl

/-- A reset keeps it, whatever command was in flight (70_reset_and_hazards.md R314). -/
theorem ArrayGood.resetFlash {s : State} (h : ArrayGood s) (hf : Flc.Good s.par s.flc) : ArrayGood (resetFlash s) := by
  rw [Machine.resetFlash]
  split
  · next hb => exact h.drawRange fun _ => flcTarget_inWindow (hf.address hb)
  · exact h

/-! ### The machine -/

/-- The units' turn keeps the invariant. -/
theorem State.Good.unitsTick {s : State} (h : State.Good s) : State.Good (unitsTick s) := by
  obtain ⟨hp, hi, hf, ha⟩ := (State.good_iff s).1 h
  refine (State.good_iff _).2 ⟨?_, ?_, ?_, ?_⟩
  · rwa [unitsTick_par]
  · rw [unitsTick_i2cm]; exact i2cmTick_good _ hi
  · rw [unitsTick_par]; exact unitsTick_flc_good hf
  · rw [Machine.unitsTick]; exact ArrayGood.flcTick (ha.congr rfl rfl rfl) hf

/-- The host's turn keeps the invariant. -/
theorem State.Good.hostStep {s t : State} (h : State.Good s) (hs : HostStep s t) : State.Good t := by
  obtain ⟨hp, hi, hf, ha⟩ := (State.good_iff s).1 h
  refine (State.good_iff t).2 ⟨?_, hs.i2cm.good hi, ?_, ha.congr hs.par hs.mem hs.unerased⟩
  · rwa [hs.par]
  · rw [hs.par]; exact hs.flc.good ((Params.ok_iff _).1 hp) hf

/-- A reset keeps the invariant. -/
theorem State.Good.resetTick {s : State} (h : State.Good s) : State.Good (resetTick s) := by
  obtain ⟨hp, -, hf, ha⟩ := (State.good_iff s).1 h
  obtain ⟨hpar, -, -, hi, hflc, hmem, hun, -⟩ := resetTick_fields s
  refine (State.good_iff _).2 ⟨?_, ?_, ?_, (ha.resetFlash hf).congr rfl rfl rfl⟩
  · rwa [hpar]
  · rw [hi]; exact resetStateIsGood.i2cm
  · rw [hflc]; exact .of_idle rfl rfl

/-- Settles O54: a step is a reset, or the units' turn and the host's, and each keeps the invariant. -/
theorem goodStatesStayGood : Obligations.GoodStatesStayGood := by
  intro s t h hstep
  rcases (step_cases hstep).2 with ⟨-, rfl⟩ | ⟨-, -, hs⟩
  · exact h.resetTick
  · exact h.unitsTick.hostStep hs

end Sys2Proof.Machine

namespace Sys2Proof.Machine

/-! The I2CM's raw commands and its clock: acceptance, the tick of each micro-step, the end of BUSY (40_bitio.md). -/

/-! ### Acceptance -/

/-- Settles O7. -/
theorem commandsWithoutPreconditionAreAccepted : Obligations.CommandsWithoutPreconditionAreAccepted := by
  intro s hb
  have accept : ∀ op arg steps, Host.Outcome.next (issueI2cm op arg steps false s)
      = (.next (acceptedI2cm op arg steps s.i2cm.seqerr s) : Host.Outcome State Fault Refusal) :=
    fun op arg steps => by rw [issueI2cm_idle op arg steps false s hb, Bool.false_and, Bool.or_false]
  exact ⟨accept opInit 0 stepsInit, accept opStart 0 stepsStart, fun b => accept opWriteScl (bitArg b) (stepsWriteScl b),
    fun b => accept opWriteSda (bitArg b) (stepsWriteSda b), accept opReadSda 0 stepsReadSda⟩

/-! ### Micro-steps and BUSY -/

/-- Settles O9: `m + 1` ticks after the acceptance, micro-steps 0 to `m / dq` are done, and here `m / dq` is `j`. -/
theorem microStepsFallOneQuantumApart : Obligations.MicroStepsFallOneQuantumApart := by
  intro s t j m hm hj hlo hhi hr hrun
  have hticks : m + 1 ≤ s.i2cm.steps.length * s.i2cm.dq.toNat :=
    Nat.le_trans hhi (Nat.mul_le_mul_right _ hj)
  have hview := runs_i2cm hm hticks hr hrun
  rw [i2cmAfter, Nat.div_eq_of_lt_le hlo hhi] at hview
  obtain ⟨hscl, hsda, hbusy, -, -, hsteps, hk, hdq, -⟩ := (I2cm.view_eq_iff _ _).1 hview
  obtain ⟨fbusy, -, -, fsteps, fdq, -⟩ :=
    performed_frame s.i2cm.steps (fun j => (s.envAt j).sdaP) s.i2cm.dq.toNat s.i2cm (j + 1)
  refine ⟨hbusy.trans (fbusy.trans hm.busy), hk, hsteps.trans fsteps, hdq.trans fdq, ?_⟩
  rw [hscl, hsda]
  exact performed_lines ..

/-- The unit is busy after each of its actions before the last quantum is over. -/
theorem runs_unitsTick_busy {n : Nat} {s t : State} (hm : I2cm.Fresh s.i2cm)
    (hn : n < s.i2cm.steps.length * s.i2cm.dq.toNat) (hr : s.noResetFor n) (h : Runs n s t) :
    (unitsTick t).i2cm.busy = true := by
  have henv := runs_envAt h 0
  rw [Nat.add_zero] at henv
  have hview := i2cmTick_view (s.envAt n).sdaP _ _ (runs_i2cm hm (le_of_lt hn) hr h)
  rw [i2cmTick_i2cmAfter (fun j => (s.envAt j).sdaP) s.i2cm hm n hn] at hview
  obtain ⟨-, -, hbusy, -⟩ := (I2cm.view_eq_iff _ _).1 hview
  rw [unitsTick_i2cm, henv, hbusy]
  exact i2cmAfter_busy _ _ hm _

/-- A command without micro-steps completes at the first action. -/
theorem unitsTick_idle_of_steps_nil {s : State} (hm : I2cm.Fresh s.i2cm) (hs : s.i2cm.steps = []) :
    (unitsTick s).i2cm.busy = false := by
  rw [unitsTick_i2cm, i2cmTick, if_pos hm.busy, hm.due, if_pos rfl, hs, List.getElem?_nil]

/-- Settles O10. -/
theorem busyLastsNQuanta : Obligations.BusyLastsNQuanta := by
  intro s t m hm hle hr hrun
  rcases Nat.lt_or_eq_of_le hle with hlt | rfl
  · rw [runs_unitsTick_busy hm hlt hr hrun, decide_eq_true hlt]
  · rw [decide_eq_false (Nat.lt_irrefl _)]
    cases hs : s.i2cm.steps with
    | nil =>
      rw [hs, List.length_nil, Nat.zero_mul] at hrun
      cases hrun
      exact unitsTick_idle_of_steps_nil hm hs
    | cons op ops =>
      obtain ⟨-, hunit⟩ := runs_i2cm_complete hm (by rw [hs]; exact Nat.succ_pos _) hr hrun
      rw [hunit]

/-! ### The raw commands -/

/-- The opcodes of the raw commands (40_bitio.md R148, R149, R150). -/
def rawOpcodes : List (BitVec 4) := [opWriteScl, opWriteSda, opReadSda]

/-- A raw command has no completion effect. -/
theorem completeI2cm_raw (m : I2cm) (h : m.curOp ∈ rawOpcodes) : completeI2cm m = m := by
  have hraw : ∀ op ∈ rawOpcodes, op ≠ opInit ∧ op ≠ opStart ∧ op ≠ opStop ∧ op ≠ opRecvByte ∧ op ≠ opRecvAck := by decide
  obtain ⟨hinit, hstart, hstop, hrecv, hack⟩ := hraw _ h
  rw [completeI2cm, if_neg hinit, if_neg hstart, if_neg hstop, if_neg hrecv, if_neg hack]

/-- What the statement about a raw command leaves to prove: what its one micro-step, performed in the first tick, makes of the
drives and SDA_IN. -/
theorem CompletesWith.of_raw {i : Instr} {post : Nat → State → State → I2cm → Prop} {op : BitVec 4} (arg : Byte)
    (micro : MicroOp) (hop : op ∈ rawOpcodes) (hexec : ∀ s, exec i s = .next (issueI2cm op arg [micro] false s))
    (hpost : ∀ q s t m, m.sclO = (perform (s.envAt 0).sdaP micro s.i2cm).sclO →
      m.sdaO = (perform (s.envAt 0).sdaP micro s.i2cm).sdaO → m.sdaIn = (perform (s.envAt 0).sdaP micro s.i2cm).sdaIn →
      m.owned = s.i2cm.owned → m.rxdata = s.i2cm.rxdata → m.ack = s.i2cm.ack → FlagsKept s t m → post q s t m) :
    CompletesWith i 1 post := by
  refine .of_performed op arg [micro] false rfl Nat.one_pos hexec fun q s t hcur hview hsticky => ?_
  have hone : performed [micro] (fun j => (s.envAt j).sdaP) q s.i2cm 1 = perform (s.envAt 0).sdaP micro s.i2cm := by
    simp [performed]
  rw [hone] at hview
  obtain ⟨hscl, hsda, -, hcur', -, -, -, -, -, -, howned, hrx, hin, hack⟩ := (I2cm.view_eq_iff _ _).1 hview
  obtain ⟨-, fcur, -⟩ := perform_frame (s.envAt 0).sdaP micro s.i2cm
  rw [completeI2cm_raw t.i2cm (by rw [hcur'.trans (fcur.trans hcur)]; exact hop)]
  obtain ⟨hnackf, hcmderr, hseqerr⟩ := hsticky
  exact hpost q s t _ hscl hsda hin (howned.trans (perform_owned ..)) (hrx.trans (perform_rxdata ..))
    (hack.trans (perform_ack ..)) ⟨⟨rfl, rfl, rfl, rfl, rfl⟩, hnackf, hcmderr, hseqerr⟩

/-- Settles O15: each command is its one micro-step, whose fields are those of the statement. -/
theorem rawCommandsComplete : Obligations.RawCommandsComplete := by
  refine ⟨fun b => ?_, fun b => ?_, ?_⟩
  · exact .of_raw (op := opWriteScl) (bitArg b) (.scl b) (by decide) (fun _ => rfl)
      fun _ _ _ _ hscl hsda hin howned hrx hack hflags => ⟨hscl, hsda, howned, hrx, hack, hin, hflags⟩
  · exact .of_raw (op := opWriteSda) (bitArg b) (.sda b) (by decide) (fun _ => rfl)
      fun _ _ _ _ hscl hsda hin howned hrx hack hflags => ⟨hscl, hsda, howned, hrx, hack, hin, hflags⟩
  · exact .of_raw (op := opReadSda) 0 (.sample .raw) (by decide) (fun _ => rfl)
      fun _ _ _ _ hscl hsda hin howned hrx hack hflags => ⟨hin, hscl, hsda, howned, hrx, hack, hflags⟩

end Sys2Proof.Machine

namespace Sys2Proof.Machine

/-! The I2CM's protocol commands (41_i2c_protocol.md): what each leaves when it completes, what it drives meanwhile, and that
the byte and ack commands make no bus condition. -/

/-! ### Acceptance and completion -/

/-- A weaker postcondition of the same command. -/
theorem CompletesWith.imp {i : Instr} {n : Nat} {post post' : Nat → State → State → I2cm → Prop}
    (h : CompletesWith i n post) (himp : ∀ q s t m, post q s t m → post' q s t m) : CompletesWith i n post' := by
  intro s₀ s₁ s t hb hex hs hr hrun
  obtain ⟨hidle, hpost⟩ := h s₀ s₁ s t hb hex hs hr hrun
  exact ⟨hidle, himp _ _ _ _ hpost⟩

/-- The unit of a machine `s` that follows the issue of a command to an idle unit (40_bitio.md R141). -/
theorem i2cm_of_issued {i : Instr} {op : BitVec 4} {arg : Byte} {steps : List MicroOp} {cl : Bool} {s₀ s₁ s : State}
    (hexec : ∀ s, exec i s = .next (issueI2cm op arg steps cl s)) (hb : s₀.i2cm.busy = false)
    (hex : exec i s₀ = .next s₁) (hs : s.i2cm = s₁.i2cm) : s.i2cm = acceptI2cm op arg steps cl s₀.i2cm := by
  obtain rfl : issueI2cm op arg steps cl s₀ = s₁ := by simpa [hexec] using hex
  rw [hs, issueI2cm_i2cm, if_neg (by rw [hb]; nofun)]

/-- The completion of a command other than RECV_ACK sets no flag (60_exceptions.md R282). -/
theorem FlagsKept.of_completion {s t : State} (hop : t.i2cm.curOp ≠ opRecvAck)
    (hsticky : (t.i2cm.nackf = true → s.i2cm.nackf = true) ∧ (t.i2cm.cmderr = true → s.i2cm.cmderr = true)
      ∧ (t.i2cm.seqerr = true → s.i2cm.seqerr = true)) :
    FlagsKept s t { completeI2cm t.i2cm with busy := false, k := 0, waitCnt := 0 } := by
  obtain ⟨-, -, hnack, -⟩ := completeI2cm_results t.i2cm
  rw [decide_eq_false hop, Bool.false_and, Bool.or_false] at hnack
  obtain ⟨hnackf, hcmderr, hseqerr⟩ := hsticky
  rw [completeI2cm_frame]
  exact ⟨⟨hnack, rfl, rfl, rfl, rfl⟩, fun h => hnackf (hnack.symm.trans h), hcmderr, hseqerr⟩

/-- What a command of opcode `op` and micro-steps `steps`, other than RECV_ACK, leaves: `q` is its quantum, `s` the machine
after its acceptance, `t` the machine before its completion, `m` the unit after it (40_bitio.md R142, 41_i2c_protocol.md R161
to R166). `cleared` is the accumulator that the acceptance clears. -/
structure Completed (op : BitVec 4) (steps : List MicroOp) (q : Nat) (s t : State) (m : I2cm) : Prop where
  cleared : s.i2cm.acc = 0
  lines : (m.sclO, m.sdaO) = linesAfter steps (s.i2cm.sclO, s.i2cm.sdaO)
  sdaIn : m.sdaIn = (performed steps (fun j => (s.envAt j).sdaP) q s.i2cm steps.length).sdaIn
  owned : m.owned = if op = opStart then true else if op = opStop ∨ op = opInit then false else s.i2cm.owned
  rxdata : m.rxdata = if op = opRecvByte
    then (performed steps (fun j => (s.envAt j).sdaP) q s.i2cm steps.length).acc else s.i2cm.rxdata
  ack : m.ack = s.i2cm.ack
  flags : FlagsKept s t m

/-- What the statements about a command other than RECV_ACK leave to prove: that it is issued with its micro-steps, and what
`Completed` says of them. -/
theorem CompletesWith.completed {i : Instr} (op : BitVec 4) (arg : Byte) (steps : List MicroOp) (cl : Bool)
    (hexec : ∀ s, exec i s = .next (issueI2cm op arg steps cl s)) (hpos : 0 < steps.length) (hop : op ≠ opRecvAck) :
    CompletesWith i steps.length (Completed op steps) := by
  have key : CompletesWith i steps.length fun q s t m => s.i2cm.acc = 0 → Completed op steps q s t m := by
    refine .of_performed op arg steps cl rfl hpos hexec fun q s t hcur hview hsticky hacc => ?_
    have hlines := performed_lines steps (fun j => (s.envAt j).sdaP) q s.i2cm steps.length
    rw [List.take_length] at hlines
    obtain ⟨-, fcur, -, -, -, fowned, frx, fack, -⟩ :=
      performed_frame steps (fun j => (s.envAt j).sdaP) q s.i2cm steps.length
    obtain ⟨hscl, hsda, -, hcur', -, -, -, -, -, hacc', howned, hrx, hin, hack⟩ := (I2cm.view_eq_iff _ _).1 hview
    have htop : t.i2cm.curOp = op := hcur'.trans (fcur.trans hcur)
    obtain ⟨crx, cack, -, cowned⟩ := completeI2cm_results t.i2cm
    rw [htop] at crx cack cowned
    refine ⟨hacc, ?_, ?_, ?_, ?_, ?_, .of_completion (by rwa [htop]) hsticky⟩
    · rw [completeI2cm_frame, ← hlines]
      exact Prod.ext hscl hsda
    · rw [completeI2cm_frame]
      exact hin
    · exact cowned.trans (by rw [howned, fowned])
    · exact crx.trans (by rw [hacc', hrx, frx])
    · exact cack.trans (by rw [if_neg hop, hack, fack])
  intro s₀ s₁ s t hb hex hs hr hrun
  obtain ⟨hidle, hpost⟩ := key s₀ s₁ s t hb hex hs hr hrun
  exact ⟨hidle, hpost (by rw [i2cm_of_issued hexec hb hex hs]; rfl)⟩

/-! ### The commands that take no sample -/

/-- A list of micro-steps without a sample. -/
def samplesNothing (steps : List MicroOp) : Prop := ∀ dst, MicroOp.sample dst ∉ steps

/-- Only a sample changes SDA_IN (40_bitio.md R146). -/
theorem performed_sdaIn {steps : List MicroOp} (h : samplesNothing steps) (ds : Nat → Bool) (q : Nat) (m : I2cm) (n : Nat) :
    (performed steps ds q m n).sdaIn = m.sdaIn := by
  induction n with
  | zero => rfl
  | succ n ih =>
    rw [performed]
    cases hop : steps[n]? with
    | none => exact ih
    | some op =>
      cases op with
      | scl b | sda b => exact ih
      | sample dst => exact absurd (List.mem_of_getElem? hop) (h dst)

/-- A command without a sample leaves the drives of its micro-steps, OWNED by its completion effect, and RXDATA, ACK, SDA_IN
and the flags as they were. -/
theorem Completed.results {op : BitVec 4} {steps : List MicroOp} {q : Nat} {s t : State} {m : I2cm}
    (h : Completed op steps q s t m) (hsteps : samplesNothing steps) (hop : op ≠ opRecvByte) :
    m.sclO = (linesAfter steps (s.i2cm.sclO, s.i2cm.sdaO)).1 ∧ m.sdaO = (linesAfter steps (s.i2cm.sclO, s.i2cm.sdaO)).2
      ∧ m.owned = (if op = opStart then true else if op = opStop ∨ op = opInit then false else s.i2cm.owned)
      ∧ m.rxdata = s.i2cm.rxdata ∧ m.ack = s.i2cm.ack ∧ m.sdaIn = s.i2cm.sdaIn ∧ FlagsKept s t m :=
  ⟨congrArg Prod.fst h.lines, congrArg Prod.snd h.lines, h.owned, h.rxdata.trans (if_neg hop), h.ack,
    h.sdaIn.trans (performed_sdaIn hsteps ..), h.flags⟩

/-- Settles O11: the drives are those after the micro-steps, OWNED is the completion effect's. -/
theorem initStartStopComplete : Obligations.InitStartStopComplete := by
  refine ⟨?_, ?_, ?_⟩
  · exact (CompletesWith.completed opInit 0 stepsInit false (fun _ => rfl) (by decide) (by decide)).imp
      fun _ _ _ _ h => h.results (by simp [samplesNothing, stepsInit]) (by decide)
  · exact (CompletesWith.completed opStart 0 stepsStart false (fun _ => rfl) (by decide) (by decide)).imp
      fun _ _ _ _ h => h.results (by simp [samplesNothing, stepsStart]) (by decide)
  · exact (CompletesWith.completed opStop 0 stepsStop true (fun _ => rfl) (by decide) (by decide)).imp
      fun _ _ _ _ h => h.results (by simp [samplesNothing, stepsStop]) (by decide)

/-- Settles O12: the drives are those after the micro-steps, and the two commands have no completion effect. -/
theorem sendByteAndSendAckComplete : Obligations.SendByteAndSendAckComplete := by
  refine ⟨fun b => ?_, fun a => ?_⟩
  · exact (CompletesWith.completed opSendByte b (stepsSendByte b) true (fun _ => rfl) (Nat.succ_pos _) (by decide)).imp
      fun _ _ _ _ h => h.results (by simp [samplesNothing, stepsSendByte]) (by decide)
  · exact (CompletesWith.completed opSendAck (bitArg a) (stepsSendAck a) true (fun _ => rfl) (Nat.succ_pos _)
      (by decide)).imp fun _ _ _ _ h => h.results (by simp [samplesNothing, stepsSendAck]) (by decide)

/-! ### RECV_BYTE -/

/-- The micro-step at position `n` is performed in the tick `n * q` (40_bitio.md R142). -/
theorem performed_succ {steps : List MicroOp} {n : Nat} {op : MicroOp} (h : steps[n]? = some op) (ds : Nat → Bool) (q : Nat)
    (m : I2cm) : performed steps ds q m (n + 1) = perform (ds (n * q)) op (performed steps ds q m n) := by
  rw [performed, h]

/-- A sample into bit `i` sets that bit if it is 1, and no other (40_bitio.md R146). -/
theorem getLsbD_sampleAcc_bit (i : Fin 8) (b : Bool) (acc : Byte) (k : Nat) :
    (sampleAcc (.bit i) b acc).getLsbD k = (acc.getLsbD k || (decide (i.val = k) && b)) := by
  have hk : (decide (k < 8) && decide (i.val = k)) = decide (i.val = k) := by
    rw [← Bool.decide_and]
    exact decide_eq_decide.2 ⟨And.right, fun h => ⟨by omega, h⟩⟩
  cases b with
  | false => simp [sampleAcc]
  | true =>
    rw [sampleAcc, if_pos rfl, BitVec.getLsbD_or, BitVec.getLsbD_ofNat, Nat.testBit_two_pow, hk, Bool.and_true]

/-- The three micro-steps of the clock pulse of bit `7 - j` (41_i2c_protocol.md R165). -/
theorem stepsRecvByte_pulse : ∀ j : Fin 8,
    stepsRecvByte[3 * j.val + 1]? = some (.scl true) ∧ stepsRecvByte[3 * j.val + 2]? = some (.sample (.bit j.rev))
      ∧ stepsRecvByte[3 * j.val + 3]? = some (.scl false) := by decide

/-- One clock pulse of RECV_BYTE samples SDA into its bit and leaves the clock low. -/
theorem performed_recvByte_pulse (ds : Nat → Bool) (q : Nat) (m : I2cm) (j : Fin 8) :
    performed stepsRecvByte ds q m (3 * (j.val + 1) + 1)
      = perform (ds ((3 * j.val + 3) * q)) (.scl false) (perform (ds ((3 * j.val + 2) * q)) (.sample (.bit j.rev))
        (perform (ds ((3 * j.val + 1) * q)) (.scl true) (performed stepsRecvByte ds q m (3 * j.val + 1)))) := by
  obtain ⟨hup, hsample, hdown⟩ := stepsRecvByte_pulse j
  rw [show 3 * (j.val + 1) + 1 = 3 * j.val + 3 + 1 by ring, performed_succ hdown, performed_succ hsample,
    performed_succ hup]

/-- After its first micro-step RECV_BYTE leaves SDA released (R165). -/
theorem performed_recvByte_sdaO (ds : Nat → Bool) (q : Nat) (m : I2cm) {j : Nat} (hj : j ≤ 8) :
    (performed stepsRecvByte ds q m (3 * j + 1)).sdaO = true := by
  induction j with
  | zero => rfl
  | succ j ih =>
    rw [performed_recvByte_pulse ds q m ⟨j, hj⟩]
    exact ih (by omega)

/-- After `j` clock pulses the bits 7 to `8 - j` of the accumulator are the peer's drives in the ticks of the samples, and the
others are still clear (R165, R171). -/
theorem performed_recvByte_acc (ds : Nat → Bool) (q : Nat) (m : I2cm) (hm : m.acc = 0) {j i : Nat} (hj : j ≤ 8)
    (hi : i < 8) :
    (performed stepsRecvByte ds q m (3 * j + 1)).acc.getLsbD (7 - i) = (decide (i < j) && ds ((3 * i + 2) * q)) := by
  induction j with
  | zero =>
    have hfirst : (performed stepsRecvByte ds q m (3 * 0 + 1)).acc = m.acc := rfl
    simp [hfirst, hm]
  | succ j ih =>
    rw [performed_recvByte_pulse ds q m ⟨j, hj⟩]
    have hsda := performed_recvByte_sdaO ds q m (j := j) (by omega)
    simp only [perform, hsda, Bool.true_and, getLsbD_sampleAcc_bit, ih (by omega), Fin.val_rev]
    rcases Nat.lt_trichotomy i j with h | rfl | h
    · simp [h, show i < j + 1 by omega, show 7 - j ≠ 7 - i by omega]
    · simp [show 8 - (i + 1) = 7 - i by omega]
    · simp [show ¬ i < j by omega, show ¬ i < j + 1 by omega, show 7 - j ≠ 7 - i by omega]

/-- SDA_IN after RECV_BYTE is its last sample (R165). -/
theorem performed_recvByte_sdaIn (ds : Nat → Bool) (q : Nat) (m : I2cm) :
    (performed stepsRecvByte ds q m 25).sdaIn = ds (23 * q) := by
  rw [show 25 = 3 * ((7 : Fin 8).val + 1) + 1 from rfl, performed_recvByte_pulse]
  change ((performed stepsRecvByte ds q m (3 * 7 + 1)).sdaO && ds (23 * q)) = ds (23 * q)
  rw [performed_recvByte_sdaO ds q m (by omega), Bool.true_and]

/-- Settles O13: the accumulator after the eight pulses becomes RXDATA. -/
theorem recvByteReturnsTheSampledByte : Obligations.RecvByteReturnsTheSampledByte := by
  refine (CompletesWith.completed opRecvByte 0 stepsRecvByte true (fun _ => rfl) (by decide) (by decide)).imp
    fun q s t m h => ?_
  obtain ⟨hscl, hsda⟩ := Prod.mk.inj h.lines
  have hrx : m.rxdata = (performed stepsRecvByte (fun j => (s.envAt j).sdaP) q s.i2cm (3 * 8 + 1)).acc := h.rxdata
  refine ⟨fun j hj => ?_, h.sdaIn.trans (performed_recvByte_sdaIn _ q _), hscl, hsda, h.owned, h.ack, h.flags⟩
  rw [hrx, performed_recvByte_acc _ q _ h.cleared (le_refl _) hj, decide_eq_true hj, Bool.true_and]

/-! ### The clock at the end of an operation -/

/-- Settles O16: the completion statements of the operations give the drives, whatever the state at acceptance. -/
theorem everyOperationButStopLeavesTheClockLow : Obligations.EveryOperationButStopLeavesTheClockLow := by
  obtain ⟨-, hstart, hstop⟩ := initStartStopComplete
  obtain ⟨hsend, hsack⟩ := sendByteAndSendAckComplete
  refine ⟨hstart.imp fun _ _ _ _ h => h.1, fun b => (hsend b).imp fun _ _ _ _ h => h.1,
    recvByteReturnsTheSampledByte.imp ?_, fun a => (hsack a).imp fun _ _ _ _ h => h.1,
    recvAckRecordsTheAcknowledge.imp ?_, hstop.imp fun _ _ _ _ ⟨hscl, hsda, _⟩ => ⟨hscl, hsda⟩⟩
  · rintro _ _ _ _ ⟨-, -, hscl, -⟩
    exact hscl
  · rintro _ _ _ _ ⟨-, -, -, hscl, -⟩
    exact hscl

/-! ### The byte on the wire -/

/-- A train of clock pulses, one per bit, with SDA set before each (41_i2c_protocol.md R164): pulse `j` raises the clock with
SDA at its bit. -/
theorem linesAfter_pulses {α : Type} (f : α → Bool) (l : List α) {j : Nat} {a : α} (ha : l[j]? = some a)
    (x : Bool × Bool) :
    linesAfter ((l.flatMap fun i => [.sda (f i), .scl true, .scl false]).take (3 * j + 2)) x = (true, f a) := by
  induction l generalizing j x with
  | nil => simp at ha
  | cons c l ih =>
    cases j with
    | zero =>
      obtain rfl : c = a := by simpa using ha
      rfl
    | succ j => exact ih (j := j) (by simpa using ha) (false, f c)

/-- The `j`-th pulse of SEND_BYTE carries bit `7 - j` (R164). -/
theorem linesAfter_sendByte (b : Byte) {j : Nat} (hj : j < 8) (x : Bool × Bool) :
    linesAfter ((stepsSendByte b).take (3 * j + 2)) x = (true, b.getLsbD (7 - j)) := by
  have hbit : ∀ j < 8, ([7, 6, 5, 4, 3, 2, 1, 0] : List Nat)[j]? = some (7 - j) := by decide
  exact linesAfter_pulses b.getLsbD _ (hbit j hj) x

/-- Settles O17: in these ticks the micro-steps 0 to `3j + 1` are done. -/
theorem sendByteHoldsEachBitWhileTheClockIsReleased : Obligations.SendByteHoldsEachBitWhileTheClockIsReleased := by
  intro b s₀ s₁ s t j m hb hex hs hj hlo hhi hr hrun
  have hi2cm := i2cm_of_issued (op := opSendByte) (steps := stepsSendByte b) (fun _ => rfl) hb hex hs
  have hfresh : I2cm.Fresh s.i2cm := by rw [hi2cm]; exact fresh_acceptI2cm ..
  have hsteps : s.i2cm.steps = stepsSendByte b := by rw [hi2cm]; rfl
  have hdq : s.i2cm.dq.toNat = max s₀.i2cm.delay.toNat 1 := by rw [hi2cm]; exact dqOf_toNat _
  have hlen : (stepsSendByte b).length = 24 := rfl
  rw [← hdq] at hlo hhi
  obtain ⟨-, -, -, -, hlines⟩ :=
    microStepsFallOneQuantumApart s t (3 * j + 1) m hfresh (by rw [hsteps, hlen]; omega) hlo hhi hr hrun
  rw [hsteps, linesAfter_sendByte b hj] at hlines
  exact Prod.mk.inj hlines

/-- Settles O18: bit `7 - j` is what SEND_BYTE holds in its `j`-th pulse (O17) and what RECV_BYTE stores of sample `j`
(O13). -/
theorem receivedByteIsTheSentByte : Obligations.ReceivedByteIsTheSentByte := by
  intro b x₀ x₁ x y m hb hex hx hy
  refine recvByteReturnsTheSampledByte.imp fun q s _ r ⟨hrx, _⟩ hpeer => ?_
  refine BitVec.eq_of_getLsbD_eq fun k hk => ?_
  have hj : 7 - k < 8 := by omega
  obtain ⟨hlo, hhi, hr, hrun⟩ := hy (7 - k) hj
  obtain ⟨-, hsent⟩ := sendByteHoldsEachBitWhileTheClockIsReleased b x₀ x₁ x _ _ _ hb hex hx hj hlo hhi hr hrun
  have hreceived := (hrx (7 - k) hj).trans ((hpeer (7 - k) hj).trans hsent)
  rwa [show 7 - (7 - k) = k by omega] at hreceived

/-! ### No bus condition -/

/-- The micro-steps move SDA only while the master holds the clock low, from a clock at `scl` on. -/
def movesSdaOnlyClockLow : Bool → List MicroOp → Bool
  | _, [] => true
  | _, .scl b :: rest => movesSdaOnlyClockLow b rest
  | scl, .sda _ :: rest => !scl && movesSdaOnlyClockLow scl rest
  | scl, .sample _ :: rest => movesSdaOnlyClockLow scl rest

/-- Where such a list moves SDA, the micro-steps before have left the clock low. -/
theorem clockLow_of_movesSdaOnlyClockLow {steps : List MicroOp} {x : Bool × Bool}
    (h : movesSdaOnlyClockLow x.1 steps = true) {k : Nat} {b : Bool} (hk : steps[k]? = some (.sda b)) :
    (linesAfter (steps.take k) x).1 = false := by
  induction steps generalizing x k with
  | nil => simp at hk
  | cons op rest ih =>
    cases k with
    | zero =>
      obtain rfl : op = .sda b := by simpa using hk
      have hlow : (!x.1 && movesSdaOnlyClockLow x.1 rest) = true := h
      simpa [linesAfter] using (Bool.and_eq_true_iff.1 hlow).1
    | succ k =>
      have hk : rest[k]? = some (.sda b) := by simpa using hk
      cases op with
      | scl c => exact ih (x := (c, x.2)) h hk
      | sda c => exact ih (x := (x.1, c)) (Bool.and_eq_true_iff.1 h).2 hk
      | sample dst => exact ih (x := x) h hk

/-- The byte and ack commands move SDA only while the clock is low, if it is low at their start (41_i2c_protocol.md R169). -/
theorem exec_byteOrAck {i : Instr}
    (hi : (∃ b, i = .i2cSendb b) ∨ i = .i2cRecvb ∨ (∃ a, i = .i2cSack a) ∨ i = .i2cRack) :
    ∃ op arg steps, movesSdaOnlyClockLow false steps = true ∧ ∀ s, exec i s = .next (issueI2cm op arg steps true s) := by
  rcases hi with ⟨b, rfl⟩ | rfl | ⟨a, rfl⟩ | rfl
  · exact ⟨opSendByte, b, stepsSendByte b, rfl, fun _ => rfl⟩
  · exact ⟨opRecvByte, 0, stepsRecvByte, rfl, fun _ => rfl⟩
  · exact ⟨opSendAck, bitArg a, stepsSendAck a, rfl, fun _ => rfl⟩
  · exact ⟨opRecvAck, 0, stepsRecvAck, rfl, fun _ => rfl⟩

/-- While a command runs its drives are those after the micro-steps before its position (40_bitio.md R142). -/
theorem runs_i2cm_lines {n : Nat} {s t : State} (hm : I2cm.Fresh s.i2cm)
    (hn : n ≤ s.i2cm.steps.length * s.i2cm.dq.toNat) (hr : s.noResetFor n) (h : Runs n s t) :
    t.i2cm.steps = s.i2cm.steps
      ∧ (t.i2cm.sclO, t.i2cm.sdaO) = linesAfter (s.i2cm.steps.take t.i2cm.k) (s.i2cm.sclO, s.i2cm.sdaO) := by
  obtain ⟨hscl, hsda, -, -, -, hsteps, hk, -⟩ := (I2cm.view_eq_iff _ _).1 (runs_i2cm hm hn hr h)
  rw [hscl, hsda, hk, hsteps]
  cases n with
  | zero => rw [i2cmAfter, hm.first]; exact ⟨rfl, rfl⟩
  | succ p =>
    obtain ⟨-, -, -, fsteps, -⟩ := performed_frame s.i2cm.steps (fun j => (s.envAt j).sdaP) s.i2cm.dq.toNat s.i2cm
      (p / s.i2cm.dq.toNat + 1)
    exact ⟨fsteps, performed_lines ..⟩

/-- The peer's drive of SDA after a tick without reset (10_state.md R34). -/
theorem step_sdaP {s t : State} (h : step s = .next t) (hr : (s.envAt 0).reset = false) : t.sdaP = (s.envAt 0).sdaP := by
  rcases (step_cases h).2 with ⟨hr', -⟩ | ⟨-, -, hs⟩
  · exact absurd (hr.symm.trans hr') nofun
  · obtain ⟨-, -, -, -, hsda, -⟩ := unitsTick_frame s
    exact hs.sdaP.trans hsda

/-- The peer's drive of SDA after ticks without reset is that of the last of them. -/
theorem runs_sdaP {n : Nat} {s t : State} (h : Runs (n + 1) s t) (hr : s.noResetFor (n + 1)) :
    t.sdaP = (s.envAt n).sdaP := by
  obtain ⟨u, hu, hs⟩ := run_succ_last h
  have henv : u.envAt 0 = s.envAt n := runs_envAt hu 0
  rw [step_sdaP hs (by rw [henv]; exact hr n (by omega)), henv]

/-- A START or STOP condition needs the master's clock released and SDA changed (41_i2c_protocol.md R169). -/
theorem no_busCondition {t u : State} (h : t.i2cm.sclO = true → t.sdaLine = u.sdaLine) :
    startCondition t u = false ∧ stopCondition t u = false := by
  cases hscl : t.i2cm.sclO with
  | false => simp [startCondition, stopCondition, State.sclLine, hscl]
  | true => cases hsda : u.sdaLine <;> simp [startCondition, stopCondition, h hscl, hsda]

/-- Settles O19: with the peer off SDA a condition needs the master to move SDA, which it does only at a micro-step, and then
its clock is low. The clock is low before the first tick, where the peer may still have held SDA. -/
theorem clockLowCommandsMakeNoBusCondition : Obligations.ClockLowCommandsMakeNoBusCondition := by
  intro i s₀ s₁ s t u m hi hb hlow hex hs hm hr hpeer hrun hstep
  obtain ⟨op, arg, steps, hmoves, hexec⟩ := exec_byteOrAck hi
  have hi2cm := i2cm_of_issued hexec hb hex hs
  have hfresh : I2cm.Fresh s.i2cm := by rw [hi2cm]; exact fresh_acceptI2cm ..
  have hsteps : s.i2cm.steps = steps := by rw [hi2cm]; rfl
  have hscl : s.i2cm.sclO = false := by rw [hi2cm]; exact hlow
  obtain ⟨htsteps, hlines⟩ := runs_i2cm_lines hfresh hm (fun j hj => hr j (by omega)) hrun
  have henv : t.envAt 0 = s.envAt m := runs_envAt hrun 0
  have hreset : (t.envAt 0).reset = false := by rw [henv]; exact hr m (by omega)
  refine no_busCondition fun hup => ?_
  have hbefore : t.sdaP = true := by
    cases m with
    | zero => cases hrun; exact absurd (hscl.symm.trans hup) nofun
    | succ p => exact (runs_sdaP hrun fun j hj => hr j (by omega)).trans (hpeer p (by omega))
  have hafter : u.sdaP = true := by rw [step_sdaP hstep hreset, henv]; exact hpeer m (le_refl m)
  have hmaster : u.i2cm.sdaO = t.i2cm.sdaO := by
    by_contra hne
    obtain ⟨-, -, -, -, hevent, -⟩ := resultsChangeOnlyAtTheirEvents t u hstep hreset
    obtain ⟨-, -, hop⟩ := hevent hne
    rw [htsteps, hsteps] at hop
    rw [hsteps, hscl] at hlines
    have hdown := clockLow_of_movesSdaOnlyClockLow (x := (false, s.i2cm.sdaO)) hmoves hop
    rw [← hlines] at hdown
    exact absurd (hup.symm.trans hdown) nofun
  rw [State.sdaLine, State.sdaLine, hmaster, hbefore, hafter]

end Sys2Proof.Machine

namespace Sys2Proof.Machine

/-! The axis readings of the sensor client (42_sensor_client.md R196): the pair of bytes as a pattern, and its signed reading. -/

/-- A pattern below 2^15 reads as itself, any other as itself less 2^16 (00_scope.md R11). -/
theorem signed16_eq (v : Half) :
    signed16 v = if v.toNat < 32768 then (v.toNat : Int) else (v.toNat : Int) - 65536 := by
  rw [signed16, BitVec.toInt_eq_toNat_cond]
  split <;> split <;> omega

/-- The pair of bytes fills the halfword without overflow. -/
theorem axisPattern_toNat (hi lo : Byte) :
    (BitVec.ofNat 16 (256 * hi.toNat + lo.toNat)).toNat = 256 * hi.toNat + lo.toNat := by
  have hhi := hi.isLt
  have hlo := lo.isLt
  rw [BitVec.toNat_ofNat, Nat.mod_eq_of_lt (by omega)]

/-- The sign of an axis reading is the top bit of its high byte: whatever the low byte, the pattern reaches 2^15 when the
high byte reaches 128. -/
theorem axisValue_eq (hi lo : Byte) : axisValue hi lo
    = if hi.toNat < 128 then (256 * hi.toNat + lo.toNat : Int) else (256 * hi.toNat + lo.toNat : Int) - 65536 := by
  have hlo := lo.isLt
  have hsign : 256 * hi.toNat + lo.toNat < 32768 ↔ hi.toNat < 128 := by omega
  simp only [axisValue, signed16_eq, axisPattern_toNat, hsign, Nat.cast_add, Nat.cast_mul, Nat.cast_ofNat]

/-- Settles O56: the general reading, and the three worked values of R196 as instances of it. -/
theorem axisValueIsTwosComplement : Obligations.AxisValueIsTwosComplement :=
  ⟨axisValue_eq, axisValue_eq 0x80 0x00, axisValue_eq 0x7F 0xFF, axisValue_eq 0x00 0x01⟩

end Sys2Proof.Machine

namespace Sys2Proof.Machine

/-! The FLC's acceptance of a command, how long it stays busy, and the persistent store's Save and Clear, which are guarded
FLC commands one after another. -/

/-! ### Acceptance -/

/-- UNLOCK and LOCK of an idle FLC (43_flash.md R214, R215). -/
theorem issueLock_idle (lock : Bool) (s : State) (hb : s.flc.busy = false) :
    issueLock lock s = (s.setFlc { s.flc with locked := lock }).respond .written := by
  simp [issueLock, hb]

/-- Settles O22. -/
theorem unlockAndLockActAtOnce : Obligations.UnlockAndLockActAtOnce := fun s hb =>
  ⟨congrArg Host.Outcome.next (issueLock_idle false s hb), congrArg Host.Outcome.next (issueLock_idle true s hb)⟩

/-- Settles O23: the address of ERASE_PAGE passes its check, and ERASE_ALL has none. -/
theorem erasesAreAccepted : Obligations.ErasesAreAccepted := by
  intro s hb hl
  refine ⟨fun hlo hhi hpage => ?_, ?_⟩
  · have hok := (erasePageAddrOk_iff s.par s.flc.addr.toNat).2 ⟨hlo, hhi, hpage⟩
    exact congrArg Host.Outcome.next (issueFlc_accepted opErasePage _ s hb hl hok rfl)
  · exact congrArg Host.Outcome.next (issueFlc_accepted opEraseAll _ s hb hl rfl rfl)

theorem State.erasedAt_zero (s : State) (a : Nat) : s.erasedAt 0 a = true := rfl

theorem State.erasedAt_succ (s : State) (n a : Nat) :
    s.erasedAt (n + 1) a = (decide (s.byteAt a = s.par.erasedByte) && s.erasedAt n (a + 1)) :=
  congrArg (· && s.erasedAt n (a + 1)) (beq_eq_decide ..)

/-- Settles O24: the address passes the command's check, and `pg_fail` says byte by byte that the target is not erased. -/
theorem programsAreAccepted : Obligations.ProgramsAreAccepted := by
  intro s hb hl hlo
  refine ⟨fun halign hhi => ?_, fun halign hhi => ?_⟩
  · have hok := (progHalfAddrOk_iff s.par s.flc.addr.toNat).2 ⟨halign, hlo, hhi⟩
    refine congrArg Host.Outcome.next (issueFlc_accepted opProgHalf _ s hb hl hok ?_)
    simp [State.erasedAt_succ, State.erasedAt_zero, Nat.add_assoc]
  · have hok := (progWordAddrOk_iff s.par s.flc.addr.toNat).2 ⟨halign, hlo, hhi⟩
    refine congrArg Host.Outcome.next (issueFlc_accepted opProgWord _ s hb hl hok ?_)
    simp [State.erasedAt_succ, State.erasedAt_zero, Nat.add_assoc]

/-! ### The duration -/

/-- Settles O31: `m` ticks on, `remaining - m` ticks are left, and the unit finishes in the last of them. -/
theorem flcBusyLastsItsDuration : Obligations.FlcBusyLastsItsDuration := by
  intro s t m hb hm hr h
  obtain ⟨hbusy, -, -, -, -, -, hrem, hmem, hun, -⟩ := runs_flc hb hm hr h
  refine ⟨hmem, hun, ?_⟩
  rcases unitsTick_flc_cases t with ⟨hidle, -⟩ | ⟨-, hleft, hf⟩ | ⟨-, hlast, hf⟩
  · exact absurd (hbusy.symm.trans hidle) nofun
  · rw [hf, decide_eq_true (by omega)]
    exact hbusy
  · rw [hf, decide_eq_false (by omega)]
    rfl

/-! ### Programming the slots of an erased page -/

/-- In machine `t` the first `i` of the halfwords `vs` stand in the slots from address `a` on; every byte but theirs
and the `n` bytes after them is that of machine `s`. -/
structure SlotsFilled (a : Nat) (vs : List Half) (i n : Nat) (s t : State) : Prop where
  filled : ∀ j (h : j < vs.length), j < i → t.halfAt (a + 2 * j) = vs[j]
  kept : ∀ b, (b < a ∨ a + 2 * i + n ≤ b) → t.byteAt b = s.byteAt b

/-- The first slot, and then the others. -/
theorem SlotsFilled.cons {a i n : Nat} {v : Half} {vs : List Half} {s t u : State} (hv : t.halfAt a = v)
    (ht : ∀ b, (b < a ∨ a + 2 ≤ b) → t.byteAt b = s.byteAt b) (h : SlotsFilled (a + 2) vs i n t u) :
    SlotsFilled a (v :: vs) (i + 1) n s u := by
  refine ⟨fun j hj hji => ?_, fun b hb => ?_⟩
  · cases j with
    | zero =>
      rw [Nat.mul_zero, Nat.add_zero, State.halfAt, h.kept a (by omega), h.kept (a + 1) (by omega)]
      exact hv
    | succ j =>
      rw [show a + 2 * (j + 1) = a + 2 + 2 * j by omega, List.getElem_cons_succ]
      exact h.filled j _ (by omega)
  · rw [h.kept b (by omega), ht b (by omega)]

/-- A byte pair that holds a halfword little-endian reads as that halfword (20_memory.md R86). -/
theorem State.halfAt_of_bytes {t : State} {a : Nat} {v : Half} (h0 : t.byteAt a = BitVec.ofNat 8 v.toNat)
    (h1 : t.byteAt (a + 1) = BitVec.ofNat 8 (v.toNat / 256)) : t.halfAt a = v := by
  have hv := v.isLt
  apply BitVec.eq_of_toNat_eq
  have hlow : (BitVec.ofNat 8 v.toNat).toNat < 2 ^ 8 := BitVec.isLt _
  rw [State.halfAt, h0, h1, BitVec.toNat_append, ← Nat.shiftLeft_add_eq_or_of_lt hlow, Nat.shiftLeft_eq]
  simp only [BitVec.toNat_ofNat]
  omega

/-- The address of a slot of the window fits the bus (20_memory.md R80, 44_persistent_store.md R250). -/
theorem slotAddr_toNat {p : Params} (hp : p.ok = true) {base k : Nat} (h : base + 2 * k < p.flashBase + p.flashSize) :
    (slotAddr base k).toNat = base + 2 * k := by
  have hfits := ((Params.ok_iff p).1 hp).flashFits
  rw [slotAddr, BitVec.toNat_ofNat, Nat.mod_eq_of_lt (by omega)]

/-- ProgramHalfWord of each of `vs`, from slot `k` on, in an erased part of the window: when it ends every slot holds its
value; a reset in it tears at most the slot whose turn it is (44_persistent_store.md R254, R258). -/
theorem HostSeq.programSlots (vs : List Half) {s₀ s : State} {base k : Nat} (hp : s.par.ok = true) (hs : GuardedEnd s₀ s)
    (heven : base % 2 = 0) (hlo : s.par.flashBase ≤ base)
    (hhi : base + 2 * (k + vs.length) ≤ s.par.flashBase + s.par.flashSize)
    (he : ∀ b, base + 2 * k ≤ b → b < base + 2 * (k + vs.length) → s.byteAt b = s.par.erasedByte) :
    HostSeq (vs.length * guardedTicks 4 s.par.tProgHalf) (Machine.programSlots s.par base k vs) s
      (fun t => GuardedEnd s₀ t ∧ SlotsFilled (base + 2 * k) vs vs.length 0 s t)
      (fun r t => SlotsFilled (base + 2 * k) vs (r / guardedTicks 4 s.par.tProgHalf) 2 s t) := by
  induction vs generalizing k s with
  | nil =>
    rw [List.length_nil, Nat.zero_mul]
    exact .nil s ⟨hs, fun _ hj => absurd hj (Nat.not_lt_zero _), fun _ _ => rfl⟩ _
  | cons v vs ih =>
    have hpos : 0 < guardedTicks 4 s.par.tProgHalf := Nat.succ_pos _
    rw [List.length_cons] at hhi he ⊢
    have haddr : (slotAddr base k).toNat = base + 2 * k := slotAddr_toNat hp (by omega)
    have hfirst := HostSeq.programHalfWord (a := slotAddr base k) v hp hs.busy hs.wf
      ((progHalfAddrOk_iff ..).2 (by omega))
      ((State.erasedAt_iff ..).2 fun b h1 h2 => he b (by omega) (by omega))
    rw [haddr] at hfirst
    rw [Nat.add_mul, Nat.one_mul, Nat.add_comm]
    refine hfirst.append (fun t hlater ⟨hend, hbytes⟩ => ?_) fun r t hr hkept => ?_
    · have hpar := hlater.par
      have hkept : ∀ b, (b < base + 2 * k ∨ base + 2 * k + 2 ≤ b) → t.byteAt b = s.byteAt b := fun b hb => by
        rw [hbytes b, if_neg (by omega)]
      have hv : t.halfAt (base + 2 * k) = v := by
        refine State.halfAt_of_bytes ?_ ?_
        · rw [hbytes, if_pos (by omega), Nat.sub_self, Nat.pow_zero, Nat.div_one]
        · rw [hbytes, if_pos (by omega), Nat.add_sub_cancel_left, Nat.pow_one]
      have hrest := ih (s := t) (k := k + 1) (by rw [hpar]; exact hp)
        ⟨hend.busy, hend.locked, hend.pgerr.trans hs.pgerr, hend.wf⟩ (by rw [hpar]; exact hlo) (by rw [hpar]; omega)
        fun b h1 h2 => by rw [hkept b (by omega), hpar, he b (by omega) (by omega)]
      rw [hpar] at hrest
      refine hrest.mono (fun u _ ⟨hend', hfilled⟩ => ⟨hend', .cons hv hkept hfilled⟩) fun r u _ hfilled => ?_
      rw [Nat.add_div_left r hpos]
      exact .cons hv hkept hfilled
    · rw [Nat.div_eq_of_lt hr]
      exact ⟨fun j _ hj => absurd hj (Nat.not_lt_zero _), hkept⟩

/-! ### A page of slots -/

/-- The page at `base` of machine `t` holds the first `i` of the halfwords `vs` in its first `i` slots and is erased but for
them and the `n` bytes after them; every byte outside the page is that of machine `s`. -/
structure PageFilled (base : Nat) (vs : List Half) (i n : Nat) (s t : State) : Prop where
  filled : ∀ j (h : j < vs.length), j < i → t.halfAt (base + 2 * j) = vs[j]
  blank : ∀ a, base + 2 * i + n ≤ a → a < base + s.par.pageSize → t.byteAt a = s.par.erasedByte
  outside : ∀ a, (a < base ∨ base + s.par.pageSize ≤ a) → t.byteAt a = s.byteAt a

/-- Slots filled after the page was erased. -/
theorem PageFilled.of_slotsFilled {base i n : Nat} {vs : List Half} {s t u : State}
    (ht : ∀ a, t.byteAt a = if base ≤ a ∧ a < base + s.par.pageSize then s.par.erasedByte else s.byteAt a)
    (hn : 2 * i + n ≤ s.par.pageSize) (h : SlotsFilled base vs i n t u) : PageFilled base vs i n s u := by
  refine ⟨h.filled, fun a h1 h2 => ?_, fun a ha => ?_⟩
  · rw [h.kept a (by omega), ht a, if_pos (by omega)]
  · rw [h.kept a (by omega), ht a, if_neg (by omega)]

/-- A page that begins in the window ends in it (20_memory.md R83). -/
theorem page_fits {p : Params} {a : Nat} (h : erasePageAddrOk p a = true) :
    a + p.pageSize ≤ p.flashBase + p.flashSize := by
  obtain ⟨hlo, hhi, hmod⟩ := (erasePageAddrOk_iff p a).1 h
  obtain ⟨i, hi⟩ := Nat.dvd_of_mod_eq_zero hmod
  rw [Params.flashSize, Nat.mul_comm p.numPages] at hhi ⊢
  have hpage : i < p.numPages := Nat.lt_of_mul_lt_mul_left (a := p.pageSize) (by omega)
  have hend : p.pageSize * (i + 1) ≤ p.pageSize * p.numPages := Nat.mul_le_mul_left _ hpage
  rw [Nat.mul_succ] at hend
  omega

/-- STORE_BASE is even, and its page is in the window and has room for the 512 slots (00_scope.md R9, 44_persistent_store.md
R250). -/
theorem storePage {p : Params} (hp : p.ok = true) {base : Nat} (h : storeBaseOk p base = true) :
    base % 2 = 0 ∧ p.flashBase ≤ base ∧ base + p.pageSize ≤ p.flashBase + p.flashSize ∧ 1024 ≤ p.pageSize := by
  have ok := (Params.ok_iff p).1 hp
  obtain ⟨hlo, -, hmod⟩ := (erasePageAddrOk_iff p base).1 h
  have hsize : 1024 ∣ p.pageSize := Nat.pow_dvd_pow 2 ok.pageLower
  have hflash : 1024 ∣ p.flashBase := hsize.trans (Nat.dvd_of_mod_eq_zero ok.flashAligned)
  have hoffset : 1024 ∣ base - p.flashBase := hsize.trans (Nat.dvd_of_mod_eq_zero hmod)
  exact ⟨by omega, hlo, page_fits h, Nat.le_of_dvd (pageSize_pos p) hsize⟩

/-- An erase of the store's page and then a program of its 512 slots, which is what Save is made of and the format of
Initialize (44_persistent_store.md R253, R254): it takes the ticks of R260 and leaves the values in the slots; a reset in it
leaves every byte outside the page, and from the erase's end on tears at most the slot whose turn it is (R258). -/
theorem HostSeq.fillPage (vs : List Half) (hvs : vs.length = Config.nSlots) {s : State} {base : Nat} (hp : s.par.ok = true)
    (hbase : storeBaseOk s.par base = true) (hb : s.flc.busy = false) (hw : Memory.wf s.unlisted s.mem = true) :
    HostSeq (saveTicks s.par) (Machine.erasePage s.par (slotAddr base 0) ++ Machine.programSlots s.par base 0 vs) s
      (fun t => GuardedEnd s t ∧ PageFilled base vs Config.nSlots 0 s t)
      (fun r t => (∀ a, (a < base ∨ base + s.par.pageSize ≤ a) → t.byteAt a = s.byteAt a)
        ∧ (guardedTicks 3 s.par.tErasePage ≤ r →
          PageFilled base vs ((r - guardedTicks 3 s.par.tErasePage) / guardedTicks 4 s.par.tProgHalf) 2 s t)) := by
  obtain ⟨heven, hlo, hhi, hroom⟩ := storePage hp hbase
  have hslots : Config.nSlots = 512 := rfl
  have haddr : (slotAddr base 0).toNat = base := slotAddr_toNat hp (by omega)
  have herase := HostSeq.erasePage (a := slotAddr base 0) hp hb hw (by rw [haddr]; exact hbase)
  rw [haddr] at herase
  refine herase.append (fun t hlater ⟨hend, hbytes⟩ => ?_) fun r t hr hkept => ⟨hkept, fun hle => absurd hr (by omega)⟩
  have hpar := hlater.par
  have hprog := HostSeq.programSlots (base := base) (k := 0) vs (by rw [hpar]; exact hp) hend heven
    (by rw [hpar]; exact hlo) (by rw [hpar, hvs]; omega) fun b h1 h2 => by rw [hbytes b, if_pos (by omega), hpar]
  rw [hpar, hvs] at hprog
  refine hprog.mono (fun u _ ⟨hend', hfilled⟩ => ⟨hend', .of_slotsFilled hbytes (by omega) hfilled⟩)
    fun r u hr hfilled => ?_
  rw [Nat.add_sub_cancel_left]
  have hslot : r / guardedTicks 4 s.par.tProgHalf < Config.nSlots := Nat.div_lt_of_lt_mul (by rwa [Nat.mul_comm])
  have hpage := PageFilled.of_slotsFilled hbytes (by omega) hfilled
  exact ⟨hpage.outside, fun _ => hpage⟩

/-! ### Save and Clear -/

/-- Save of an idle FLC, without a reset (44_persistent_store.md R254, R260). -/
theorem storeSave_returns {s : State} {base : Nat} (m : Mirror) (hp : s.par.ok = true)
    (hbase : storeBaseOk s.par base = true) (hb : s.flc.busy = false) (hw : Memory.wf s.unlisted s.mem = true)
    (hr : s.noResetFor (saveTicks s.par)) :
    ∃ t, runRoutine (saveTicks s.par) (storeSave s.par base m) s = .returned m t ∧ GuardedEnd s t
      ∧ (∀ k (h : k < 512), t.halfAt (base + 2 * k) = m[k]) ∧ PageFilled base m.toList Config.nSlots 0 s t := by
  have hlen : m.toList.length = Config.nSlots := m.length_toList
  obtain ⟨t, htakes, -, hend, hpage⟩ := (HostSeq.fillPage m.toList hlen hp hbase hb hw).ends hr
  refine ⟨t, htakes Mirror 0 (.done m), hend, fun k hk => ?_, hpage⟩
  rw [hpage.filled k (by rw [hlen]; exact hk) hk, Vector.getElem_toList]

/-- Clear keeps slot 0 and zeroes the others (44_persistent_store.md R255). -/
theorem getElem_clearedMirror (m : Mirror) (k : Nat) (h : k < 512) : (clearedMirror m)[k] = if k = 0 then m[0] else 0 := by
  rw [clearedMirror, Vector.getElem_ofFn]

/-- Settles O57: Clear is the Save of the cleared mirror. -/
theorem saveAndClearLeaveTheMirrorInFlash : Obligations.SaveAndClearLeaveTheMirrorInFlash := by
  intro s base m hp hbase hb hw hr
  constructor
  · obtain ⟨t, hrun, hend, hslots, hpage⟩ := storeSave_returns m hp hbase hb hw hr
    exact ⟨t, hrun, hend.busy, hend.locked, hend.pgerr, hslots, hpage.blank, hpage.outside⟩
  · obtain ⟨t, hrun, -, hslots, -⟩ := storeSave_returns (clearedMirror m) hp hbase hb hw hr
    exact ⟨t, hrun, fun k hk => (hslots k hk).trans (getElem_clearedMirror m k hk)⟩

end Sys2Proof.Machine

namespace Sys2Proof.Machine

/-! The persistent store's Initialize, which reads slot 0, formats a page without the sentinel and loads the mirror
(44_persistent_store.md R253), and the page that a reset in a Save leaves (R258). -/

/-! ### Reading a slot -/

/-- A slot's address fits the bus, and is an even address of the flash window (44_persistent_store.md R250). -/
theorem slotAddr_readable {p : Params} (hp : p.ok = true) {base k : Nat} (h : storeBaseOk p base = true) (hk : k < 512) :
    (slotAddr base k).toNat = base + 2 * k ∧ inWindow p (slotAddr base k).toNat = true
      ∧ (slotAddr base k).toNat % 2 = 0 := by
  obtain ⟨heven, hlo, hhi, hroom⟩ := storePage hp h
  have haddr : (slotAddr base k).toNat = base + 2 * k := slotAddr_toNat hp (by omega)
  rw [haddr]
  exact ⟨rfl, (inWindow_iff ..).2 (by omega), by omega⟩

/-- The host read the halfword at `a` between machines `s` and `u` and got `r`: the FLC is idle, since a read stalls until
it is (20_memory.md R96), and if it was idle before, the array is as it was. -/
structure HalfwordRead (a : Nat) (r : HostResp) (s u : State) : Prop where
  par : u.par = s.par
  idle : u.flc.busy = false
  value : halfRead r = u.halfAt a
  kept : s.flc.busy = false → SameArray s u

/-- One tick of `rd.h` in the flash window, without a reset: it stalls, which only a busy FLC makes it do, or it is
performed. -/
theorem runRoutine_rdH_tick {α : Type} (n : Nat) {s : State} {a : Word} (next : HostResp → Routine α)
    (hp : s.par.ok = true) (hw : inWindow s.par a.toNat = true) (ha : a.toNat % 2 = 0)
    (hr : (s.envAt 0).reset = false) :
    (∃ u, s.flc.busy = true ∧ u.par = s.par ∧ runRoutine (n + 1) (.line (command s.par (.rdH a)) next) s
        = runRoutine n (.line (command s.par (.rdH a)) next) u)
      ∨ ∃ u r, HalfwordRead a.toNat r s u
        ∧ runRoutine (n + 1) (.line (command s.par (.rdH a)) next) s = runRoutine n (next r) u := by
  have hturn := hostTurn_rdH s hp a hw ha _ rfl
  have hpar : (unitsTick (s.making (command s.par (.rdH a)))).par = s.par := (unitsTick_frame _).1
  have hidle := unitsTick_flc_idle (s.making (command s.par (.rdH a)))
  by_cases hbusy : (unitsTick (s.making (command s.par (.rdH a)))).flc.busy = true
  · rw [if_pos hbusy] at hturn
    have hs : s.flc.busy = true := by
      by_contra hs
      exact hs ((congrArg Flc.busy (hidle (by simpa using hs)).1).symm.trans hbusy)
    refine .inl ⟨_, hs, ?_, runRoutine_next n _ next s _ hp hr hturn⟩
    exact hpar
  · rw [if_neg hbusy] at hturn
    refine .inr ⟨_, _, ?_, (runRoutine_next n _ next s _ hp hr hturn).trans (if_pos rfl)⟩
    refine ⟨hpar, by simpa using hbusy, halfRead_readBytes _ a.toNat, fun hs => ?_⟩
    obtain ⟨hmem, hunerased, hdraws⟩ := (hidle hs).2
    exact ⟨hmem, hunerased, hdraws⟩

/-- A run that returned has performed its first line, an `rd.h` in the flash window, however long that stalled. -/
theorem runRoutine_rdH_returned {α : Type} {n : Nat} {s t : State} {a : Word} {next : HostResp → Routine α} {x : α}
    (hp : s.par.ok = true) (hw : inWindow s.par a.toNat = true) (ha : a.toNat % 2 = 0)
    (h : runRoutine n (.line (command s.par (.rdH a)) next) s = .returned x t) :
    ∃ m u r, HalfwordRead a.toNat r s u ∧ runRoutine m (next r) u = .returned x t := by
  induction n generalizing s with
  | zero => cases h
  | succ n ih =>
    cases hr : (s.envAt 0).reset with
    | true =>
      rw [runRoutine_cut n _ next s hp hr] at h
      cases h
    | false =>
      rcases runRoutine_rdH_tick n next hp hw ha hr with ⟨u, hbusy, hpar, htick⟩ | ⟨u, r, hread, htick⟩
      · obtain ⟨m, v, r, hread, hrun⟩ := ih (s := u) (by rw [hpar]; exact hp) (by rw [hpar]; exact hw)
          (by rw [hpar]; exact htick.symm.trans h)
        exact ⟨m, v, r, ⟨hread.par.trans hpar, hread.idle, hread.value, fun hs => absurd (hbusy.symm.trans hs) nofun⟩,
          hrun⟩
      · exact ⟨n, u, r, hread, htick.symm.trans h⟩

/-! ### The load -/

/-- The mirror's first `k` entries are the flash's slots; once one is, the FLC is idle, so that they stay so. -/
structure Loaded (base k : Nat) (m : Mirror) (s : State) : Prop where
  idle : 0 < k → s.flc.busy = false
  slots : ∀ i (h : i < 512), i < k → m[i] = s.halfAt (base + 2 * i)

theorem Loaded.zero (base : Nat) (m : Mirror) (s : State) : Loaded base 0 m s :=
  ⟨fun h => absurd h (Nat.lt_irrefl 0), fun _ _ h => absurd h (Nat.not_lt_zero _)⟩

/-- One more slot read. -/
theorem Loaded.succ {base k : Nat} {m : Mirror} {s u : State} {r : HostResp} (h : Loaded base k m s)
    (hr : HalfwordRead (base + 2 * k) r s u) : Loaded base (k + 1) (m.setIfInBounds k (halfRead r)) u := by
  refine ⟨fun _ => hr.idle, fun i hi hik => ?_⟩
  rw [Vector.getElem_setIfInBounds]
  by_cases hki : k = i
  · rw [if_pos hki, hr.value, hki]
  · rw [if_neg hki, h.slots i hi (by omega), State.halfAt_congr hr.par (hr.kept (h.idle (by omega)))]

/-- A load that returned has filled the mirror from the flash (44_persistent_store.md R253, R259). -/
theorem storeLoad_loads {n k j base : Nat} {s t : State} {m m' : Mirror} (hp : s.par.ok = true)
    (hbase : storeBaseOk s.par base = true) (hk : k + j = 512) (hl : Loaded base k m s)
    (h : runRoutine n (storeLoad s.par base k j m) s = .returned m' t) : Loaded base 512 m' t := by
  induction j generalizing n k s m with
  | zero =>
    rw [storeLoad, runRoutine] at h
    cases h
    rwa [← hk]
  | succ j ih =>
    obtain ⟨haddr, hw, heven⟩ := slotAddr_readable (k := k) hp hbase (by omega)
    obtain ⟨i, u, r, hread, hrun⟩ := runRoutine_rdH_returned hp hw heven h
    rw [haddr] at hread
    refine ih (s := u) ?_ ?_ (by omega) (hl.succ hread) (by rw [hread.par]; exact hrun)
    · rw [hread.par]; exact hp
    · rw [hread.par]; exact hbase

/-- Ticks without a reset, some of them gone by. -/
theorem Later.noResetFor {m n : Nat} {s t : State} (h : Later m s t) (hr : s.noResetFor (m + n)) : t.noResetFor n :=
  fun j hj => by rw [h.env]; exact hr (m + j) (by omega)

/-- The load from an idle FLC, without a reset, is one read a tick and changes nothing of the FLC (R253, R260). -/
theorem storeLoad_returns (n : Nat) {k base : Nat} {s : State} (m : Mirror) (hp : s.par.ok = true)
    (hbase : storeBaseOk s.par base = true) (hk : k + n ≤ 512) (hb : s.flc.busy = false) (hr : s.noResetFor n) :
    ∃ m' t, runRoutine n (storeLoad s.par base k n m) s = .returned m' t ∧ t.par = s.par ∧ t.flc = s.flc
      ∧ SameArray s t := by
  induction n generalizing k s m with
  | zero => exact ⟨m, s, rfl, rfl, rfl, rfl, rfl, rfl⟩
  | succ n ih =>
    obtain ⟨-, hw, heven⟩ := slotAddr_readable (k := k) hp hbase (by omega)
    obtain ⟨r, u, -, hread, hlater, hflc, hsame⟩ := runRoutine_rdH n s hp _ hw heven hb (hr 0 (by omega))
      fun r => storeLoad s.par base (k + 1) n (m.setIfInBounds k (halfRead r))
    obtain ⟨m', t, hrun, hpar, hflc', hsame'⟩ := ih (k := k + 1) (s := u) (m.setIfInBounds k (halfRead r))
      (by rw [hlater.par]; exact hp) (by rw [hlater.par]; exact hbase) (by omega) (by rw [hflc]; exact hb)
      (hlater.noResetFor (by rwa [Nat.add_comm]))
    rw [hlater.par] at hrun
    exact ⟨m', t, hread.trans hrun, hpar.trans hlater.par, hflc'.trans hflc, hsame'.mem.trans hsame.mem,
      hsame'.unerased.trans hsame.unerased, hsame'.draws.trans hsame.draws⟩

/-! ### Initialize -/

/-- An Initialize that returned has filled the mirror from the flash, whether it formatted the page or not. -/
theorem storeInitialize_loads {n base : Nat} {s t : State} {m m' : Mirror} (hp : s.par.ok = true)
    (hbase : storeBaseOk s.par base = true) (h : runRoutine n (storeInitialize s.par base m) s = .returned m' t) :
    Loaded base 512 m' t := by
  obtain ⟨i, u, r, hpu, hrun⟩ := runRoutine_line_returned h
  obtain ⟨j, v, hpv, hload⟩ := runRoutine_after_returned hrun
  have hpar : v.par = s.par := hpv.trans hpu
  rw [← hpar] at hp hbase hload
  exact storeLoad_loads hp hbase rfl (.zero base m v) hload

/-- The first tick of an Initialize, from an idle FLC: it reads slot 0 and chooses to format or not by the array (R252). -/
theorem storeInitialize_reads (n : Nat) {base : Nat} {s : State} (m : Mirror) (hp : s.par.ok = true)
    (hbase : storeBaseOk s.par base = true) (hb : s.flc.busy = false) (hr : (s.envAt 0).reset = false) :
    ∃ u, Later 1 s u ∧ u.flc = s.flc ∧ SameArray s u
      ∧ runRoutine (1 + n) (storeInitialize s.par base m) s
        = runRoutine n ((storeLoad s.par base 0 Config.nSlots m).after
            (if s.halfAt base = Config.sentinel then [] else storeFormat s.par base)) u := by
  obtain ⟨haddr, hw, heven⟩ := slotAddr_readable (k := 0) hp hbase (by omega)
  obtain ⟨r, u, hval, hread, hlater, hflc, hsame⟩ := runRoutine_rdH n s hp _ hw heven hb hr
    fun r => (storeLoad s.par base 0 Config.nSlots m).after
      (if pageInitialized (halfRead r) then [] else storeFormat s.par base)
  rw [haddr, Nat.mul_zero, Nat.add_zero] at hval
  refine ⟨u, hlater, hflc, hsame, ?_⟩
  rw [Nat.add_comm 1 n]
  refine hread.trans ?_
  simp only [hval, pageInitialized, beq_iff_eq]

/-- The values that the format of a page programs: the sentinel, and 511 zeros (44_persistent_store.md R253). -/
def formatValues : List Half := Config.sentinel :: List.replicate (Config.nSlots - 1) 0

theorem length_formatValues : formatValues.length = Config.nSlots := by
  rw [formatValues, List.length_cons, List.length_replicate]
  rfl

theorem getElem_formatValues (k : Nat) (h : k < formatValues.length) :
    formatValues[k] = if k = 0 then Config.sentinel else 0 := by
  cases k with
  | zero => rfl
  | succ k => exact List.getElem_replicate _

/-- A filled page depends on the arrays of the two machines alone. -/
theorem PageFilled.congr {base i n : Nat} {vs : List Half} {s s' t t' : State} (hps : s'.par = s.par)
    (hs : SameArray s s') (hpt : t'.par = t.par) (ht : SameArray t t') (h : PageFilled base vs i n s' t) :
    PageFilled base vs i n s t' := by
  obtain ⟨hfilled, hblank, houtside⟩ := h
  rw [hps] at hblank houtside
  refine ⟨fun j hj hji => ?_, fun a h1 h2 => ?_, fun a ha => ?_⟩
  · rw [State.halfAt_congr hpt ht, hfilled j hj hji]
  · rw [State.byteAt_congr hpt ht, hblank a h1 h2]
  · rw [State.byteAt_congr hpt ht, houtside a ha, State.byteAt_congr hps hs]

/-- Initialize of a page with the sentinel, from an idle FLC and without a reset: 513 reads (R253, R257, R260). -/
theorem storeInitialize_keeps {base : Nat} {s : State} (m : Mirror) (hp : s.par.ok = true)
    (hbase : storeBaseOk s.par base = true) (hb : s.flc.busy = false) (hsent : s.halfAt base = Config.sentinel)
    (hr : s.noResetFor (1 + Config.nSlots)) :
    ∃ m' t, runRoutine (1 + Config.nSlots) (storeInitialize s.par base m) s = .returned m' t ∧ t.flc = s.flc
      ∧ SameArray s t := by
  obtain ⟨u, hlater, hflc, hsame, hrun⟩ := storeInitialize_reads Config.nSlots m hp hbase hb (hr 0 (by omega))
  obtain ⟨m', t, hload, -, hflc', hsame'⟩ := storeLoad_returns Config.nSlots (k := 0) (base := base) (s := u) m
    (by rw [hlater.par]; exact hp) (by rw [hlater.par]; exact hbase) (Nat.le_refl 512) (by rw [hflc]; exact hb)
    (hlater.noResetFor hr)
  rw [hlater.par] at hload
  rw [if_pos hsent] at hrun
  exact ⟨m', t, hrun.trans hload, hflc'.trans hflc, hsame'.mem.trans hsame.mem, hsame'.unerased.trans hsame.unerased,
    hsame'.draws.trans hsame.draws⟩

/-- Initialize of a page without the sentinel, from an idle FLC and without a reset: the read of slot 0, a format that costs
what a Save does, and the load (R253, R260). -/
theorem storeInitialize_formats {base : Nat} {s : State} (m : Mirror) (hp : s.par.ok = true)
    (hbase : storeBaseOk s.par base = true) (hb : s.flc.busy = false) (hw : Memory.wf s.unlisted s.mem = true)
    (hsent : s.halfAt base ≠ Config.sentinel) (hr : s.noResetFor (1 + saveTicks s.par + Config.nSlots)) :
    ∃ m' t, runRoutine (1 + saveTicks s.par + Config.nSlots) (storeInitialize s.par base m) s = .returned m' t
      ∧ t.flc.locked = true ∧ PageFilled base formatValues Config.nSlots 0 s t := by
  rw [Nat.add_assoc] at hr ⊢
  obtain ⟨u, hlater, hflc, hsame, hrun⟩ := storeInitialize_reads (saveTicks s.par + Config.nSlots) m hp hbase hb
    (hr 0 (by omega))
  have hru := hlater.noResetFor hr
  have hfill := HostSeq.fillPage (s := u) (base := base) formatValues length_formatValues (by rw [hlater.par]; exact hp)
    (by rw [hlater.par]; exact hbase) (by rw [hflc]; exact hb) (hsame.wf hlater.par hw)
  rw [hlater.par] at hfill
  obtain ⟨v, htakes, hlater', hend, hpage⟩ := hfill.ends fun j hj => hru j (by omega)
  have hpar : v.par = s.par := hlater'.par.trans hlater.par
  obtain ⟨m', t, hload, hpt, hflc', hsame'⟩ := storeLoad_returns Config.nSlots (k := 0) (base := base) (s := v) m
    (by rw [hpar]; exact hp) (by rw [hpar]; exact hbase) (Nat.le_refl 512) hend.busy (hlater'.noResetFor hru)
  rw [hpar] at hload
  rw [if_neg hsent] at hrun
  refine ⟨m', t, (hrun.trans (htakes ..)).trans hload, ?_, hpage.congr hlater.par hsame hpt hsame'⟩
  rw [hflc', hend.locked]

/-- Settles O58: what the mirror holds is said once, of every run that returned; the two branches of R253 say when one
does, and what it leaves in the flash. -/
theorem initializeLoadsTheMirrorFromFlash : Obligations.InitializeLoadsTheMirrorFromFlash := by
  intro s base m hp hbase
  refine ⟨fun n m' t hrun k hk => (storeInitialize_loads hp hbase hrun).slots k hk hk, fun hb hw => ⟨?_, ?_⟩⟩
  · intro hsent hr
    obtain ⟨m', t, hrun, hflc, hsame⟩ := storeInitialize_keeps m hp hbase hb hsent hr
    exact ⟨m', t, hrun, hsame.mem, hsame.unerased, hflc⟩
  · intro hsent hr
    obtain ⟨m', t, hrun, hlocked, hpage⟩ := storeInitialize_formats m hp hbase hb hw hsent hr
    refine ⟨m', t, hrun, hlocked, fun k hk => ?_, hpage.outside⟩
    have hslot := hpage.filled k (by rw [length_formatValues]; exact hk) hk
    rw [getElem_formatValues] at hslot
    exact ((storeInitialize_loads hp hbase hrun).slots k hk hk).trans hslot

/-! ### A reset in a Save -/

/-- Settles O59: slot `k` is in flight in tick `r` exactly if `k` programs fit between the erase's end and `r`. -/
theorem resetDuringSaveTearsThePage : Obligations.ResetDuringSaveTearsThePage := by
  intro s base m r hp hbase hb hw hr hreset hlt
  have hlen : m.toList.length = Config.nSlots := m.length_toList
  obtain ⟨t, hcut, hboot, houtside, htorn⟩ :=
    (HostSeq.fillPage m.toList hlen hp hbase hb hw).cut r hlt hr hreset Mirror (saveTicks s.par) (.done m) hlt
  refine ⟨t, hcut, hboot, houtside, fun k hlo hhi => ?_⟩
  have hk : (r - guardedTicks 3 s.par.tErasePage) / guardedTicks 4 s.par.tProgHalf = k :=
    Nat.div_eq_of_lt_le (by omega) (by omega)
  have hpage := htorn (by omega)
  rw [hk] at hpage
  obtain ⟨-, -, -, hroom⟩ := storePage hp hbase
  refine ⟨fun j hj hjk => ?_, fun j hkj hj => ⟨hpage.blank _ (by omega) (by omega), hpage.blank _ (by omega) (by omega)⟩⟩
  rw [hpage.filled j (by rw [hlen]; exact hj) hjk, Vector.getElem_toList]

end Sys2Proof.Machine

namespace Sys2Proof.Machine

/-! The bus faults and the flags (60_exceptions.md): which access is answered with which code, and what clears a flag. -/

/-! ### Bus-fault codes -/

/-- The answer in `t` carries the code `c`, and one that carries a code is all that changed since `s` (60_exceptions.md
R274, R276). -/
def AnswersCode (s t : State) (c : Option Nat) : Prop :=
  faultCodeOf t.host.resp = c ∧ (faultCodeOf t.host.resp ≠ none → t = s.respond t.host.resp)

/-- A bus fault is answered with its code and changes nothing else. -/
theorem AnswersCode.of_fault (s : State) (c : BusFault) : AnswersCode s (s.respond (.fault c)) (some (busFaultCode c)) :=
  ⟨rfl, fun _ => rfl⟩

/-- An answer without a code may come with any change. -/
theorem AnswersCode.of_none {s t : State} (h : faultCodeOf t.host.resp = none) : AnswersCode s t none :=
  ⟨h, fun hne => absurd h hne⟩

/-- The fault that an access of the given width and address has in a register block (60_exceptions.md R275). -/
def blockFaultCode (w : Width) (a : Nat) : Option Nat :=
  if w ≠ .w32 then some 1 else if a % 4 ≠ 0 then some 2 else none

/-- An access that is not outside is one to the flash window or to one of the two register blocks (20_memory.md R80,
R84). -/
theorem inWindow_or_inBlock {p : Params} {a : Nat} (h : regionOf p a ≠ .outside) :
    inWindow p a = true
      ∨ (inWindow p a = false
        ∧ ((p.i2cmBase ≤ a ∧ a < p.i2cmBase + 16) ∨ (p.flcBase ≤ a ∧ a < p.flcBase + 16))) := by
  cases hw : inWindow p a with
  | true => exact .inl rfl
  | false =>
    rcases regionOf_cases p a with ⟨off, ho, ha, -⟩ | ⟨off, ho, ha, -⟩ | ⟨hw', -⟩ | ⟨-, hr⟩
    · exact .inr ⟨rfl, .inl (by omega)⟩
    · exact .inr ⟨rfl, .inr (by omega)⟩
    · exact absurd (hw.symm.trans hw') nofun
    · exact absurd hr h

/-- An access that goes on is in one of the three regions (20_memory.md R84). -/
theorem regionOf_ne_outside {s t : State} {w : Width} {a v : Word}
    (h : performAccess (.read w a) s = .next t ∨ performAccess (.write w a v) s = .next t) :
    regionOf s.par a.toNat ≠ .outside := by
  intro hr
  rcases h with h | h <;> rw [performAccess_outside (by rw [decodeAccess, hr])] at h <;> cases h

/-- A write to a register that is performed is acknowledged (notes/assumptions/11.md). -/
theorem decodeRegWrite_written {r : Reg} {v : Word} {s t : State}
    (h : performDecoded (decodeRegWrite r v) s = .next t) : t.host.resp = .written := by
  cases r with
  | i2cmCmd =>
    rw [decodeRegWrite] at h
    cases hd : decodeI2cm v with
    | ok i =>
      obtain ⟨op, arg, steps, cl, -, he⟩ := exec_i2cmCommand (isI2cmCommand_of_decodeI2cm hd)
      obtain rfl : issueI2cm op arg steps cl s = t := by simpa [hd, decodeCommand, performDecoded, he] using h
      rfl
    | error e => rw [hd] at h; injection h with h; subst h; rfl
  | flcCmd =>
    rw [decodeRegWrite] at h
    cases hd : decodeFlc v with
    | ok i =>
      obtain ⟨-, -, hi⟩ := decodeFlc_ok_cases hd
      rw [hd] at h
      rcases (mem_flcCommands_iff i).1 hi with rfl | rfl | hm
      · injection h with h; subst h; rfl
      · injection h with h; subst h; rfl
      · obtain ⟨op, ok, pf, dur, -, he⟩ := exec_mutating hm s
        obtain rfl : issueFlc op ok pf dur s = t := by simpa [decodeCommand, performDecoded, he] using h
        rfl
    | error e => rw [hd] at h; injection h with h; subst h; rfl
  | i2cmStat | i2cmData | i2cmDelay | flcAddr | flcData | flcStat => injection h with h; subst h; rfl

/-- An access to a register block is answered with the code of its width, else of its alignment, and with none if what it
performs has none (60_exceptions.md R275). -/
theorem answersCode_regBlock {s t : State} {acc : Access} {w : Width} {off a : Nat} {d : Decoded}
    (hoff : off % 4 = a % 4) (hdec : decodeAccess s.par acc = decodeRegAccess w off d)
    (hd : performDecoded d s = .next t → faultCodeOf t.host.resp = none) (h : performAccess acc s = .next t) :
    AnswersCode s t (blockFaultCode w a) := by
  have faulted : ∀ c, decodeAccess s.par acc = .fault c → AnswersCode s t (some (busFaultCode c)) := by
    intro c hc
    rw [performAccess_fault hc] at h
    injection h with h
    exact h ▸ .of_fault s c
  unfold blockFaultCode
  split
  · next hw => exact faulted .width (hdec.trans (decodeRegAccess_width hw off d))
  next hw =>
  obtain rfl : w = .w32 := Decidable.not_not.1 hw
  split
  · next ha => exact faulted .align (hdec.trans (decodeRegAccess_align (by omega) d))
  · next ha =>
    have hperformed : decodeRegAccess .w32 off d = d := if_pos (by omega)
    rw [performAccess, hdec, hperformed] at h
    exact .of_none (hd h)

/-- A read of the flash window is answered with the code of a misaligned address, or none (60_exceptions.md R275). -/
theorem answersCode_flashRead {s t : State} {w : Width} {a : Word} (hp : s.par.Ok)
    (hw : inWindow s.par a.toNat = true) (h : performAccess (.read w a) s = .next t) :
    AnswersCode s t (if a.toNat % widthBytes w ≠ 0 then some 2 else none) := by
  rw [performAccess, decodeAccess, regionOf_flash _ hp _ hw] at h
  dsimp only [performDecoded] at h
  split
  · next ha =>
    rw [exec_flashRead_misaligned w a s hw ha] at h
    injection h with h
    exact h ▸ .of_fault s .align
  · next ha =>
    rw [exec_flashRead_aligned w a s hw (Decidable.not_not.1 ha)] at h
    injection h with h
    subst h
    refine .of_none ?_
    cases hb : s.flc.busy with
    | true => rw [State.respond_host, flashAnswer_busy w a hb]; rfl
    | false => rw [State.respond_host, flashAnswer_idle w a hb]; rfl

/-- Settles O40: by the region of the access's first byte. -/
theorem busFaultsCarryTheirCodes : Obligations.BusFaultsCarryTheirCodes := by
  intro s w a v hpar
  have hp := (Params.ok_iff _).1 hpar
  refine ⟨fun t h => ?_, fun t h => ?_⟩
  · rcases inWindow_or_inBlock (regionOf_ne_outside (v := v) (.inl h)) with hw | ⟨hw, hblock⟩
    · rw [if_pos hw]
      exact answersCode_flashRead hp hw h
    · obtain ⟨off, r, hoff, hdecode⟩ := decodeAccess_regBlock s.par hp a v hblock
      rw [if_neg (by rw [hw]; nofun)]
      exact answersCode_regBlock hoff (hdecode w).1 (fun hr => by injection hr with hr; subst hr; rfl) h
  · rcases inWindow_or_inBlock (regionOf_ne_outside (.inr h)) with hw | ⟨hw, hblock⟩
    · rw [if_pos hw]
      rw [writesToTheFlashWindowAreReadOnlyFaults s w a v hpar hw] at h
      injection h with h
      subst h
      exact AnswersCode.of_fault s .readOnly
    · obtain ⟨off, r, hoff, hdecode⟩ := decodeAccess_regBlock s.par hp a v hblock
      rw [if_neg (by rw [hw]; nofun)]
      exact answersCode_regBlock hoff (hdecode w).2 (fun hr => by rw [decodeRegWrite_written hr]; rfl) h

/-! ### Sticky flags -/

/-- No flag of I2CM_STAT that is 1 in `m` is 0 in `m'`. -/
structure I2cm.FlagsStay (m m' : I2cm) : Prop where
  nackf : m.nackf = true → m'.nackf = true
  cmderr : m.cmderr = true → m'.cmderr = true
  busyerr : m.busyerr = true → m'.busyerr = true
  seqerr : m.seqerr = true → m'.seqerr = true

/-- No flag of FLC_STAT that is 1 in `f` is 0 in `f'`. -/
structure Flc.FlagsStay (f f' : Flc) : Prop where
  eop : f.eop = true → f'.eop = true
  pgerr : f.pgerr = true → f'.pgerr = true
  lockerr : f.lockerr = true → f'.lockerr = true
  addrerr : f.addrerr = true → f'.addrerr = true
  cmderr : f.cmderr = true → f'.cmderr = true
  busyerr : f.busyerr = true → f'.busyerr = true

/-- The bits 8 and up of I2CM_STAT are its flags and the reserved bits (10_state.md R41). -/
theorem I2cm.FlagsStay.stat {m m' : I2cm} (h : I2cm.FlagsStay m m') {n : Nat} (hn : 8 ≤ n)
    (h1 : (i2cmStat m).getLsbD n = true) : (i2cmStat m').getLsbD n = true := by
  rw [(statusRegistersHaveTheirFields _ Flc.reset n).1] at h1 ⊢
  split at h1
  case h_7 => exact h.nackf h1
  case h_8 => exact h.cmderr h1
  case h_9 => exact h.busyerr h1
  case h_10 => exact h.seqerr h1
  case h_11 => cases h1
  all_goals omega

/-- Bit 2 and the bits 8 and up of FLC_STAT are its flags and the reserved bits (10_state.md R63). -/
theorem Flc.FlagsStay.stat {f f' : Flc} (h : Flc.FlagsStay f f') {n : Nat} (hn : n = 2 ∨ 8 ≤ n)
    (h1 : (flcStat f).getLsbD n = true) : (flcStat f').getLsbD n = true := by
  rw [(statusRegistersHaveTheirFields I2cm.reset _ n).2] at h1 ⊢
  split at h1
  case h_1 => omega
  case h_2 => exact h.eop h1
  case h_3 => exact h.pgerr h1
  case h_4 => exact h.lockerr h1
  case h_5 => exact h.addrerr h1
  case h_6 => exact h.cmderr h1
  case h_7 => exact h.busyerr h1
  case h_8 => cases h1

/-- A write to I2CM_STAT keeps each flag at whose bit it has 0 (10_state.md R51). -/
theorem getLsbD_i2cmStat_i2cmClear (v : Word) (m : I2cm) {n : Nat} (hn : 8 ≤ n) :
    (i2cmStat (i2cmClear v m)).getLsbD n = ((i2cmStat m).getLsbD n && !v.getLsbD n) := by
  rw [(statusRegistersHaveTheirFields _ Flc.reset n).1, (statusRegistersHaveTheirFields m Flc.reset n).1]
  split
  case h_7 | h_8 | h_9 | h_10 | h_11 => rfl
  all_goals omega

/-- A write to FLC_STAT keeps each flag at whose bit it has 0 (10_state.md R71). -/
theorem getLsbD_flcStat_flcClear (v : Word) (f : Flc) {n : Nat} (hn : n = 2 ∨ 8 ≤ n) :
    (flcStat (flcClear v f)).getLsbD n = ((flcStat f).getLsbD n && !v.getLsbD n) := by
  rw [(statusRegistersHaveTheirFields I2cm.reset _ n).2, (statusRegistersHaveTheirFields I2cm.reset f n).2]
  split
  case h_1 => omega
  all_goals rfl

/-- The sequencer clears no flag: a completion can only set NACKF (41_i2c_protocol.md R167). -/
theorem i2cmTick_flagsStay (d : Bool) (m : I2cm) : I2cm.FlagsStay m (i2cmTick d m) := by
  obtain ⟨hcmd, hbusy, hseq, -⟩ := i2cmTick_frame d m
  refine ⟨fun h1 => ?_, fun h1 => hcmd.trans h1, fun h1 => hbusy.trans h1, fun h1 => hseq.trans h1⟩
  by_contra hne
  obtain ⟨-, -, -, hv⟩ := i2cmTick_ne_of_completion I2cm.nackf (fun _ _ _ _ => rfl) perform_nackf (d := d) (m := m)
    (by rwa [h1])
  obtain ⟨-, -, hc, -⟩ := completeI2cm_results m
  rw [hv, hc, h1, Bool.true_or] at hne
  exact hne rfl

/-- The FLC engine clears no flag: a completion can only set EOP or PGERR (43_flash.md R221). -/
theorem unitsTick_flc_flagsStay (s : State) : Flc.FlagsStay s.flc (unitsTick s).flc := by
  rcases unitsTick_flc_cases s with ⟨-, h⟩ | ⟨-, -, h⟩ | ⟨-, -, h⟩ <;> rw [h]
  · exact ⟨id, id, id, id, id, id⟩
  · exact ⟨id, id, id, id, id, id⟩
  · exact ⟨fun h1 => by simp [finishFlc, h1], fun h1 => by simp [finishFlc, h1], id, id, id, id⟩

/-- An access leaves every flag of the I2CM that is 1, or is a write to I2CM_STAT. -/
theorem AccessI2cm.flagsStay_or_clear {m m' : I2cm} {o : Option Decoded} (h : AccessI2cm m o m') :
    I2cm.FlagsStay m m' ∨ ∃ v, o = some (.writeReg .i2cmStat v) ∧ m' = i2cmClear v m := by
  cases h with
  | same | delay => exact .inl ⟨id, id, id, id⟩
  | busyCommand | busyInvalid => exact .inl ⟨id, id, fun _ => rfl, id⟩
  | invalid => exact .inl ⟨id, fun _ => rfl, id, id⟩
  | accepted => exact .inl ⟨id, id, id, fun h1 => by simp [acceptI2cm, h1]⟩
  | clear v => exact .inr ⟨v, rfl, rfl⟩

/-- An access leaves every flag of the FLC that is 1, or is a write to FLC_STAT. -/
theorem AccessFlc.flagsStay_or_clear {s : State} {f : Flc} {o : Option Decoded} (h : AccessFlc s o f) :
    Flc.FlagsStay s.flc f ∨ ∃ v, o = some (.writeReg .flcStat v) ∧ f = flcClear v s.flc := by
  cases h with
  | same | accepted | unlock | lock | addr | data => exact .inl ⟨id, id, id, id, id, id⟩
  | busyCommand | busyInvalid => exact .inl ⟨id, id, id, id, id, fun _ => rfl⟩
  | invalid => exact .inl ⟨id, id, id, id, fun _ => rfl, id⟩
  | locked => exact .inl ⟨id, id, fun _ => rfl, id, id, id⟩
  | address => exact .inl ⟨id, id, id, fun _ => rfl, id, id⟩
  | clear v => exact .inr ⟨v, rfl, rfl⟩

/-- An access that clears a flag of the I2CM is a write to I2CM_STAT with a 1 in the flag's bit (10_state.md R51). -/
theorem AccessI2cm.flag_cleared {m m' : I2cm} {o : Option Decoded} (h : AccessI2cm m o m') {n : Nat} (hn : 8 ≤ n)
    (h1 : (i2cmStat m).getLsbD n = true) (h0 : (i2cmStat m').getLsbD n = false) :
    ∃ v, o = some (.writeReg .i2cmStat v) ∧ v.getLsbD n = true := by
  rcases h.flagsStay_or_clear with hstay | ⟨v, ho, rfl⟩
  · exact absurd ((hstay.stat hn h1).symm.trans h0) nofun
  · rw [getLsbD_i2cmStat_i2cmClear v m hn, h1] at h0
    exact ⟨v, ho, by simpa using h0⟩

/-- An access that clears a flag of the FLC is a write to FLC_STAT with a 1 in the flag's bit (10_state.md R71). -/
theorem AccessFlc.flag_cleared {s : State} {f : Flc} {o : Option Decoded} (h : AccessFlc s o f) {n : Nat}
    (hn : n = 2 ∨ 8 ≤ n) (h1 : (flcStat s.flc).getLsbD n = true) (h0 : (flcStat f).getLsbD n = false) :
    ∃ v, o = some (.writeReg .flcStat v) ∧ v.getLsbD n = true := by
  rcases h.flagsStay_or_clear with hstay | ⟨v, ho, rfl⟩
  · exact absurd ((hstay.stat hn h1).symm.trans h0) nofun
  · rw [getLsbD_flcStat_flcClear v s.flc hn, h1] at h0
    exact ⟨v, ho, by simpa using h0⟩

/-- An access to a register block is what it performs, or a fault (20_memory.md R93). -/
theorem decodeRegAccess_cases (w : Width) (off : Nat) (d : Decoded) :
    decodeRegAccess w off d = d ∨ ∃ c, decodeRegAccess w off d = .fault c := by
  by_cases hw : w = .w32
  · subst hw
    by_cases ho : off % 4 = 0
    · exact .inl (if_pos ho)
    · exact .inr ⟨_, decodeRegAccess_align ho d⟩
  · exact .inr ⟨_, decodeRegAccess_width hw off d⟩

/-- No read writes a register. -/
theorem decodeAccess_read_ne_writeReg (p : Params) (w : Width) (a : Word) (r : Reg) (v : Word) :
    decodeAccess p (.read w a) ≠ .writeReg r v := by
  have reg : ∀ off r', decodeRegAccess w off (.readReg r') ≠ .writeReg r v := by
    intro off r'
    rcases decodeRegAccess_cases w off (.readReg r') with h | ⟨c, h⟩ <;> rw [h] <;> nofun
  rcases regionOf_cases p a.toNat with ⟨off, -, -, hr⟩ | ⟨off, -, -, hr⟩ | ⟨-, hr⟩ | ⟨-, hr⟩ <;>
    rw [decodeAccess, hr]
  · exact reg off _
  · exact reg off _
  · nofun
  · nofun

/-- A write of a register is the line `access` of the host's program: a poll reads. -/
theorem nextAccess_writeReg {s : State} {r : Reg} {v : Word} (h : s.nextAccess = some (.writeReg r v)) :
    ∃ a rest, s.host.prog = .access a :: rest ∧ decodeAccess s.par a = .writeReg r v := by
  unfold State.nextAccess at h
  cases hp : s.host.prog with
  | nil => rw [hp] at h; cases h
  | cons line rest =>
    rw [hp] at h
    cases line with
    | idle => cases h
    | access a => exact ⟨a, rest, rfl, Option.some.inj h⟩
    | poll addr mask want => exact absurd (Option.some.inj h) (decodeAccess_read_ne_writeReg _ _ _ _ _)

/-- Settles O45: the units' turn clears no flag, so one that falls is cleared by the host's access. -/
theorem flagsAreClearedOnlyByWritingOneOrReset : Obligations.FlagsAreClearedOnlyByWritingOneOrReset := by
  intro s t h hr n
  obtain ⟨hi, hf⟩ := step_access h hr
  refine ⟨fun hn h1 h0 => ?_, fun hn h1 h0 => ?_⟩
  · obtain ⟨v, ho, hv⟩ := hi.flag_cleared hn ((i2cmTick_flagsStay _ _).stat hn h1) h0
    obtain ⟨a, rest, hprog, hdecode⟩ := nextAccess_writeReg ho
    exact ⟨a, rest, v, hprog, hdecode, hv⟩
  · obtain ⟨v, ho, hv⟩ := hf.flag_cleared hn ((unitsTick_flc_flagsStay s).stat hn h1) h0
    obtain ⟨a, rest, hprog, hdecode⟩ := nextAccess_writeReg ho
    exact ⟨a, rest, v, hprog, hdecode, hv⟩

end Sys2Proof.Machine

namespace Sys2Proof.Machine

/-! A reset while the FLC executes an erase or a program (70_reset_and_hazards.md R314). -/

theorem flcTarget_erasePage (s : State) (ho : s.flc.curOp = opErasePage)
    (ha : erasePageAddrOk s.par s.flc.curAddr.toNat = true) : flcTarget s = (s.flc.curAddr.toNat, s.par.pageSize) := by
  rw [flcTarget, if_pos ho, targetErasePage, pageStart_pageOf s.par ha]

theorem flcTarget_eraseAll (s : State) (ho : s.flc.curOp = opEraseAll) :
    flcTarget s = (s.par.flashBase, s.par.flashSize) := by
  simp [flcTarget, ho, opErasePage, opEraseAll, targetEraseAll]

/-- The address of an executing ERASE_PAGE passed that command's check (60_exceptions.md R281). -/
theorem Flc.Good.erasePageAddr {p : Params} {f : Flc} (h : Flc.Good p f) (hb : f.busy = true)
    (ho : f.curOp = opErasePage) : erasePageAddrOk p f.curAddr.toNat = true := by
  rcases h.address hb with ⟨-, ha⟩ | ho' | ⟨ho', -⟩ | ⟨ho', -⟩
  · exact ha
  all_goals exact absurd (ho.symm.trans ho') (by decide)

/-- A reset leaves every byte outside the target of the executing command. -/
theorem byteAt_resetTick_outside (s : State) (hw : Memory.wf s.unlisted s.mem = true) (hb : s.flc.busy = true) (a : Nat)
    (ha : a < (flcTarget s).1 ∨ (flcTarget s).1 + (flcTarget s).2 ≤ a) : (resetTick s).byteAt a = s.byteAt a := by
  have hdraw : resetFlash s = s.drawRange (flcTarget s).2 (flcTarget s).1 := if_pos hb
  calc (resetTick s).byteAt a = (resetFlash s).byteAt a := State.byteAt_congr rfl ⟨rfl, rfl, rfl⟩ a
    _ = (s.drawRange (flcTarget s).2 (flcTarget s).1).byteAt a := by rw [hdraw]
    _ = s.byteAt a := State.byteAt_drawRange s _ _ hw a ha

/-- Settles O50: the draws of a reset are in the target, which the latched address of each command gives. -/
theorem resetKeepsEveryByteOutsideTheTarget : Obligations.ResetKeepsEveryByteOutsideTheTarget := by
  intro s t hg hr h hb a
  rcases (step_cases h).2 with ⟨-, rfl⟩ | ⟨hr', -⟩
  · have houtside := byteAt_resetTick_outside s hg.memCanonical hb a
    refine ⟨fun ho ha => houtside ?_, fun ho ha => houtside ?_, fun ho ha => houtside ?_, fun ho ha => houtside ?_⟩
    · rwa [flcTarget_erasePage s ho (hg.flc.erasePageAddr hb ho)]
    · have hwindow : ¬(s.par.flashBase ≤ a ∧ a < s.par.flashBase + s.par.flashSize) := fun hin =>
        absurd (ha.symm.trans ((inWindow_iff ..).2 hin)) nofun
      rw [flcTarget_eraseAll s ho]
      dsimp only
      omega
    · rwa [flcTarget_progHalf s ho]
    · rwa [flcTarget_progWord s ho]
  · exact absurd (hr.symm.trans hr') nofun

end Sys2Proof.Machine
